-- ==== Sys2Proof/Word.lean ====
section
/-! DEFINITION. The word types of the CORE and the small operand types that a command word names
(spec 20_memory.md R55, 30_encoding.md R80, R81, R83, 44_system.md R204, R205). -/

namespace Sys2Proof

/-- One byte of the operand buffer (10_state.md R32). -/
abbrev Byte := BitVec 8

/-- A 32-bit command word or host data word (30_encoding.md R80, 20_memory.md R56). -/
abbrev Word := BitVec 32

/-- A 4-bit register index, point index or vector length: the fields `RD`, `RA`, `RB`, `NA`, `NB`
(30_encoding.md R81, R88). -/
abbrev Idx := Fin 16

/-- The field select bit `F`: the base field of the coordinates or the scalar field of the exponents
(00_scope.md R2, 30_encoding.md R83). -/
inductive FieldSel where
  | bf   -- `F = 0`
  | sf   -- `F = 1`
  deriving DecidableEq, Repr

/-- The constants of `LDC` that 44_system.md R204 defines, by name. -/
inductive ConstId where
  | zero | one | nonres | curveA | curveD | subOrder | cofactor
  deriving DecidableEq, Repr

/-- The constants of `PLDC` that 44_system.md R205 defines, by name. -/
inductive PointConstId where
  | neutral | gen | base
  deriving DecidableEq, Repr

end Sys2Proof
end

