-- ==== Sys2Proof/Syntax.lean ====
section
/-! DEFINITION. The command set NCU-1, one constructor per row of spec/opcode_table.json
(30_encoding.md R89), operands in the assembler's order, destination first (R93). A point operand is
written by the index of its first register; index 15 is legal syntax and raises `E_BOUNDS` when it
runs (R87). -/

namespace Sys2Proof

inductive Instr where
  -- 44_system.md
  | nop
  | zeroize
  | mov (rd ra : Idx)
  | pmov (d a : Idx)
  | ldc (f : FieldSel) (rd : Idx) (cid : ConstId)
  | pldc (d : Idx) (cid : PointConstId)
  -- 40_field_arith.md
  | fadd (f : FieldSel) (rd ra rb : Idx)
  | fsub (f : FieldSel) (rd ra rb : Idx)
  | fneg (f : FieldSel) (rd ra : Idx)
  | fmul (f : FieldSel) (rd ra rb : Idx)
  | fsqr (f : FieldSel) (rd ra : Idx)
  | finv (f : FieldSel) (rd ra : Idx)
  | finvz (f : FieldSel) (rd ra : Idx)
  | fdiv (f : FieldSel) (rd ra rb : Idx)
  | fdivz (f : FieldSel) (rd ra rb : Idx)
  | fpow (f : FieldSel) (rd ra rb : Idx)
  | fleg (f : FieldSel) (rd ra : Idx)
  | fsqrt (f : FieldSel) (rd ra : Idx)
  | fsum (f : FieldSel) (rd ra n : Idx)
  | fprod (f : FieldSel) (rd ra n : Idx)
  | fdot (f : FieldSel) (rd ra na rb nb : Idx)
  -- 41_field_codec.md
  | ffromb (f : FieldSel) (rd : Idx) (off len : BitVec 8)
  | ftob (f : FieldSel) (rs : Idx) (off : BitVec 8)
  | fent (f : FieldSel) (rd : Idx) (off len : BitVec 8)
  -- 43_curve_codec.md
  | pfromb (d : Idx) (off len : BitVec 8)
  | ptob (src : Idx) (off : BitVec 8)
  -- 42_curve.md
  | padd (d a b : Idx)
  | pdbl (d a : Idx)
  | pneg (d a : Idx)
  | ponc (a : Idx)
  | pinsg (a : Idx)
  | smul (d a rb : Idx)
  | smulvt (d a rb : Idx)
  deriving DecidableEq, Repr

end Sys2Proof
end

