-- ==== Sys2Proof/WellFormed.lean ====
section
/-! DEFINITION. Which terms of `Instr` are commands: those that some legal word encodes. The operand
types already bound every index, offset and length (30_encoding.md R88); the one combination that
the encoding refuses and the types allow is a curve constant of `LDC` with `F = 1` (R83, R90,
44_system.md R204). -/

namespace Sys2Proof

/-- May `LDC` name this constant with this field select? 44_system.md R204, last column: `F = 1` only
with `ZERO`, `ONE`, `NONRES`. -/
def ConstId.allows (cid : ConstId) : FieldSel → Bool
  | .bf => true
  | .sf =>
    match cid with
    | .zero | .one | .nonres => true
    | .curveA | .curveD | .subOrder | .cofactor => false

/-- A term that a legal command word encodes (30_encoding.md R82, R83, R90). -/
def Instr.wellFormed : Instr → Bool
  | .ldc f _ cid => cid.allows f
  | .nop | .zeroize | .mov _ _ | .pmov _ _ | .pldc _ _ => true
  | .fadd _ _ _ _ | .fsub _ _ _ _ | .fneg _ _ _ | .fmul _ _ _ _ | .fsqr _ _ _ => true
  | .finv _ _ _ | .finvz _ _ _ | .fdiv _ _ _ _ | .fdivz _ _ _ _ => true
  | .fpow _ _ _ _ | .fleg _ _ _ | .fsqrt _ _ _ => true
  | .fsum _ _ _ _ | .fprod _ _ _ _ | .fdot _ _ _ _ _ _ => true
  | .ffromb _ _ _ _ | .ftob _ _ _ | .fent _ _ _ _ | .pfromb _ _ _ | .ptob _ _ => true
  | .padd _ _ _ | .pdbl _ _ | .pneg _ _ | .ponc _ | .pinsg _ => true
  | .smul _ _ _ | .smulvt _ _ _ => true

end Sys2Proof
end

