-- ==== Sys2Proof/Decode.lean ====
section
/-! DEFINITION. The command decoder (30_encoding.md R81 to R90), total on every 32-bit word and refusing
by name, and after it the encoder. Every refusal is the one error `E_ILLEGAL` to the machine (R90);
the names only say which clause of R90 a word breaks, and their order cannot be observed. -/

namespace Sys2Proof

/-- The clause of 30_encoding.md R90 that makes a word illegal. -/
inductive DecodeError where
  | reservedOpcode   -- `OP` is not in the table of R89
  | reservedBits     -- `RSV` is not 0
  | fieldSelect      -- `F = 1` on a command, or a constant, that does not allow it (R83)
  | unusedField      -- a field the format says must be 0 is not 0 (R82)
  | constantId       -- `CID` is not a defined constant (R204, R205)
  deriving DecidableEq, Repr

/-! ### Fields of the command word (30_encoding.md R81) -/

/-- Bits `lo + len - 1` down to `lo` of a word, as a natural (00_scope.md R12). -/
def bits (w : Word) (lo len : Nat) : Nat := w.toNat / 2 ^ lo % 2 ^ len

/-- `OP`, bits 31:24. -/
def opOf (w : Word) : Nat := bits w 24 8
/-- `F`, bit 23. -/
def fBitOf (w : Word) : Nat := bits w 23 1
/-- `RSV`, bits 22:20. -/
def rsvOf (w : Word) : Nat := bits w 20 3
/-- `RD`, bits 19:16. -/
def rdOf (w : Word) : Idx := Fin.ofNat 16 (bits w 16 4)
/-- `RA`, bits 15:12. -/
def raOf (w : Word) : Idx := Fin.ofNat 16 (bits w 12 4)
/-- `RB`, bits 11:8. -/
def rbOf (w : Word) : Idx := Fin.ofNat 16 (bits w 8 4)
/-- `NA`, bits 7:4. -/
def naOf (w : Word) : Idx := Fin.ofNat 16 (bits w 4 4)
/-- `NB`, bits 3:0. -/
def nbOf (w : Word) : Idx := Fin.ofNat 16 (bits w 0 4)
/-- `OFF8`, bits 15:8. -/
def off8Of (w : Word) : BitVec 8 := BitVec.ofNat 8 (bits w 8 8)
/-- `LEN8`, bits 7:0. -/
def len8Of (w : Word) : BitVec 8 := BitVec.ofNat 8 (bits w 0 8)
/-- `IMM8` and `CID`, bits 7:0. -/
def imm8Of (w : Word) : Nat := bits w 0 8

/-- The field that the `F` bit selects (30_encoding.md R83). -/
def fieldOf (w : Word) : FieldSel := if fBitOf w = 0 then .bf else .sf

/-! ### Formats (30_encoding.md R82): each checks its must-be-zero fields -/

/-- A command with no field select: `F` must be 0 (R83). -/
def needF0 (w : Word) (i : Instr) : Except DecodeError Instr :=
  if fBitOf w = 0 then .ok i else .error .fieldSelect

/-- Format `Z`: every field is 0. -/
def fmtZ (w : Word) (i : Instr) : Except DecodeError Instr :=
  if bits w 0 20 = 0 then needF0 w i else .error .unusedField

/-- Format `R3` in a selected field: `IMM8` is 0. -/
def fmtR3 (w : Word) (mk : FieldSel → Idx → Idx → Idx → Instr) : Except DecodeError Instr :=
  if imm8Of w = 0 then .ok (mk (fieldOf w) (rdOf w) (raOf w) (rbOf w)) else .error .unusedField

/-- Format `R3` of a curve command: `IMM8` and `F` are 0. -/
def fmtR3P (w : Word) (mk : Idx → Idx → Idx → Instr) : Except DecodeError Instr :=
  if imm8Of w = 0 then needF0 w (mk (rdOf w) (raOf w) (rbOf w)) else .error .unusedField

/-- Format `R2` in a selected field: `RB` and `IMM8` are 0. -/
def fmtR2 (w : Word) (mk : FieldSel → Idx → Idx → Instr) : Except DecodeError Instr :=
  if bits w 0 12 = 0 then .ok (mk (fieldOf w) (rdOf w) (raOf w)) else .error .unusedField

/-- Format `R2` without field select: `RB`, `IMM8` and `F` are 0. -/
def fmtR2P (w : Word) (mk : Idx → Idx → Instr) : Except DecodeError Instr :=
  if bits w 0 12 = 0 then needF0 w (mk (rdOf w) (raOf w)) else .error .unusedField

/-- Format `R1`: `RD`, `RB`, `IMM8` and `F` are 0. -/
def fmtR1 (w : Word) (mk : Idx → Instr) : Except DecodeError Instr :=
  if bits w 0 12 = 0 ∧ bits w 16 4 = 0 then needF0 w (mk (raOf w)) else .error .unusedField

/-- Format `V1`: `RB` and `NB` are 0. -/
def fmtV1 (w : Word) (mk : FieldSel → Idx → Idx → Idx → Instr) : Except DecodeError Instr :=
  if bits w 8 4 = 0 ∧ bits w 0 4 = 0 then .ok (mk (fieldOf w) (rdOf w) (raOf w) (naOf w))
  else .error .unusedField

/-- Format `V2`: every field is used. -/
def fmtV2 (w : Word) (mk : FieldSel → Idx → Idx → Idx → Idx → Idx → Instr) :
    Except DecodeError Instr :=
  .ok (mk (fieldOf w) (rdOf w) (raOf w) (naOf w) (rbOf w) (nbOf w))

/-- Format `BL` in a selected field: every field is used. -/
def fmtBL (w : Word) (mk : FieldSel → Idx → BitVec 8 → BitVec 8 → Instr) :
    Except DecodeError Instr :=
  .ok (mk (fieldOf w) (rdOf w) (off8Of w) (len8Of w))

/-- Format `BL` of a point command: `F` is 0. -/
def fmtBLP (w : Word) (mk : Idx → BitVec 8 → BitVec 8 → Instr) : Except DecodeError Instr :=
  needF0 w (mk (rdOf w) (off8Of w) (len8Of w))

/-- Format `BS` in a selected field: `LEN8` is 0. -/
def fmtBS (w : Word) (mk : FieldSel → Idx → BitVec 8 → Instr) : Except DecodeError Instr :=
  if imm8Of w = 0 then .ok (mk (fieldOf w) (rdOf w) (off8Of w)) else .error .unusedField

/-- Format `BS` of a point command: `LEN8` and `F` are 0. -/
def fmtBSP (w : Word) (mk : Idx → BitVec 8 → Instr) : Except DecodeError Instr :=
  if imm8Of w = 0 then needF0 w (mk (rdOf w) (off8Of w)) else .error .unusedField

/-! ### Constant identifiers (44_system.md R204, R205) -/

/-- The constant that a `CID` names for `LDC`; the other values are reserved (R204). -/
def constOfCid : Nat → Option ConstId
  | 0 => some .zero
  | 1 => some .one
  | 2 => some .nonres
  | 3 => some .curveA
  | 4 => some .curveD
  | 5 => some .subOrder
  | 6 => some .cofactor
  | _ => none

/-- The point that a `CID` names for `PLDC`; the other values are reserved (R205). -/
def pointConstOfCid : Nat → Option PointConstId
  | 0 => some .neutral
  | 1 => some .gen
  | 2 => some .base
  | _ => none

/-- Format `C` of `LDC`: `RA`, `RB` are 0, `CID` is defined, and `F = 1` only where R204 allows it. -/
def fmtLdc (w : Word) : Except DecodeError Instr :=
  if bits w 8 8 = 0 then
    match constOfCid (imm8Of w) with
    | none => .error .constantId
    | some cid =>
      if cid.allows (fieldOf w) then .ok (.ldc (fieldOf w) (rdOf w) cid) else .error .fieldSelect
  else .error .unusedField

/-- Format `C` of `PLDC`: `RA`, `RB`, `F` are 0 and `CID` is defined. -/
def fmtPldc (w : Word) : Except DecodeError Instr :=
  if bits w 8 8 = 0 then
    match pointConstOfCid (imm8Of w) with
    | none => .error .constantId
    | some cid => needF0 w (.pldc (rdOf w) cid)
  else .error .unusedField

/-! ### The opcode map (30_encoding.md R89) -/

/-- The decoding of a word whose `RSV` is 0, by its `OP`. -/
def decodeOp (w : Word) : Nat → Except DecodeError Instr
  | 0x01 => fmtZ w .nop
  | 0x02 => fmtZ w .zeroize
  | 0x04 => fmtR2P w .mov
  | 0x05 => fmtR2P w .pmov
  | 0x06 => fmtLdc w
  | 0x07 => fmtPldc w
  | 0x10 => fmtR3 w .fadd
  | 0x11 => fmtR3 w .fsub
  | 0x12 => fmtR2 w .fneg
  | 0x13 => fmtR3 w .fmul
  | 0x14 => fmtR2 w .fsqr
  | 0x15 => fmtR2 w .finv
  | 0x16 => fmtR2 w .finvz
  | 0x17 => fmtR3 w .fdiv
  | 0x18 => fmtR3 w .fdivz
  | 0x19 => fmtR3 w .fpow
  | 0x1A => fmtR2 w .fleg
  | 0x1B => fmtR2 w .fsqrt
  | 0x1C => fmtV1 w .fsum
  | 0x1D => fmtV1 w .fprod
  | 0x1E => fmtV2 w .fdot
  | 0x20 => fmtBL w .ffromb
  | 0x21 => fmtBS w .ftob
  | 0x22 => fmtBL w .fent
  | 0x28 => fmtBLP w .pfromb
  | 0x29 => fmtBSP w .ptob
  | 0x30 => fmtR3P w .padd
  | 0x31 => fmtR2P w .pdbl
  | 0x32 => fmtR2P w .pneg
  | 0x33 => fmtR1 w .ponc
  | 0x34 => fmtR1 w .pinsg
  | 0x35 => fmtR3P w .smul
  | 0x36 => fmtR3P w .smulvt
  | _ => .error .reservedOpcode

/-- The command that a word encodes, or the clause of 30_encoding.md R90 it breaks. -/
def decode (w : Word) : Except DecodeError Instr :=
  if rsvOf w = 0 then decodeOp w (opOf w) else .error .reservedBits

/-! ### The encoder, from the same tables (30_encoding.md R81, R82, R89) -/

/-- The `F` bit of a field select (R83). -/
def FieldSel.bit : FieldSel → Nat
  | .bf => 0
  | .sf => 1

/-- The `CID` of a constant of `LDC` (R204). -/
def ConstId.cid : ConstId → Nat
  | .zero => 0
  | .one => 1
  | .nonres => 2
  | .curveA => 3
  | .curveD => 4
  | .subOrder => 5
  | .cofactor => 6

/-- The `CID` of a point of `PLDC` (R205). -/
def PointConstId.cid : PointConstId → Nat
  | .neutral => 0
  | .gen => 1
  | .base => 2

/-- The word with these fields, `RSV` 0 (R81). -/
def mkWord (op f rd ra rb imm : Nat) : Word :=
  BitVec.ofNat 32 (op * 2 ^ 24 + f * 2 ^ 23 + rd * 2 ^ 16 + ra * 2 ^ 12 + rb * 2 ^ 8 + imm)

/-- The word with these fields in the `BL` and `BS` layout: `OFF8` overlays `RA` and `RB` (R81). -/
def mkWordB (op f rd off len : Nat) : Word :=
  BitVec.ofNat 32 (op * 2 ^ 24 + f * 2 ^ 23 + rd * 2 ^ 16 + off * 2 ^ 8 + len)

/-- The command word of a command (30_encoding.md R82, R89). -/
def encode : Instr → Word
  | .nop => mkWord 0x01 0 0 0 0 0
  | .zeroize => mkWord 0x02 0 0 0 0 0
  | .mov rd ra => mkWord 0x04 0 rd ra 0 0
  | .pmov d a => mkWord 0x05 0 d a 0 0
  | .ldc f rd cid => mkWord 0x06 f.bit rd 0 0 cid.cid
  | .pldc d cid => mkWord 0x07 0 d 0 0 cid.cid
  | .fadd f rd ra rb => mkWord 0x10 f.bit rd ra rb 0
  | .fsub f rd ra rb => mkWord 0x11 f.bit rd ra rb 0
  | .fneg f rd ra => mkWord 0x12 f.bit rd ra 0 0
  | .fmul f rd ra rb => mkWord 0x13 f.bit rd ra rb 0
  | .fsqr f rd ra => mkWord 0x14 f.bit rd ra 0 0
  | .finv f rd ra => mkWord 0x15 f.bit rd ra 0 0
  | .finvz f rd ra => mkWord 0x16 f.bit rd ra 0 0
  | .fdiv f rd ra rb => mkWord 0x17 f.bit rd ra rb 0
  | .fdivz f rd ra rb => mkWord 0x18 f.bit rd ra rb 0
  | .fpow f rd ra rb => mkWord 0x19 f.bit rd ra rb 0
  | .fleg f rd ra => mkWord 0x1A f.bit rd ra 0 0
  | .fsqrt f rd ra => mkWord 0x1B f.bit rd ra 0 0
  | .fsum f rd ra n => mkWord 0x1C f.bit rd ra 0 (n.val * 16)
  | .fprod f rd ra n => mkWord 0x1D f.bit rd ra 0 (n.val * 16)
  | .fdot f rd ra na rb nb => mkWord 0x1E f.bit rd ra rb (na.val * 16 + nb.val)
  | .ffromb f rd off len => mkWordB 0x20 f.bit rd off.toNat len.toNat
  | .ftob f rs off => mkWordB 0x21 f.bit rs off.toNat 0
  | .fent f rd off len => mkWordB 0x22 f.bit rd off.toNat len.toNat
  | .pfromb d off len => mkWordB 0x28 0 d off.toNat len.toNat
  | .ptob src off => mkWordB 0x29 0 src off.toNat 0
  | .padd d a b => mkWord 0x30 0 d a b 0
  | .pdbl d a => mkWord 0x31 0 d a 0 0
  | .pneg d a => mkWord 0x32 0 d a 0 0
  | .ponc a => mkWord 0x33 0 0 a 0 0
  | .pinsg a => mkWord 0x34 0 0 a 0 0
  | .smul d a rb => mkWord 0x35 0 d a rb 0
  | .smulvt d a rb => mkWord 0x36 0 d a rb 0

/-- The reading of an instruction given as a number, bit 0 the least significant bit of the command
word. Every command is one 32-bit word that the host writes whole to `CMD` (30_encoding.md R80,
20_memory.md R55), so there is no byte order to apply. -/
def decodeTableWord (nbits w : Nat) : Option Instr :=
  match decode (BitVec.ofNat 32 (w % 2 ^ nbits)) with
  | .ok i => some i
  | .error _ => none

end Sys2Proof
end

