-- ==== Sys2Proof/Config.lean ====
section
/-! DEFINITION. What a build of the CORE fixes (00_scope.md R5, R6), the example configurations of R9,
and the one free value of the model. The derived members of `Cfg` and the premise `CfgOK` are in
Machine/Params.lean and Machine/CfgOk.lean. -/

namespace Sys2Proof

/-- An affine pair `(x, y)`, x first (10_state.md R22). -/
structure Point where
  x : Nat
  y : Nat
  deriving DecidableEq, Repr

/-- The three parameters of one prime field (00_scope.md R5): modulus, 2-adicity, fixed nonresidue. -/
structure FieldCfg where
  p  : Nat
  k  : Nat
  nr : Nat
  deriving DecidableEq, Repr

/-- The configuration record of 00_scope.md R5, member by member. It is fixed when the block is built
(10_state.md R20). -/
structure Cfg where
  bf       : FieldCfg
  sf       : FieldCfg
  curveA   : Nat
  curveD   : Nat
  order    : Nat
  subOrder : Nat
  cofactor : Nat
  gen      : Point
  base     : Point
  regw     : Nat
  deriving DecidableEq, Repr

/-- `CFG_TOY` of 00_scope.md R9. -/
def Cfg.toy : Cfg where
  bf := { p := 353, k := 5, nr := 3 }
  sf := { p := 41, k := 3, nr := 3 }
  curveA := 9
  curveD := 5
  order := 328
  subOrder := 41
  cofactor := 8
  gen := ⟨4, 143⟩
  base := ⟨157, 22⟩
  regw := 16

/-- `CFG_BJJ` of 00_scope.md R9, with the example nonresidues 5 and 19 named there. PRESUMED: the spec
marks these numbers as general knowledge and not normative (93_implementation_defined.md G1); they
serve tests only. Safe: nothing but a test names this record. -/
def Cfg.bjj : Cfg where
  bf :=
    { p := 21888242871839275222246405745257275088548364400416034343698204186575808495617
      k := 28
      nr := 5 }
  sf :=
    { p := 2736030358979909402780800718157159386076813972158567259200215660948447373041
      k := 4
      nr := 19 }
  curveA := 168700
  curveD := 168696
  order := 21888242871839275222246405745257275088614511777268538073601725287587578984328
  subOrder := 2736030358979909402780800718157159386076813972158567259200215660948447373041
  cofactor := 8
  gen :=
    ⟨995203441582195749578291179787384436505546430278305826713579947235728471134,
     5472060717959818805561601436314318772137091100104008585924551046643952123905⟩
  base :=
    ⟨5299619240641551281634865583518297030282874472190772894086521144482721001553,
     16950150798460657717958625567821834550301663161624707787222815936182638968203⟩
  regw := 256

/-- FREE VALUE (log entry 6). What the inverse engine leaves for a nonzero `a < p` that has no inverse
modulo `p`. 40_field_arith.md R117 defines the result by the inverse, "because `p` is prime"; for a
composite `p` (a `Cfg` that breaks clause 1 of `CfgOK`, 93_implementation_defined.md U1) it states
none. DESIGN CHOICE, safe: nothing in Lean can evaluate it. -/
opaque Config.noInverse (p a : Nat) : Nat

end Sys2Proof
end

