-- ==== Sys2Proof/Machine/Params.lean ====
section
/-! DEFINITION. The derived members of `Cfg` (00_scope.md R5) and the bit length of R12. -/

namespace Sys2Proof

/-- `bitlen(v)`, the number of binary digits, 0 for 0 (00_scope.md R12). -/
def bitlen (v : Nat) : Nat := if v = 0 then 0 else Nat.log2 v + 1

/-- `f.bits`, the bit length of the modulus (R5). -/
def FieldCfg.bits (f : FieldCfg) : Nat := bitlen f.p

/-- `f.BL = ceil(f.bits / 8)`, the byte length of an encoding (R5). -/
def FieldCfg.byteLen (f : FieldCfg) : Nat := (f.bits + 7) / 8

/-- `f.cof = (f.p - 1) / 2^f.k` (R5). -/
def FieldCfg.cof (f : FieldCfg) : Nat := (f.p - 1) / 2 ^ f.k

/-- The field that the `F` bit selects: `BF` for 0, `SF` for 1 (R2, R13). -/
def Cfg.field (c : Cfg) : FieldSel → FieldCfg
  | .bf => c.bf
  | .sf => c.sf

/-- `PL = 2 * BF.BL`, the length of a point encoding (R5). -/
def Cfg.pointLen (c : Cfg) : Nat := 2 * c.bf.byteLen

/-- `Neutral`, the point `(0, 1)` (R5). -/
def neutral : Point := ⟨0, 1⟩

end Sys2Proof
end

