-- ==== Sys2Proof/Machine/State.lean ====
section
/-! DEFINITION. The state of the CORE (spec 10_state.md), the errors it can latch (60_exceptions.md R221),
the host's accesses (20_memory.md R56, R57, 70_reset_and_hazards.md R260) and the state after reset
(10_state.md R35, 70_reset_and_hazards.md R261, R262). -/

namespace Sys2Proof.Machine

/-- The errors of 60_exceptions.md R221, by name. All of them are NEXT states of the machine. -/
inductive ErrKind where
  | divZero     -- `E_DIVZERO`
  | length      -- `E_LENGTH`
  | construct   -- `E_CONSTRUCT`, reset only (R234)
  | internal    -- `E_INTERNAL`
  | illegal     -- `E_ILLEGAL`
  | range       -- `E_RANGE`
  | bounds      -- `E_BOUNDS`
  deriving DecidableEq, Repr

/-- The operand buffer as (address, byte) pairs, addresses strictly rising, the byte 0x00 never listed
(`Memory.wf`, Machine/Ops.lean). An unlisted address reads as its reset value (10_state.md R32, R35). -/
abbrev Memory := List Host.Cell

/-- What the outside does to the CORE: one host access (20_memory.md R56, R57; `off` is the ten address
bits of the 1024-byte host space, R50), or the hard reset pin (70_reset_and_hazards.md R260). -/
inductive HostAct where
  | read (off : BitVec 10)
  | write (off : BitVec 10) (data : Word) (strb : BitVec 4)
  | hardReset
  deriving DecidableEq, Repr

/-- One future action of the host and its place in the interleaving that 20_memory.md R67 leaves open:
`early` says that it reaches the CORE before the engine step of a command that is pending then; a
late one waits for that step. With no command pending the mark means nothing. DESIGN CHOICE (log
entry 2), safe: every interleaving is some list of marks, and claims quantify over all of them. -/
structure Arrival where
  act   : HostAct
  early : Bool
  deriving DecidableEq, Repr

/-- Every piece of state of 10_state.md, and three fields of the model's own: `cfg`, `inbox`, `replies`. -/
structure State where
  /-- The build's `Cfg`, not state to the spec but "a parameter of the step relation" (R20). Nothing
  changes it. DESIGN CHOICE (log entry 1), safe. -/
  cfg     : Cfg
  /-- `r0` to `r15` (R21). -/
  regs    : Vector Nat 16
  /-- `BUF` (R32). -/
  buf     : Memory
  /-- `CMD` (R25). -/
  cmd     : Word
  /-- `STATUS.BUSY` (R26, R27). -/
  busy    : Bool
  /-- `STATUS.DONE` (R26, R27). -/
  done    : Bool
  /-- `STATUS.ERR` (R26, R30). -/
  err     : Bool
  /-- `STATUS.ABSENT` (R26, R28). -/
  absent  : Bool
  /-- `STATUS.BOOL` (R26, R29). -/
  boolRes : Bool
  /-- `STATUS.ERRCODE` (R26, R30). -/
  errCode : BitVec 8
  /-- The host's actions still to come, oldest first (00_scope.md R11). The model's own (log entry 2). -/
  inbox   : List Arrival
  /-- The words the host's reads returned, newest first. The model's own (log entry 3). -/
  replies : List Word
  deriving DecidableEq, Repr

/-- Why a step can stop. -/
inductive Fault where
  /-- Raised by a command's commit (Machine/Ops.lean, `commit`) when a value to be written to an element
  register is not below `2^REGW`. Only a `Cfg` that breaks clause 6 of `CfgOK` can reach it: "without
  them `r[i] <- v` could overflow and the model is undefined" (93_implementation_defined.md U1).
  Safe: the model stops where the spec gives no behaviour (log entry 5). -/
  | registerOverflow
  deriving DecidableEq, Repr

/-- Why an instruction can be refused. -/
inductive Refusal where
  /-- Raised only by an arm of `exec` whose instruction has no meaning yet; no arm of this model does.
  Safe: the model says nothing about such an instruction. -/
  | notModelled (mnemonic : String)
  deriving DecidableEq, Repr

/-- The construction check of 70_reset_and_hazards.md R262 on a configuration: a product of naturals,
not reduced. -/
def constructOk (c : Cfg) : Bool := c.cofactor * c.subOrder == c.order

/-- The reset state of a build with configuration `c` (10_state.md R35, 70_reset_and_hazards.md R261,
R262), with no host action to come. -/
def State.resetOf (c : Cfg) : State where
  cfg := c
  regs := Vector.replicate 16 0
  buf := []
  cmd := 0
  busy := false
  done := false
  err := !constructOk c
  absent := false
  boolRes := false
  errCode := if constructOk c then 0x00 else 0x03
  inbox := []
  replies := []

/-- The machine right after reset, in the spec's example build `CFG_TOY` (00_scope.md R9). DESIGN
CHOICE (log entry 1), unsafe for a claim about this one state: the spec leaves the build open, and
`State.resetOf c` is the reset state of every build. -/
def State.reset : State := State.resetOf Cfg.toy

end Sys2Proof.Machine
end

