-- ==== Sys2Proof/Machine/FieldArith.lean ====
section
/-! DEFINITION. The pure field functions of 00_scope.md R14, as 40_field_arith.md defines them, on
naturals and a modulus `p`. All of them recurse structurally. -/

namespace Sys2Proof.Machine

/-! ### Laws of arithmetic (40_field_arith.md R111) -/

/-- `fadd_f(a, b) = (a + b) mod p`. -/
def fadd (p a b : Nat) : Nat := (a + b) % p

/-- `fsub_f(a, b) = (a - b) mod p`, the non-negative remainder, for `b <= p`. -/
def fsub (p a b : Nat) : Nat := (a + (p - b)) % p

/-- `fneg_f(a) = (p - a) mod p`. -/
def fneg (p a : Nat) : Nat := (p - a) % p

/-- `fmul_f(a, b) = (a * b) mod p`. -/
def fmul (p a b : Nat) : Nat := a * b % p

/-- `fsqr_f(a) = (a * a) mod p`. -/
def fsqr (p a : Nat) : Nat := a * a % p

/-! ### Inverse engine (R117) -/

/-- The Euclid loop of R117 on `(r0, r1)` and `(t0, t1)`, at most `fuel` rounds: the gcd and the
coefficient it ends with. -/
def euclid : (fuel r0 r1 : Nat) → (t0 t1 : Int) → Nat × Int
  | 0, r0, _, t0, _ => (r0, t0)
  | fuel + 1, r0, r1, t0, t1 =>
    if r1 = 0 then (r0, t0)
    else euclid fuel r1 (r0 - r0 / r1 * r1) t1 (t0 - (r0 / r1 : Nat) * t1)

/-- The value of `finv_f(a)` for `a != 0` (R117). `r1` strictly falls, so `a + 1` rounds are enough.
Where `a` has no inverse modulo `p` (a `Cfg` that breaks `CfgOK`) it is a free canonical value (log
entry 6). -/
def invValue (p a : Nat) : Nat :=
  if (euclid (a + 1) p a 0 1).1 = 1 then ((euclid (a + 1) p a 0 1).2 % (p : Int)).toNat
  else Config.noInverse p a % p

/-- `finv_f(a)`: `E_DIVZERO` for 0 (R117). -/
def finv (p a : Nat) : Except ErrKind Nat := if a = 0 then .error .divZero else .ok (invValue p a)

/-- `finvz_f(a)`: 0 for 0 (R117). -/
def finvz (p a : Nat) : Nat := if a = 0 then 0 else invValue p a

/-! ### Exponentiation (R122) -/

/-- The scan of the exponent bits `i - 1` down to 0, most significant first (R122). -/
def powScan (p b e : Nat) : (i acc : Nat) → Nat
  | 0, acc => acc
  | i + 1, acc =>
    let sq := fsqr p acc
    powScan p b e i (if e.testBit i then fmul p sq b else sq)

/-- `fpow_f(b, e)` (R122). -/
def fpow (p b e : Nat) : Nat := powScan p b e (bitlen e) 1

/-- `fleg_f(x) = fpow_f(x, (p - 1) / 2)` (R124). -/
def fleg (p x : Nat) : Nat := fpow p x ((p - 1) / 2)

/-! ### Square root (R125 to R127) -/

/-- "the least i in 1 .. m-1 with fpow_f(t, 2^i) == 1" (R126). -/
def leastOrder (p t m : Nat) : Option Nat :=
  (List.range' 1 (m - 1)).find? fun i => fpow p t (2 ^ i) == 1

/-- The loop of Tonelli-Shanks from `(m, c, t, r)` (R126). `m` strictly falls, so `m + 1` rounds are
enough and the last arm is never reached from `tonelliShanks` (log entry 9). No `i` below `m` is
`E_INTERNAL` (R127). -/
def tonelliLoop (p : Nat) : (fuel m c t r : Nat) → Except ErrKind Nat
  | 0, _, _, _, _ => .error .internal
  | fuel + 1, m, c, t, r =>
    if t = 0 then .ok 0
    else if t = 1 then .ok r
    else
      match leastOrder p t m with
      | none => .error .internal
      | some i =>
        let b := fpow p c (2 ^ (m - i - 1))
        let c' := fsqr p b
        tonelliLoop p fuel i c' (fmul p t c') (fmul p r b)

/-- `tonelli_shanks_f(x)` (R126). -/
def tonelliShanks (f : FieldCfg) (x : Nat) : Except ErrKind Nat :=
  tonelliLoop f.p (f.k + 1) f.k (fpow f.p f.nr f.cof) (fpow f.p x f.cof)
    (fpow f.p x ((f.cof + 1) / 2))

/-- `fsqrt_f(x)`: a value, absent (`none`), or `E_INTERNAL` (R125, R127). -/
def fsqrt (f : FieldCfg) (x : Nat) : Except ErrKind (Option Nat) :=
  let l := fleg f.p x
  if l = 0 then .ok (some 0)
  else if l = f.p - 1 then .ok none
  else if l = 1 then (tonelliShanks f x).map some
  else .error .internal

/-! ### Reductions (R129 to R132): folds from the left starting at the identity -/

/-- The fold of `FSUM` (R130). -/
def fsum (p : Nat) (v : List Nat) : Nat := v.foldl (fadd p) 0

/-- The fold of `FPROD` (R131). -/
def fprod (p : Nat) (v : List Nat) : Nat := v.foldl (fmul p) 1

/-- The fold of `FDOT` over two runs of one length (R132). -/
def fdot (p : Nat) (u v : List Nat) : Nat :=
  (u.zip v).foldl (fun acc ab => fadd p acc (fmul p ab.1 ab.2)) 0

/-! ### The adder's own arithmetic (R112 to R114): one comparison, one correction -/

/-- The adder of `FADD` (R112). -/
def addOnce (p a b : Nat) : Nat := if p ≤ a + b then a + b - p else a + b

/-- The subtractor of `FSUB` (R113). -/
def subOnce (p a b : Nat) : Nat := if b ≤ a then a - b else a + p - b

/-- The negation of `FNEG` (R114). -/
def negOnce (p a : Nat) : Nat := if a = 0 then 0 else p - a

end Sys2Proof.Machine
end

