-- ==== Sys2Proof/Machine/CurveArith.lean ====
section
/-! DEFINITION. The pure curve functions of 00_scope.md R14, as 42_curve.md defines them, over the base
field of a configuration. -/

namespace Sys2Proof.Machine

/-- `oncurve` (42_curve.md R161). -/
def oncurve (c : Cfg) (P : Point) : Bool :=
  let p := c.bf.p
  let x2 := fsqr p P.x
  let y2 := fsqr p P.y
  let lhs := fadd p (fmul p c.curveA x2) y2
  let rhs := fadd p 1 (fmul p c.curveD (fmul p x2 y2))
  lhs == rhs

/-- `blend(s, u, v)`, the arithmetic select (R164). -/
def blend (p s u v : Nat) : Nat := fadd p (fmul p s u) (fmul p (fsub p 1 s) v)

/-- `padd`, the affine addition law with field division (R166, R162). -/
def padd (c : Cfg) (P Q : Point) : Except ErrKind Point :=
  let p := c.bf.p
  let t := fmul p c.curveD (fmul p (fmul p P.x Q.x) (fmul p P.y Q.y))
  let dx := fadd p 1 t
  let dy := fsub p 1 t
  let nx := fadd p (fmul p P.x Q.y) (fmul p Q.x P.y)
  let ny := fsub p (fmul p P.y Q.y) (fmul p c.curveA (fmul p P.x Q.x))
  if dx = 0 ∨ dy = 0 then .error .divZero
  else .ok ⟨fmul p nx (invValue p dx), fmul p ny (invValue p dy)⟩

/-- `pdbl(P) = padd(P, P)` (R168). -/
def pdbl (c : Cfg) (P : Point) : Except ErrKind Point := padd c P P

/-- `pneg((x, y)) = (x, -y)` as written (R170, 90_conflicts.md C1); not the group inverse. -/
def pneg (c : Cfg) (P : Point) : Point := ⟨P.x, fneg c.bf.p P.y⟩

/-- The steps `i - 1` down to 0 of the double-always-add ladder (R171). -/
def ladderCtFrom (c : Cfg) (P : Point) (k : Nat) : (i : Nat) → (acc : Point) → Except ErrKind Point
  | 0, acc => .ok acc
  | i + 1, acc =>
    match pdbl c acc with
    | .error e => .error e
    | .ok dbl =>
      match padd c dbl P with
      | .error e => .error e
      | .ok sum =>
        let s := (k.testBit i).toNat
        ladderCtFrom c P k i ⟨blend c.bf.p s sum.x dbl.x, blend c.bf.p s sum.y dbl.y⟩

/-- `ladder_ct(P, k)`: exactly `REGW` steps whatever `k` is (R171, 90_conflicts.md C6). The rule asks for
`k < 2^REGW`; for a larger `k`, which needs a build that breaks clause 6 of `CfgOK` or a state that
breaks the invariant, the same steps scan its low `REGW` bits: DESIGN CHOICE, unsafe (log entry 19). -/
def ladderCt (c : Cfg) (P : Point) (k : Nat) : Except ErrKind Point :=
  ladderCtFrom c P k c.regw neutral

/-- The steps `i - 1` down to 0 of the variable-time ladder (R173). -/
def ladderVtFrom (c : Cfg) (P : Point) (k : Nat) : (i : Nat) → (acc : Point) → Except ErrKind Point
  | 0, acc => .ok acc
  | i + 1, acc =>
    match pdbl c acc with
    | .error e => .error e
    | .ok dbl =>
      if k.testBit i then
        match padd c dbl P with
        | .error e => .error e
        | .ok sum => ladderVtFrom c P k i sum
      else ladderVtFrom c P k i dbl

/-- `ladder_vt(P, k)`: `bitlen(k)` steps (R173). -/
def ladderVt (c : Cfg) (P : Point) (k : Nat) : Except ErrKind Point :=
  ladderVtFrom c P k (bitlen k) neutral

/-- `isInSubgroup`: on the curve, and then `ladder_ct(P, SubOrder) = Neutral`; the ladder is not run for
an off-curve pair (R176, 90_conflicts.md C3). In a build with `SubOrder >= 2^REGW` (clause 6 of `CfgOK`
broken, "the model is undefined" by 93_implementation_defined.md U1) it runs on and the ladder scans
only the low `REGW` bits of `SubOrder`: DESIGN CHOICE, unsafe (log entry 19). -/
def inSubgroup (c : Cfg) (P : Point) : Except ErrKind Bool :=
  if oncurve c P then (ladderCt c P c.subOrder).map fun Q => Q == neutral
  else .ok false

end Sys2Proof.Machine
end

