-- ==== Sys2Proof/Machine/Ops.lean ====
section
/-! DEFINITION. The named operations over registers, buffer and flags that every meaning is made of: the
primitives of 00_scope.md R13, the error entry (60_exceptions.md R224) and its return (R228), the
commit and completion of a command (30_encoding.md R84 steps 6 and 7), the soft reset
(70_reset_and_hazards.md R263). -/

namespace Sys2Proof.Machine

/-! ### Element registers (10_state.md R21) -/

/-- `r[n]` (00_scope.md R13). Every rule reads an `n` below 16. -/
def State.reg (s : State) (n : Nat) : Nat := s.regs[n]?.getD 0

/-- `r[n] <- v`, for `n` below 16. -/
def State.setReg (s : State) (n v : Nat) : State := { s with regs := s.regs.setIfInBounds n v }

/-! ### Operand buffer (10_state.md R32, 00_scope.md R13) -/

/-- What an unlisted address reads as: the reset value of every byte (10_state.md R32, R35). -/
def Memory.unlisted : Byte := 0x00

/-- The canonical form: addresses strictly rising and below 256, no entry equal to what an unlisted
address reads as. -/
abbrev Memory.wf (m : Memory) : Prop :=
  m.Pairwise (fun x y => x.1 < y.1) ∧ ∀ c ∈ m, c.1 < 256 ∧ c.2 ≠ Memory.unlisted

/-- `BUF[a]`. -/
def Memory.read : Memory → Nat → Byte
  | [], _ => Memory.unlisted
  | (k, v) :: rest, a => if k = a then v else Memory.read rest a

/-- `BUF[a] <- b`, keeping the canonical form. -/
def Memory.write : Memory → Nat → Byte → Memory
  | [], a, b => if b = Memory.unlisted then [] else [(a, b)]
  | (k, v) :: rest, a, b =>
    if a < k then
      if b = Memory.unlisted then (k, v) :: rest else (a, b) :: (k, v) :: rest
    else if a = k then
      if b = Memory.unlisted then rest else (a, b) :: rest
    else (k, v) :: Memory.write rest a b

/-- `MemRead(a, n)`: the byte string `BUF[a], ..., BUF[a+n-1]`. -/
def Memory.readBytes (m : Memory) (a n : Nat) : List Byte :=
  (List.range n).map fun j => m.read (a + j)

/-- `MemWrite(a, n, s)`, with `n` the length of `s`. -/
def Memory.writeBytes (m : Memory) (a : Nat) : List Byte → Memory
  | [] => m
  | b :: bs => Memory.writeBytes (m.write a b) (a + 1) bs

/-- `le_int(s)`: the sum of `s[j] * 256^j` (00_scope.md R13, 20_memory.md R53). -/
def leInt : List Byte → Nat
  | [] => 0
  | b :: bs => b.toNat + 256 * leInt bs

/-- `le_bytes(v, n)`: `s[j] = floor(v / 256^j) mod 256` (00_scope.md R13, 20_memory.md R53). -/
def leBytes (v : Nat) : Nat → List Byte
  | 0 => []
  | n + 1 => BitVec.ofNat 8 v :: leBytes (v / 256) n

/-! ### Error entry and return (60_exceptions.md R221, R224, R228) -/

/-- `STATUS.ERRCODE` of an error (R221). -/
def ErrKind.code : ErrKind → BitVec 8
  | .divZero => 0x01
  | .length => 0x02
  | .construct => 0x03
  | .internal => 0x04
  | .illegal => 0x10
  | .range => 0x11
  | .bounds => 0x12

/-- Error entry, `raise E` (R224): the latch and the flags, and nothing else. -/
def raiseError (e : ErrKind) (s : State) : State :=
  { s with
    err := true
    errCode := e.code
    absent := false
    boolRes := false
    busy := false
    done := true }

/-- Clearing the latch, the CORE's only return (R228). `E_CONSTRUCT` stays (R234). -/
def clearError (s : State) : State :=
  if s.err ∧ s.errCode ≠ ErrKind.code .construct then { s with err := false, errCode := 0x00 } else s

/-! ### Reset of the CORE inside a run (70_reset_and_hazards.md R260, R261, R263) -/

/-- Every piece of the CORE's state at its reset value, the construction check included. What is not
the CORE's state stays: the build, the host's plans and what the host has read. -/
def resetCore (s : State) : State :=
  { State.resetOf s.cfg with inbox := s.inbox, replies := s.replies }

/-! ### Commit and completion of a command (30_encoding.md R84, steps 6 and 7) -/

/-- What a command that does not raise commits. -/
inductive Effect where
  /-- Nothing (`NOP`). -/
  | nothing
  /-- One element register. -/
  | reg (rd : Idx) (v : Nat)
  /-- A point operand, `P(d) <- (x, y)` (00_scope.md R13), `d` at most 14. -/
  | point (d : Idx) (P : Point)
  /-- A byte string in the buffer. -/
  | bytes (off : Nat) (bs : List Byte)
  /-- The flag `BOOL` (10_state.md R29). -/
  | bool (b : Bool)
  /-- The absent result (10_state.md R28). -/
  | absent
  /-- All registers and the whole buffer to 0 (44_system.md R201). -/
  | zeroize
  deriving DecidableEq, Repr

/-- The flags and the handshake of a completion without error (R84 step 7, 10_state.md R27 to R29). -/
def finish (s : State) (absent boolRes : Bool) : State :=
  { s with absent := absent, boolRes := boolRes, busy := false, done := true }

/-- `v < 2^REGW`, which 00_scope.md R13 says "always holds where this is used". -/
def fitsReg (s : State) (v : Nat) : Bool := v < 2 ^ s.cfg.regw

/-- Commit an effect and complete (R84 steps 6 and 7). A register write that does not fit is the one
fault of the model (log entry 5). -/
def commit (s : State) : Effect → Host.Outcome State Fault Refusal
  | .nothing => .next (finish s false false)
  | .reg rd v =>
    if fitsReg s v then .next (finish (s.setReg rd v) false false) else .fault .registerOverflow
  | .point d P =>
    if fitsReg s P.x && fitsReg s P.y then
      .next (finish ((s.setReg d P.x).setReg (d.val + 1) P.y) false false)
    else .fault .registerOverflow
  | .bytes off bs => .next (finish { s with buf := s.buf.writeBytes off bs } false false)
  | .bool b => .next (finish s false b)
  | .absent => .next (finish s true false)
  | .zeroize => .next (finish { s with regs := Vector.replicate 16 0, buf := [] } false false)

/-- The end of an engine step: a raise enters the error, anything else commits (R84). -/
def conclude (s : State) : Except ErrKind Effect → Host.Outcome State Fault Refusal
  | .error e => .next (raiseError e s)
  | .ok ef => commit s ef

end Sys2Proof.Machine
end

