-- ==== Sys2Proof/Machine/Operands.lean ====
section
/-! DEFINITION. Every operand form: the static checks of 30_encoding.md R87, the reads of R84 step 3 and
the value checks of step 4 (40_field_arith.md R110, 42_curve.md R160). -/

namespace Sys2Proof.Machine

/-! ### Static checks (30_encoding.md R84 step 2, R87) -/

/-- A register index used as a point operand is at most 14 (R87.2). -/
def needPoint (i : Idx) : Except ErrKind Unit := if i.val ≤ 14 then .ok () else .error .bounds

/-- A vector operand with start `i` and length `n` ends inside the file (R87.3). -/
def needRun (i n : Idx) : Except ErrKind Unit :=
  if i.val + n.val ≤ 16 then .ok () else .error .bounds

/-- A buffer operand at `off` of length `n` ends inside the buffer (R87.4). -/
def needBytes (off n : Nat) : Except ErrKind Unit := if off + n ≤ 256 then .ok () else .error .bounds

/-- The lengths of `FDOT` agree (R84 step 2, 40_field_arith.md R132). -/
def needSameLength (na nb : Idx) : Except ErrKind Unit :=
  if na = nb then .ok () else .error .length

/-! ### Raw reads -/

/-- The raw value of an element register: a scalar, an exponent, a move (10_state.md R23). -/
def rawReg (s : State) (i : Idx) : Nat := s.reg i

/-- `P(i) = (r[i], r[i+1])` (10_state.md R22), for `i` at most 14. -/
def rawPoint (s : State) (i : Idx) : Point := ⟨s.reg i, s.reg (i.val + 1)⟩

/-- `r[i], ..., r[i+n-1]` (40_field_arith.md R129). -/
def rawRun (s : State) (i n : Idx) : List Nat := (List.range n.val).map fun j => s.reg (i.val + j)

/-! ### Checked reads -/

/-- The modulus of a selected field. -/
def State.modulus (s : State) (f : FieldSel) : Nat := (s.cfg.field f).p

/-- A canonical element of field `f`, or `E_RANGE` (R110). -/
def elem (s : State) (f : FieldSel) (i : Idx) : Except ErrKind Nat :=
  if rawReg s i < s.modulus f then .ok (rawReg s i) else .error .range

/-- A run of canonical elements of field `f`, or `E_RANGE` (R129). -/
def elemRun (s : State) (f : FieldSel) (i n : Idx) : Except ErrKind (List Nat) :=
  if (rawRun s i n).all (· < s.modulus f) then .ok (rawRun s i n) else .error .range

/-- A point operand with both coordinates canonical in the base field, or `E_RANGE` (R160). -/
def canonPoint (s : State) (i : Idx) : Except ErrKind Point :=
  if (rawPoint s i).x < s.modulus .bf ∧ (rawPoint s i).y < s.modulus .bf then .ok (rawPoint s i)
  else .error .range

end Sys2Proof.Machine
end

