-- ==== Sys2Proof/Machine/CurveCmd.lean ====
section
/-! DEFINITION. The twisted Edwards curve commands (spec 42_curve.md R163 to R176). -/

namespace Sys2Proof.Machine

/-- `PADD Pd, Pa, Pb` (R167). -/
def execPadd (d a b : Idx) (s : State) : Host.Outcome State Fault Refusal :=
  conclude s do
    needPoint d
    needPoint a
    needPoint b
    let P ← canonPoint s a
    let Q ← canonPoint s b
    let R ← padd s.cfg P Q
    return .point d R

/-- `PDBL Pd, Pa` (R169). -/
def execPdbl (d a : Idx) (s : State) : Host.Outcome State Fault Refusal :=
  conclude s do
    needPoint d
    needPoint a
    let P ← canonPoint s a
    let R ← pdbl s.cfg P
    return .point d R

/-- `PNEG Pd, Pa` (R170). -/
def execPneg (d a : Idx) (s : State) : Host.Outcome State Fault Refusal :=
  conclude s do
    needPoint d
    needPoint a
    let P ← canonPoint s a
    return .point d (pneg s.cfg P)

/-- `PONC Pa` (R163). -/
def execPonc (a : Idx) (s : State) : Host.Outcome State Fault Refusal :=
  conclude s do
    needPoint a
    let P ← canonPoint s a
    return .bool (oncurve s.cfg P)

/-- `PINSG Pa` (R176). -/
def execPinsg (a : Idx) (s : State) : Host.Outcome State Fault Refusal :=
  conclude s do
    needPoint a
    let P ← canonPoint s a
    let b ← inSubgroup s.cfg P
    return .bool b

/-- `SMUL Pd, Pa, rb` (R172): the scalar is the raw register (R165). -/
def execSmul (d a rb : Idx) (s : State) : Host.Outcome State Fault Refusal :=
  conclude s do
    needPoint d
    needPoint a
    let P ← canonPoint s a
    let R ← ladderCt s.cfg P (rawReg s rb)
    return .point d R

/-- `SMULVT Pd, Pa, rb` (R174): the scalar is the raw register (R165). -/
def execSmulvt (d a rb : Idx) (s : State) : Host.Outcome State Fault Refusal :=
  conclude s do
    needPoint d
    needPoint a
    let P ← canonPoint s a
    let R ← ladderVt s.cfg P (rawReg s rb)
    return .point d R

end Sys2Proof.Machine
end

