-- ==== Sys2Proof/Machine/CurveCodec.lean ====
section
/-! DEFINITION. The point codecs, the CORE's loads and stores of points (spec 43_curve_codec.md R190 to
R193). -/

namespace Sys2Proof.Machine

/-- What `PFROMB` commits for the bytes at `off` (R191): absent on a wrong length, a coordinate out of
range (90_conflicts.md C2), or a pair off the curve. -/
def pointFromBytesEffect (s : State) (d : Idx) (off len : Nat) : Effect :=
  let bl := s.cfg.bf.byteLen
  if len ≠ s.cfg.pointLen then .absent
  else
    let x := leInt (s.buf.readBytes off bl)
    let y := leInt (s.buf.readBytes (off + bl) bl)
    if s.cfg.bf.p ≤ x ∨ s.cfg.bf.p ≤ y then .absent
    else if oncurve s.cfg ⟨x, y⟩ then .point d ⟨x, y⟩
    else .absent

/-- `PFROMB Pd, off, len` (R191). -/
def execPfromb (d : Idx) (off len : BitVec 8) (s : State) : Host.Outcome State Fault Refusal :=
  conclude s do
    needPoint d
    needBytes off.toNat len.toNat
    return pointFromBytesEffect s d off.toNat len.toNat

/-- `PTOB Ps, off` (R192): x then y, each little-endian (20_memory.md R54). -/
def execPtob (src : Idx) (off : BitVec 8) (s : State) : Host.Outcome State Fault Refusal :=
  conclude s do
    needPoint src
    needBytes off.toNat s.cfg.pointLen
    let P ← canonPoint s src
    return .bytes off.toNat (leBytes P.x s.cfg.bf.byteLen ++ leBytes P.y s.cfg.bf.byteLen)

end Sys2Proof.Machine
end

