-- ==== Sys2Proof/Machine/FieldCmd.lean ====
section
/-! DEFINITION. The prime-field arithmetic commands (spec 40_field_arith.md R112 to R132). -/

namespace Sys2Proof.Machine

/-- `FADD.f rd, ra, rb` (R112). -/
def execFadd (f : FieldSel) (rd ra rb : Idx) (s : State) : Host.Outcome State Fault Refusal :=
  conclude s do
    let a ← elem s f ra
    let b ← elem s f rb
    return .reg rd (addOnce (s.modulus f) a b)

/-- `FSUB.f rd, ra, rb` (R113). -/
def execFsub (f : FieldSel) (rd ra rb : Idx) (s : State) : Host.Outcome State Fault Refusal :=
  conclude s do
    let a ← elem s f ra
    let b ← elem s f rb
    return .reg rd (subOnce (s.modulus f) a b)

/-- `FNEG.f rd, ra` (R114). -/
def execFneg (f : FieldSel) (rd ra : Idx) (s : State) : Host.Outcome State Fault Refusal :=
  conclude s do
    let a ← elem s f ra
    return .reg rd (negOnce (s.modulus f) a)

/-- `FMUL.f rd, ra, rb` (R115). -/
def execFmul (f : FieldSel) (rd ra rb : Idx) (s : State) : Host.Outcome State Fault Refusal :=
  conclude s do
    let a ← elem s f ra
    let b ← elem s f rb
    return .reg rd (fmul (s.modulus f) a b)

/-- `FSQR.f rd, ra` (R116). -/
def execFsqr (f : FieldSel) (rd ra : Idx) (s : State) : Host.Outcome State Fault Refusal :=
  conclude s do
    let a ← elem s f ra
    return .reg rd (fsqr (s.modulus f) a)

/-- `FINV.f rd, ra` (R118): `E_DIVZERO` on 0. -/
def execFinv (f : FieldSel) (rd ra : Idx) (s : State) : Host.Outcome State Fault Refusal :=
  conclude s do
    let a ← elem s f ra
    let v ← finv (s.modulus f) a
    return .reg rd v

/-- `FINVZ.f rd, ra` (R119): 0 on 0. -/
def execFinvz (f : FieldSel) (rd ra : Idx) (s : State) : Host.Outcome State Fault Refusal :=
  conclude s do
    let a ← elem s f ra
    return .reg rd (finvz (s.modulus f) a)

/-- `FDIV.f rd, ra, rb` (R120): `E_DIVZERO` on a zero divisor. -/
def execFdiv (f : FieldSel) (rd ra rb : Idx) (s : State) : Host.Outcome State Fault Refusal :=
  conclude s do
    let a ← elem s f ra
    let b ← elem s f rb
    let v ← finv (s.modulus f) b
    return .reg rd (fmul (s.modulus f) a v)

/-- `FDIVZ.f rd, ra, rb` (R121): 0 on a zero divisor. -/
def execFdivz (f : FieldSel) (rd ra rb : Idx) (s : State) : Host.Outcome State Fault Refusal :=
  conclude s do
    let a ← elem s f ra
    let b ← elem s f rb
    return .reg rd (fmul (s.modulus f) a (finvz (s.modulus f) b))

/-- `FPOW.f rd, ra, rb` (R123): the exponent is the raw register, not range checked. -/
def execFpow (f : FieldSel) (rd ra rb : Idx) (s : State) : Host.Outcome State Fault Refusal :=
  conclude s do
    let b ← elem s f ra
    return .reg rd (fpow (s.modulus f) b (rawReg s rb))

/-- `FLEG.f rd, ra` (R124). -/
def execFleg (f : FieldSel) (rd ra : Idx) (s : State) : Host.Outcome State Fault Refusal :=
  conclude s do
    let x ← elem s f ra
    return .reg rd (fleg (s.modulus f) x)

/-- What `FSQRT` commits for an outcome of `fsqrt_f` (R128). -/
def sqrtEffect (rd : Idx) : Option Nat → Effect
  | some v => .reg rd v
  | none => .absent

/-- `FSQRT.f rd, ra` (R128). -/
def execFsqrt (f : FieldSel) (rd ra : Idx) (s : State) : Host.Outcome State Fault Refusal :=
  conclude s do
    let x ← elem s f ra
    let v ← fsqrt (s.cfg.field f) x
    return sqrtEffect rd v

/-- `FSUM.f rd, ra, n` (R130). -/
def execFsum (f : FieldSel) (rd ra n : Idx) (s : State) : Host.Outcome State Fault Refusal :=
  conclude s do
    needRun ra n
    let v ← elemRun s f ra n
    return .reg rd (fsum (s.modulus f) v)

/-- `FPROD.f rd, ra, n` (R131). -/
def execFprod (f : FieldSel) (rd ra n : Idx) (s : State) : Host.Outcome State Fault Refusal :=
  conclude s do
    needRun ra n
    let v ← elemRun s f ra n
    return .reg rd (fprod (s.modulus f) v)

/-- `FDOT.f rd, ra, na, rb, nb` (R132): the length check comes before the bounds. -/
def execFdot (f : FieldSel) (rd ra na rb nb : Idx) (s : State) : Host.Outcome State Fault Refusal :=
  conclude s do
    needSameLength na nb
    needRun ra na
    needRun rb nb
    let u ← elemRun s f ra na
    let v ← elemRun s f rb nb
    return .reg rd (fdot (s.modulus f) u v)

end Sys2Proof.Machine
end

