-- ==== Sys2Proof/Machine/FieldCodec.lean ====
section
/-! DEFINITION. The field codecs, the CORE's loads and stores of single elements (spec 41_field_codec.md
R150 to R154). -/

namespace Sys2Proof.Machine

/-- What `FFROMB` commits for the bytes at `off` (R151): absent on a wrong length or a value that is out
of range, never reduced (90_conflicts.md C2). -/
def fromBytesEffect (s : State) (f : FieldSel) (rd : Idx) (off len : Nat) : Effect :=
  let bl := (s.cfg.field f).byteLen
  if len ≠ bl then .absent
  else
    let v := leInt (s.buf.readBytes off bl)
    if v < s.modulus f then .reg rd v else .absent

/-- `FFROMB.f rd, off, len` (R151). -/
def execFfromb (f : FieldSel) (rd : Idx) (off len : BitVec 8) (s : State) :
    Host.Outcome State Fault Refusal :=
  conclude s do
    needBytes off.toNat len.toNat
    return fromBytesEffect s f rd off.toNat len.toNat

/-- `FTOB.f rs, off` (R152). -/
def execFtob (f : FieldSel) (rs : Idx) (off : BitVec 8) (s : State) :
    Host.Outcome State Fault Refusal :=
  conclude s do
    needBytes off.toNat (s.cfg.field f).byteLen
    let v ← elem s f rs
    return .bytes off.toNat (leBytes v (s.cfg.field f).byteLen)

/-- `FENT.f rd, off, len` (R153): any length, reduced modulo `p`, never absent. -/
def execFent (f : FieldSel) (rd : Idx) (off len : BitVec 8) (s : State) :
    Host.Outcome State Fault Refusal :=
  conclude s do
    needBytes off.toNat len.toNat
    return .reg rd (leInt (s.buf.readBytes off.toNat len.toNat) % s.modulus f)

end Sys2Proof.Machine
end

