-- ==== Sys2Proof/Machine/System.lean ====
section
/-! DEFINITION. The system and data-movement commands (spec 44_system.md R200 to R205). -/

namespace Sys2Proof.Machine

/-- `NOP` (R200). -/
def execNop (s : State) : Host.Outcome State Fault Refusal := conclude s (.ok .nothing)

/-- `ZEROIZE` (R201). -/
def execZeroize (s : State) : Host.Outcome State Fault Refusal := conclude s (.ok .zeroize)

/-- `MOV rd, ra` (R202): the raw value, unchecked. -/
def execMov (rd ra : Idx) (s : State) : Host.Outcome State Fault Refusal :=
  conclude s (.ok (.reg rd (rawReg s ra)))

/-- `PMOV Pd, Pa` (R203): the raw pair, both registers read before either is written. -/
def execPmov (d a : Idx) (s : State) : Host.Outcome State Fault Refusal :=
  conclude s do
    needPoint d
    needPoint a
    return .point d (rawPoint s a)

/-- The value of a constant of `LDC` (R204). -/
def constValue (c : Cfg) (f : FieldSel) : ConstId → Nat
  | .zero => 0
  | .one => 1
  | .nonres => (c.field f).nr
  | .curveA => c.curveA
  | .curveD => c.curveD
  | .subOrder => c.subOrder
  | .cofactor => c.cofactor

/-- The pair of a constant of `PLDC` (R205). -/
def pointConstValue (c : Cfg) : PointConstId → Point
  | .neutral => neutral
  | .gen => c.gen
  | .base => c.base

/-- `LDC.f rd, NAME` (R204). A curve constant with `F = 1` is `E_ILLEGAL`; the decoder already refuses
such a word (log entry 13). -/
def execLdc (f : FieldSel) (rd : Idx) (cid : ConstId) (s : State) : Host.Outcome State Fault Refusal :=
  conclude s (if cid.allows f then .ok (.reg rd (constValue s.cfg f cid)) else .error .illegal)

/-- `PLDC Pd, NAME` (R205). -/
def execPldc (d : Idx) (cid : PointConstId) (s : State) : Host.Outcome State Fault Refusal :=
  conclude s do
    needPoint d
    return .point d (pointConstValue s.cfg cid)

end Sys2Proof.Machine
end

