-- ==== Sys2Proof/Machine/Dispatch.lean ====
section
/-! DEFINITION. The meaning of a decoded command: the whole engine step after decoding (spec
30_encoding.md R84, steps 2 to 7), one arm per command. -/

namespace Sys2Proof.Machine

def exec (i : Instr) (s : State) : Host.Outcome State Fault Refusal :=
  match i with
  -- 44_system.md
  | .nop => Sys2Proof.Machine.execNop s
  | .zeroize => Sys2Proof.Machine.execZeroize s
  | .mov rd ra => Sys2Proof.Machine.execMov rd ra s
  | .pmov d a => Sys2Proof.Machine.execPmov d a s
  | .ldc f rd cid => Sys2Proof.Machine.execLdc f rd cid s
  | .pldc d cid => Sys2Proof.Machine.execPldc d cid s
  -- 40_field_arith.md
  | .fadd f rd ra rb => Sys2Proof.Machine.execFadd f rd ra rb s
  | .fsub f rd ra rb => Sys2Proof.Machine.execFsub f rd ra rb s
  | .fneg f rd ra => Sys2Proof.Machine.execFneg f rd ra s
  | .fmul f rd ra rb => Sys2Proof.Machine.execFmul f rd ra rb s
  | .fsqr f rd ra => Sys2Proof.Machine.execFsqr f rd ra s
  | .finv f rd ra => Sys2Proof.Machine.execFinv f rd ra s
  | .finvz f rd ra => Sys2Proof.Machine.execFinvz f rd ra s
  | .fdiv f rd ra rb => Sys2Proof.Machine.execFdiv f rd ra rb s
  | .fdivz f rd ra rb => Sys2Proof.Machine.execFdivz f rd ra rb s
  | .fpow f rd ra rb => Sys2Proof.Machine.execFpow f rd ra rb s
  | .fleg f rd ra => Sys2Proof.Machine.execFleg f rd ra s
  | .fsqrt f rd ra => Sys2Proof.Machine.execFsqrt f rd ra s
  | .fsum f rd ra n => Sys2Proof.Machine.execFsum f rd ra n s
  | .fprod f rd ra n => Sys2Proof.Machine.execFprod f rd ra n s
  | .fdot f rd ra na rb nb => Sys2Proof.Machine.execFdot f rd ra na rb nb s
  -- 41_field_codec.md
  | .ffromb f rd off len => Sys2Proof.Machine.execFfromb f rd off len s
  | .ftob f rs off => Sys2Proof.Machine.execFtob f rs off s
  | .fent f rd off len => Sys2Proof.Machine.execFent f rd off len s
  -- 43_curve_codec.md
  | .pfromb d off len => Sys2Proof.Machine.execPfromb d off len s
  | .ptob src off => Sys2Proof.Machine.execPtob src off s
  -- 42_curve.md
  | .padd d a b => Sys2Proof.Machine.execPadd d a b s
  | .pdbl d a => Sys2Proof.Machine.execPdbl d a s
  | .pneg d a => Sys2Proof.Machine.execPneg d a s
  | .ponc a => Sys2Proof.Machine.execPonc a s
  | .pinsg a => Sys2Proof.Machine.execPinsg a s
  | .smul d a rb => Sys2Proof.Machine.execSmul d a rb s
  | .smulvt d a rb => Sys2Proof.Machine.execSmulvt d a rb s

end Sys2Proof.Machine
end

