-- ==== Sys2Proof/Machine/Engine.lean ====
section
/-! DEFINITION. The engine step (spec 30_encoding.md R84), whole: decode, then the command's meaning. -/

namespace Sys2Proof.Machine

/-- The engine step, enabled when `BUSY = 1` (30_encoding.md R84): decode the word in `CMD`, raise
`E_ILLEGAL` (R90) or run the command. -/
def engineStep (s : State) : Host.Outcome State Fault Refusal :=
  match decode s.cmd with
  | .error _ => .next (raiseError .illegal s)
  | .ok i => exec i s

end Sys2Proof.Machine
end

