-- ==== Sys2Proof/Machine/Flags.lean ====
section
/-! DEFINITION. `STATUS` as the host reads it: the word of 10_state.md R26 computed from the flags, bits
7:5 and 31:16 reserved and 0 (20_memory.md R60). How a command sets the flags is in Machine/Ops.lean
(`finish`, `raiseError`) and how acceptance clears them in Machine/HostAccess.lean. -/

namespace Sys2Proof.Machine

/-- A flag at a bit of `STATUS`. -/
def flagAt (b : Bool) (pos : Nat) : Nat := b.toNat * 2 ^ pos

/-- `STATUS` (10_state.md R26). -/
def State.statusWord (s : State) : Word :=
  BitVec.ofNat 32
    (flagAt s.busy 0 + flagAt s.done 1 + flagAt s.err 2 + flagAt s.absent 3 + flagAt s.boolRes 4
      + s.errCode.toNat * 2 ^ 8)

end Sys2Proof.Machine
end

