-- ==== Sys2Proof/Machine/HostAccess.lean ====
section
/-! DEFINITION. What the host does to the CORE: reads, writes and the hard reset (spec 20_memory.md R50 to
R64, 10_state.md R25 to R31, 70_reset_and_hazards.md R260, R263). No access raises an error (R220). -/

namespace Sys2Proof.Machine

/-- What an address of the host space names (20_memory.md R51), by the number of its 32-bit word. -/
inductive HostTarget where
  | cmd
  | status
  | ctrl
  /-- The window word at host offset `0x100 + 4*w`. -/
  | window (w : Nat)
  | unmapped
  deriving DecidableEq, Repr

/-- The host address map (R51). The two low address bits are not decoded (R56). -/
def hostTarget (off : BitVec 10) : HostTarget :=
  let n := off.toNat / 4
  if n = 0 then .cmd
  else if n = 1 then .status
  else if n = 2 then .ctrl
  else if 64 ≤ n ∧ n < 128 then .window (n - 64)
  else .unmapped

/-- A window word: `BUF[4*w + j]` in bits `8*j+7 : 8*j` (R55). -/
def windowWord (m : Memory) (w : Nat) : Word := BitVec.ofNat 32 (leInt (m.readBytes (4 * w) 4))

/-- `HostRead(off)`: the word it returns (R52, R59, R60, R62, 10_state.md R31). It changes nothing (R56). -/
def hostRead (s : State) (off : BitVec 10) : Word :=
  match hostTarget off with
  | .cmd => s.cmd
  | .status => s.statusWord
  | .ctrl => 0
  | .window w => if s.busy then 0 else windowWord s.buf w
  | .unmapped => 0

/-- Command acceptance (R58), once its conditions hold. -/
def accept (s : State) (data : Word) : State :=
  { s with cmd := data, busy := true, done := false, absent := false, boolRes := false }

/-- A write to `CMD` (R57, R58): accepted with all four strobes, not busy, no error latched; otherwise
lost without trace. -/
def writeCmd (s : State) (data : Word) (strb : BitVec 4) : State :=
  if strb = 0b1111 ∧ s.busy = false ∧ s.err = false then accept s data else s

/-- A write to `CTRL` (R57, R61, 10_state.md R31): `SRST` before `CLRERR`, nothing while busy. -/
def writeCtrl (s : State) (data : Word) (strb : BitVec 4) : State :=
  if strb.getLsbD 0 = false ∨ s.busy = true then s
  else if data.getLsbD 0 then resetCore s
  else if data.getLsbD 1 then clearError s
  else s

/-- Byte lane `j` of a host word (R57). -/
def lane (data : Word) (j : Nat) : Byte := data.extractLsb' (8 * j) 8

/-- The bytes of a window write whose strobe is 1 (R57, R63), lane by lane. -/
def writeLanes (m : Memory) (w : Nat) (data : Word) (strb : BitVec 4) : Memory :=
  (List.range 4).foldl
    (fun m j => if strb.getLsbD j then m.write (4 * w + j) (lane data j) else m) m

/-- A write to a window word (R63): nothing while busy; allowed while an error is latched. -/
def writeWindow (s : State) (w : Nat) (data : Word) (strb : BitVec 4) : State :=
  if s.busy then s else { s with buf := writeLanes s.buf w data strb }

/-- `HostWrite(off, data, strb)` (R57). `STATUS` and unmapped words ignore it (10_state.md R26, R52). -/
def hostWrite (s : State) (off : BitVec 10) (data : Word) (strb : BitVec 4) : State :=
  match hostTarget off with
  | .cmd => writeCmd s data strb
  | .status => s
  | .ctrl => writeCtrl s data strb
  | .window w => writeWindow s w data strb
  | .unmapped => s

/-- One action of the outside. A read's word goes to the host (the model's `replies`, log entry 3). The
hard reset acts at any time, also while busy (70_reset_and_hazards.md R260). -/
def hostAct (s : State) : HostAct → State
  | .read off => { s with replies := hostRead s off :: s.replies }
  | .write off data strb => hostWrite s off data strb
  | .hardReset => resetCore s

end Sys2Proof.Machine
end

