-- ==== Sys2Proof/Machine/Step.lean ====
section
/-! DEFINITION. One step of the whole machine: the engine step (spec 30_encoding.md R84) or one action of
the host (20_memory.md R67), or nothing when neither has anything to do. -/

namespace Sys2Proof.Machine

/-- One step. A pending command runs when the host has nothing to do first; otherwise the host's next
action happens (log entry 2); an idle CORE waits (60_exceptions.md R233, 70_reset_and_hazards.md R261,
log entry 4). -/
def step (s : State) : Host.Outcome State Fault Refusal :=
  match s.inbox with
  | [] => if s.busy then engineStep s else .next s
  | a :: rest =>
    if s.busy && !a.early then engineStep s else .next (hostAct { s with inbox := rest } a.act)

/-- `s` with a command word just accepted (20_memory.md R58) and no host action before the engine step,
so that the very next step runs it. The CORE fetches no instruction (10_state.md R24): this stands for
the host's accepted write to `CMD` (log entry 14). -/
def State.withFetchWord (s : State) (nbits w : Nat) : State :=
  { accept s (BitVec.ofNat 32 (w % 2 ^ nbits)) with inbox := [] }

end Sys2Proof.Machine
end

