-- ==== Sys2Proof/Machine/CfgOk.lean ====
section
/-! DEFINITION. `CfgOK`, the premise of 00_scope.md R7, clause by clause. The CORE verifies none of it
(the construction check of R8 is apart, Machine/State.lean `constructOk`). -/

namespace Sys2Proof.Machine

/-- Clauses 1 to 3 of R7 for one field. -/
structure FieldOk (f : FieldCfg) : Prop where
  /-- Clause 1: an odd prime. -/
  prime : f.p.Prime
  odd : f.p ≠ 2
  /-- Clause 2: `k >= 1` is the exact 2-adicity of `p - 1`. -/
  one_le_k : 1 ≤ f.k
  dvd : 2 ^ f.k ∣ f.p - 1
  exact : ¬ 2 ^ (f.k + 1) ∣ f.p - 1
  /-- Clause 3: `nr` is a member of the field and a quadratic nonresidue. -/
  nr_lt : f.nr < f.p
  nonresidue : f.nr ^ ((f.p - 1) / 2) % f.p = f.p - 1

/-- Clause 6 of R7: the sizes. -/
structure SizesOk (c : Cfg) : Prop where
  mult8 : 8 ∣ c.regw
  bf_fits : 8 * c.bf.byteLen ≤ c.regw
  sf_fits : 8 * c.sf.byteLen ≤ c.regw
  subOrder_fits : c.subOrder < 2 ^ c.regw
  cofactor_fits : c.cofactor < 2 ^ c.regw
  pointLen_le : c.pointLen ≤ 255

/-- `CfgOK` (R7). In clause 5 "`n` times `P` under the group law" is read as the value of `ladder_vt`
(R173): DESIGN CHOICE, log entry 12, safe where the addition law has no exceptional point, since
every evaluation order then gives the same multiple. -/
structure CfgOk (c : Cfg) : Prop where
  bfOk : FieldOk c.bf
  sfOk : FieldOk c.sf
  /-- Clause 4. -/
  a_lt : c.curveA < c.bf.p
  d_lt : c.curveD < c.bf.p
  gen_lt : c.gen.x < c.bf.p ∧ c.gen.y < c.bf.p
  base_lt : c.base.x < c.bf.p ∧ c.base.y < c.bf.p
  /-- Clause 5. -/
  gen_on : oncurve c c.gen = true
  base_on : oncurve c c.base = true
  base_eq : ladderVt c c.gen c.cofactor = .ok c.base
  subOrder_prime : c.subOrder.Prime
  base_order : ladderVt c c.base c.subOrder = .ok neutral
  /-- Clause 6. -/
  sizes : SizesOk c

end Sys2Proof.Machine
end

