-- ==== Sys2Proof/Safety.lean ====
section
/-! DEFINITION. What a sound state of the CORE is, in the terms that claims use: the invariant that every
step keeps, and the premise under which no step stops. -/

namespace Sys2Proof.Machine

/-- What holds of the CORE's state after reset and after every step. -/
structure StateOk (s : State) : Prop where
  /-- The buffer is in canonical form, inside its 256 bytes (10_state.md R32). -/
  buf_wf : s.buf.wf
  /-- Every element register holds a natural in `[0, 2^REGW)` (R21). -/
  regs_fit : ∀ n, n < 16 → s.reg n < 2 ^ s.cfg.regw
  /-- "`BUSY = 1` and `DONE = 1` never hold together" (R27); acceptance cleared the flags and needed
  `ERR = 0` (R27, 20_memory.md R58). -/
  busy_clean : s.busy = true →
    s.done = false ∧ s.absent = false ∧ s.boolRes = false ∧ s.err = false
  /-- `ERRCODE = 0` exactly when `ERR = 0` (R30). -/
  err_code : s.err = false ↔ s.errCode = 0
  /-- `ERRCODE` is 0 or one of the codes of 60_exceptions.md R221. -/
  code_known : s.errCode = 0 ∨ ∃ e : ErrKind, s.errCode = e.code
  /-- `E_CONSTRUCT` is latched exactly in a build whose construction check fails (R234). -/
  construct_code : s.errCode = ErrKind.code .construct ↔ constructOk s.cfg = false
  /-- `ABSENT` and `BOOL` never hold together, and neither with `ERR` (R28, R29, 60_exceptions.md R224). -/
  flags_apart : (s.absent && s.boolRes) = false ∧ (s.err && (s.absent || s.boolRes)) = false
  /-- A CORE that is not busy and has completed nothing since reset shows `CMD = 0` and no result
  (R26, R35). -/
  idle_fresh : s.busy = false → s.done = false →
    s.cmd = 0 ∧ s.absent = false ∧ s.boolRes = false

/-! ### What a claim says of one step: the frame in named parts -/

/-- Every element register but those listed reads as before. -/
def RegsKept (s t : State) (written : List Nat) : Prop :=
  ∀ n, n < 16 → n ∉ written → t.reg n = s.reg n

/-- Every buffer byte outside `off .. off + len - 1` reads as before. -/
def BufKeptOutside (s t : State) (off len : Nat) : Prop :=
  ∀ a, (a < off ∨ off + len ≤ a) → t.buf.read a = s.buf.read a

/-- Every buffer byte reads as before. -/
def BufKept (s t : State) : Prop := ∀ a, t.buf.read a = s.buf.read a

/-- Nothing of the host's side moved: the build, the plans, the replies, and `CMD` (30_encoding.md R84
changes none of them). -/
structure EngineFrame (s t : State) : Prop where
  cfg : t.cfg = s.cfg
  cmd : t.cmd = s.cmd
  inbox : t.inbox = s.inbox
  replies : t.replies = s.replies

/-- A completion without error (R84 step 7, 10_state.md R27 to R30): the handshake, the two result flags,
and the error latch as it was. -/
structure Completes (s t : State) (absent boolRes : Bool) : Prop where
  frame : EngineFrame s t
  busy : t.busy = false
  done : t.done = true
  absent : t.absent = absent
  boolRes : t.boolRes = boolRes
  err : t.err = s.err
  errCode : t.errCode = s.errCode

/-- A completion that writes one element register and nothing else. -/
structure WritesReg (s t : State) (rd v : Nat) : Prop where
  completes : Completes s t false false
  written : t.reg rd = v
  regs : RegsKept s t [rd]
  buf : BufKept s t

/-- A completion that writes the register pair of a point operand and nothing else. -/
structure WritesPoint (s t : State) (d : Nat) (P : Point) : Prop where
  completes : Completes s t false false
  x : t.reg d = P.x
  y : t.reg (d + 1) = P.y
  regs : RegsKept s t [d, d + 1]
  buf : BufKept s t

/-- A completion that writes a Boolean result and nothing else (10_state.md R29). -/
structure WritesBool (s t : State) (b : Bool) : Prop where
  completes : Completes s t false b
  regs : RegsKept s t []
  buf : BufKept s t

/-- A completion with the absent result (10_state.md R28). -/
structure EndsAbsent (s t : State) : Prop where
  completes : Completes s t true false
  regs : RegsKept s t []
  buf : BufKept s t

/-- Error entry (60_exceptions.md R224): the latch and the flags, and no register and no buffer byte. -/
structure Raised (s t : State) (e : ErrKind) : Prop where
  frame : EngineFrame s t
  err : t.err = true
  errCode : t.errCode = e.code
  absent : t.absent = false
  boolRes : t.boolRes = false
  busy : t.busy = false
  done : t.done = true
  regs : RegsKept s t []
  buf : BufKept s t

/-- The reset values of 10_state.md R35 with the construction check of 70_reset_and_hazards.md R262, in
the build that the state belongs to. -/
structure IsResetState (t : State) : Prop where
  regs : ∀ n, n < 16 → t.reg n = 0
  buf : ∀ a, t.buf.read a = 0
  cmd : t.cmd = 0
  busy : t.busy = false
  done : t.done = false
  absent : t.absent = false
  boolRes : t.boolRes = false
  err : t.err = true ↔ t.cfg.cofactor * t.cfg.subOrder ≠ t.cfg.order
  errCode : t.errCode = if t.cfg.cofactor * t.cfg.subOrder = t.cfg.order then 0x00 else 0x03

/-- The column "Raised by" of 60_exceptions.md R221: which commands may raise which error. Any word may
be illegal; `E_CONSTRUCT` is reset's alone. -/
def mayRaise (i : Instr) : ErrKind → Bool
  | .divZero =>
    match i with
    | .finv _ _ _ | .fdiv _ _ _ _ | .padd _ _ _ | .pdbl _ _ | .smul _ _ _ | .smulvt _ _ _
    | .pinsg _ => true
    | _ => false
  | .length =>
    match i with
    | .fdot _ _ _ _ _ _ => true
    | _ => false
  | .construct => false
  | .internal =>
    match i with
    | .fsqrt _ _ _ => true
    | _ => false
  | .illegal => true
  | .range =>
    match i with
    | .nop | .zeroize | .mov _ _ | .pmov _ _ | .ldc _ _ _ | .pldc _ _ => false
    | .ffromb _ _ _ _ | .fent _ _ _ _ | .pfromb _ _ _ => false
    | _ => true
  | .bounds =>
    match i with
    | .pmov _ _ | .pldc _ _ | .fsum _ _ _ _ | .fprod _ _ _ _ | .fdot _ _ _ _ _ _ => true
    | .ffromb _ _ _ _ | .ftob _ _ _ | .fent _ _ _ _ | .pfromb _ _ _ | .ptob _ _ => true
    | .padd _ _ _ | .pdbl _ _ | .pneg _ _ | .ponc _ | .pinsg _ | .smul _ _ _ | .smulvt _ _ _ => true
    | _ => false

/-! ### Words the opcode table admits (30_encoding.md R89, R90) -/

/-- The `mask` and `match` values of opcode_table.json, row by row: a word `w` selects a row when
`w & mask = match` (R89). -/
def opcodeTable : List (Word × Word) :=
  [(0xFFFFFFFF, 0x01000000), (0xFFFFFFFF, 0x02000000), (0xFFF00FFF, 0x04000000),
   (0xFFF00FFF, 0x05000000), (0xFF70FF00, 0x06000000), (0xFFF0FF00, 0x07000000),
   (0xFF7000FF, 0x10000000), (0xFF7000FF, 0x11000000), (0xFF700FFF, 0x12000000),
   (0xFF7000FF, 0x13000000), (0xFF700FFF, 0x14000000), (0xFF700FFF, 0x15000000),
   (0xFF700FFF, 0x16000000), (0xFF7000FF, 0x17000000), (0xFF7000FF, 0x18000000),
   (0xFF7000FF, 0x19000000), (0xFF700FFF, 0x1A000000), (0xFF700FFF, 0x1B000000),
   (0xFF700F0F, 0x1C000000), (0xFF700F0F, 0x1D000000), (0xFF700000, 0x1E000000),
   (0xFF700000, 0x20000000), (0xFF7000FF, 0x21000000), (0xFF700000, 0x22000000),
   (0xFFF00000, 0x28000000), (0xFFF000FF, 0x29000000), (0xFFF000FF, 0x30000000),
   (0xFFF00FFF, 0x31000000), (0xFFF00FFF, 0x32000000), (0xFFFF0FFF, 0x33000000),
   (0xFFFF0FFF, 0x34000000), (0xFFF000FF, 0x35000000), (0xFFF000FF, 0x36000000)]

/-- The `CID` check that R89 and R90 add to the rows of `LDC` (`OP = 0x06`) and `PLDC` (`OP = 0x07`). -/
def cidOk (w : Word) : Prop :=
  (w.extractLsb' 24 8 = 0x06 →
    w.extractLsb' 0 8 ≤ 6#8 ∧ (w.getLsbD 23 = true → w.extractLsb' 0 8 ≤ 2#8)) ∧
  (w.extractLsb' 24 8 = 0x07 → w.extractLsb' 0 8 ≤ 2#8)

/-- A legal command word: it selects a row and passes the `CID` check (R89, R90). -/
def LegalWord (w : Word) : Prop := (∃ row ∈ opcodeTable, w &&& row.1 = row.2) ∧ cidOk w

/-! ### The denominators of the addition law (42_curve.md R166) -/

/-- One of the two denominators of the addition law is 0 in the base field, so that its division raises
`E_DIVZERO` (42_curve.md R162, R166). -/
def DenominatorZero (c : Cfg) (P Q : Point) : Prop :=
  (1 + c.curveD * P.x * Q.x * P.y * Q.y) % c.bf.p = 0 ∨
    c.curveD * P.x * Q.x * P.y * Q.y % c.bf.p = 1

/-- The engine moves next: a command is pending and the host has nothing that comes first (log entry 2). -/
def EngineTurn (s : State) : Prop :=
  s.busy = true ∧ (s.inbox = [] ∨ ∃ a rest, s.inbox = a :: rest ∧ a.early = false)

end Sys2Proof.Machine
end

