-- ==== Sys2Proof/Certificates/Slice0/Obligations.lean ====
section
/-! DEFINITION. The statements for the provers. Each docstring names the rule of spec/ it comes from. The
predicates `Completes`, `WritesReg`, `WritesPoint`, `WritesBool`, `EndsAbsent`, `Raised` and
`IsResetState` are in Safety.lean; each says the whole frame: every register, every buffer byte, every
flag, the error latch, `CMD`, the build, and the host's side. -/

open Sys2Proof Sys2Proof.Machine

/-! ### Encoding (30_encoding.md) -/

/-- R80 to R83: decoding the word of a well-formed command gives it back, with every operand at every
value. -/
def Obligations.DecodeOfEncode : Prop :=
  ∀ i : Instr, i.wellFormed = true → decode (encode i) = .ok i

/-- R81, R82, R90: each legal word has one meaning; a word that decodes is the word of what it decodes
to, so no bit of it is ignored. -/
def Obligations.EncodeOfDecode : Prop :=
  ∀ (w : Word) (i : Instr), decode w = .ok i → i.wellFormed = true ∧ encode i = w

/-- R93: the example words of the assembler section. -/
def Obligations.DecodeExampleWords : Prop :=
  decode 0x10031200 = .ok (.fadd .bf 3 1 2) ∧
  decode 0x10831200 = .ok (.fadd .sf 3 1 2) ∧
  decode 0x1B054000 = .ok (.fsqrt .bf 5 4) ∧
  decode 0x1E090433 = .ok (.fdot .bf 9 0 3 4 3) ∧
  decode 0x20011002 = .ok (.ffromb .bf 1 0x10 2) ∧
  decode 0x21872000 = .ok (.ftob .sf 7 0x20) ∧
  decode 0x35042000 = .ok (.smul 4 2 0) ∧
  decode 0x07020002 = .ok (.pldc 2 .base) ∧
  decode 0x02000000 = .ok .zeroize

/-- R89: a word decodes exactly when it selects a row of the opcode table by `w & mask = match` and
passes the `CID` check of `LDC` and `PLDC`. -/
def Obligations.DecodeAgreesWithOpcodeTable : Prop :=
  ∀ w : Word, (∃ i, decode w = .ok i) ↔ LegalWord w

/-- R90: the engine step on an illegal word enters `E_ILLEGAL` and has no other effect. Whose
turn it is comes from the model's inbox (log entry 2). -/
def Obligations.IllegalWordRaisesIllegal : Prop :=
  ∀ s : State, EngineTurn s → ¬ LegalWord s.cmd →
    ∃ t, Sys2Proof.Machine.step s = .next t ∧ Raised s t .illegal

/-! ### The step (30_encoding.md R84, 20_memory.md R67) -/

/-- R84, R67: on the engine's turn the step runs the command that `CMD` decodes to; on the host's turn it
is the host's next action; with nothing to do it waits (log entries 2 and 4). -/
def Obligations.StepRunsDecodedCommand : Prop :=
  ∀ s : State,
    (∀ i, EngineTurn s → decode s.cmd = .ok i →
      Sys2Proof.Machine.step s = Sys2Proof.Machine.exec i s) ∧
    (∀ a rest, s.inbox = a :: rest → (s.busy = false ∨ a.early = true) →
      Sys2Proof.Machine.step s = .next (hostAct { s with inbox := rest } a.act)) ∧
    (s.inbox = [] → s.busy = false → Sys2Proof.Machine.step s = .next s)

/-- R84 step 7, R27, R224, R226, R221: every command that answers a next state has completed (`BUSY = 0`,
`DONE = 1`), and either leaves the error latch alone or enters one of the errors that the table of
R221 lists for it, having changed no register and no buffer byte. -/
def Obligations.EveryCommandCompletesOrRaises : Prop :=
  ∀ (i : Instr) (s t : State), Sys2Proof.Machine.exec i s = .next t →
    EngineFrame s t ∧ t.busy = false ∧ t.done = true ∧
    ((t.err = s.err ∧ t.errCode = s.errCode) ∨ ∃ e, mayRaise i e = true ∧ Raised s t e)

/-- R28: only `FSQRT`, `FFROMB` and `PFROMB` can end absent; such a command writes no register and no
buffer byte and raises nothing. -/
def Obligations.AbsentOnlyFromThreeCommands : Prop :=
  ∀ (i : Instr) (s t : State), Sys2Proof.Machine.exec i s = .next t → t.absent = true →
    EndsAbsent s t ∧
    ((∃ f rd ra, i = .fsqrt f rd ra) ∨ (∃ f rd off len, i = .ffromb f rd off len) ∨
      (∃ d off len, i = .pfromb d off len))

/-- R29: only `PONC` and `PINSG` can leave `BOOL = 1`; they write nothing else. -/
def Obligations.BoolOnlyFromPredicates : Prop :=
  ∀ (i : Instr) (s t : State), Sys2Proof.Machine.exec i s = .next t → t.boolRes = true →
    WritesBool s t true ∧ ((∃ a, i = .ponc a) ∨ (∃ a, i = .pinsg a))

/-! ### Invariants and safety -/

/-- The invariant of Safety.lean holds in the reset state of every build (R35, R262). -/
def Obligations.ResetMeetsInvariant : Prop := ∀ c : Cfg, StateOk (State.resetOf c)

/-- Every step from a state with the invariant leads to one with it: canonical buffer, registers inside
`REGW` bits (R21), the handshake (R27), the latch and its codes (R30, R221, R234). The build and
the inbox as fields of State are the model's choices (log entries 1 and 2). -/
def Obligations.StepKeepsInvariant : Prop :=
  ∀ s t : State, StateOk s → Sys2Proof.Machine.step s = .next t → StateOk t ∧ t.cfg = s.cfg

/-- R13, R84: under `CfgOK` and the invariant no step faults or is refused; every command ends. `CfgOK` is
read with log entry 12. -/
def Obligations.NoStopUnderCfgOk : Prop :=
  ∀ s : State, CfgOk s.cfg → StateOk s → ∃ t, Sys2Proof.Machine.step s = .next t

/-- R234: a build whose construction check fails comes out of reset with `E_CONSTRUCT`, and from then on it
never accepts a command and never leaves `E_CONSTRUCT`, whatever the host does (each step keeps it). -/
def Obligations.BadBuildNeverAccepts : Prop :=
  (∀ c : Cfg, c.cofactor * c.subOrder ≠ c.order →
    StateOk (State.resetOf c) ∧ (State.resetOf c).err = true ∧ (State.resetOf c).errCode = 0x03) ∧
  ∀ s t : State, StateOk s → s.cfg.cofactor * s.cfg.subOrder ≠ s.cfg.order →
    Sys2Proof.Machine.step s = .next t →
    StateOk t ∧ t.cfg = s.cfg ∧ t.busy = false ∧ t.err = true ∧ t.errCode = 0x03

/-- R227, R58: while `ERR = 1` a sequence of `CMD` writes has no effect at all, however long it runs: the
state is the one it started from but for the host's actions that remain. The writes come from the
inbox, and a run longer than the inbox ends in idle steps (the model's choices, log entries 2 and 4). -/
def Obligations.LatchedErrorFailsFast : Prop :=
  ∀ (n : Nat) (s t : State), StateOk s → s.err = true →
    (∀ a ∈ s.inbox, ∃ off data strb, a.act = .write off data strb ∧ off.toNat < 4) →
    Host.Core.run Sys2Proof.core n s = .next t →
    t = { s with inbox := t.inbox }

/-! ### Host accesses and reset (20_memory.md, 60_exceptions.md, 70_reset_and_hazards.md) -/

/-- R35, R260, R261, R262, R263: the values after a hard reset, after a soft reset that is performed, and
in the model's reset state of each build; the build stays. -/
def Obligations.ResetsLeaveResetValues : Prop :=
  (∀ c : Cfg, IsResetState (State.resetOf c) ∧ (State.resetOf c).cfg = c) ∧
  (∀ s : State, IsResetState (hostAct s .hardReset) ∧ (hostAct s .hardReset).cfg = s.cfg) ∧
  (∀ (s : State) (off : BitVec 10) (data : Word) (strb : BitVec 4),
    off.toNat / 4 = 2 → s.busy = false → strb.getLsbD 0 = true → data.getLsbD 0 = true →
    IsResetState (hostWrite s off data strb) ∧ (hostWrite s off data strb).cfg = s.cfg)

/-- R58: a `CMD` write is accepted exactly when `BUSY = 0`, `ERR = 0` and all four strobes are set;
otherwise no state changes at all. -/
def Obligations.CmdWriteAcceptsOrIsLost : Prop :=
  ∀ (s : State) (off : BitVec 10) (data : Word) (strb : BitVec 4), off.toNat < 4 →
    (s.busy = false ∧ s.err = false ∧ strb = 0b1111 →
      hostWrite s off data strb =
        { s with cmd := data, busy := true, done := false, absent := false, boolRes := false }) ∧
    (¬ (s.busy = false ∧ s.err = false ∧ strb = 0b1111) → hostWrite s off data strb = s)

/-- R61, R228: a `CTRL` write is lost while `BUSY = 1` and without strobe 0; bit 0 resets; bit 1 alone
clears the latch unless it holds `E_CONSTRUCT`; nothing else happens. That a reset leaves the host's
actions to come and the words the host has read (`inbox`, `replies`) is the model's choice (log
entries 2, 3 and 18). -/
def Obligations.CtrlWriteResetsOrClearsLatch : Prop :=
  ∀ (s : State) (off : BitVec 10) (data : Word) (strb : BitVec 4), off.toNat / 4 = 2 →
    (s.busy = true ∨ strb.getLsbD 0 = false → hostWrite s off data strb = s) ∧
    (s.busy = false → strb.getLsbD 0 = true →
      (data.getLsbD 0 = true →
        IsResetState (hostWrite s off data strb) ∧
        (hostWrite s off data strb).cfg = s.cfg ∧
        (hostWrite s off data strb).inbox = s.inbox ∧
        (hostWrite s off data strb).replies = s.replies) ∧
      (data.getLsbD 0 = false → data.getLsbD 1 = true →
        (s.err = true ∧ s.errCode ≠ 0x03 →
          hostWrite s off data strb = { s with err := false, errCode := 0x00 }) ∧
        (¬ (s.err = true ∧ s.errCode ≠ 0x03) → hostWrite s off data strb = s)) ∧
      (data.getLsbD 0 = false → data.getLsbD 1 = false → hostWrite s off data strb = s))

/-- R55, R62, R63: a window word has `BUF[4w + j]` in lane `j`; a write stores exactly the strobed bytes;
while `BUSY = 1` a read gives 0 and a write is lost. -/
def Obligations.WindowAccess : Prop :=
  ∀ (s : State) (off : BitVec 10) (data : Word) (strb : BitVec 4), s.buf.wf →
    64 ≤ off.toNat / 4 → off.toNat / 4 < 128 →
    (s.busy = true → hostRead s off = 0 ∧ hostWrite s off data strb = s) ∧
    (s.busy = false →
      (∀ j, j < 4 →
        (hostRead s off).extractLsb' (8 * j) 8 = s.buf.read (4 * (off.toNat / 4 - 64) + j)) ∧
      (∃ m : Memory, hostWrite s off data strb = { s with buf := m } ∧
        ∀ a, m.read a =
          if a / 4 = off.toNat / 4 - 64 ∧ strb.getLsbD (a % 4) = true
          then data.extractLsb' (8 * (a % 4)) 8 else s.buf.read a))

/-- R26, R60: the bits of a `STATUS` read; while `BUSY = 1` it reads `0x00000001`. -/
def Obligations.StatusReadBits : Prop :=
  ∀ (s : State) (off : BitVec 10), off.toNat / 4 = 1 →
    (hostRead s off).getLsbD 0 = s.busy ∧
    (hostRead s off).getLsbD 1 = s.done ∧
    (hostRead s off).getLsbD 2 = s.err ∧
    (hostRead s off).getLsbD 3 = s.absent ∧
    (hostRead s off).getLsbD 4 = s.boolRes ∧
    (hostRead s off).extractLsb' 5 3 = 0 ∧
    (hostRead s off).extractLsb' 8 8 = s.errCode ∧
    (hostRead s off).extractLsb' 16 16 = 0 ∧
    (StateOk s → s.busy = true → hostRead s off = 0x00000001)

/-- R52, R59, R26, R31, R56: `CMD` reads back, `CTRL` and unmapped words read 0, writes to `STATUS` and to
unmapped words change nothing, the two low address bits are not decoded, and a read changes nothing of
the CORE. That the returned word is recorded for the host in `replies` is the model's choice (log
entry 3). -/
def Obligations.ReadsAndIgnoredWrites : Prop :=
  ∀ (s : State) (off : BitVec 10) (data : Word) (strb : BitVec 4),
    (off.toNat / 4 = 0 → hostRead s off = s.cmd) ∧
    (off.toNat / 4 = 2 → hostRead s off = 0) ∧
    (3 ≤ off.toNat / 4 ∧ off.toNat / 4 < 64 ∨ 128 ≤ off.toNat / 4 →
      hostRead s off = 0 ∧ hostWrite s off data strb = s) ∧
    (off.toNat / 4 = 1 → hostWrite s off data strb = s) ∧
    (∀ off' : BitVec 10, off'.toNat / 4 = off.toNat / 4 →
      hostRead s off' = hostRead s off ∧ hostWrite s off' data strb = hostWrite s off data strb) ∧
    hostAct s (.read off) = { s with replies := hostRead s off :: s.replies }

/-- R21: the host cannot read or write an element register directly: no action changes one but a reset,
and no read depends on one. -/
def Obligations.HostCannotReachRegisters : Prop :=
  ∀ (s : State) (a : HostAct),
    (RegsKept s (hostAct s a) [] ∨ IsResetState (hostAct s a)) ∧
    (∀ (r : Vector Nat 16) (off : BitVec 10), hostRead { s with regs := r } off = hostRead s off)

/-- R62, R64: while `BUSY = 1` nothing the host reads depends on the buffer or on a register. -/
def Obligations.BusyHidesBufferAndRegisters : Prop :=
  ∀ (s : State) (r : Vector Nat 16) (m : Memory) (off : BitVec 10), s.busy = true →
    hostRead { s with regs := r, buf := m } off = hostRead s off

/-! ### Field arithmetic as mathematics (40_field_arith.md) -/

/-- R117: `finv_f` raises on 0; on `0 < a < p` it is the one canonical inverse, and `finvz_f` agrees and is
0 on 0. -/
def Obligations.InverseIsTheInverse : Prop :=
  ∀ p : Nat, p.Prime →
    finv p 0 = .error .divZero ∧ finvz p 0 = 0 ∧
    ∀ a, 0 < a → a < p →
      ∃ v, finv p a = .ok v ∧ finvz p a = v ∧ v < p ∧ a * v % p = 1 ∧
        ∀ u, u < p → a * u % p = 1 → u = v

/-- R122: "The result is `b^e mod p`", for every exponent, 1 for exponent 0. -/
def Obligations.PowerScanIsPower : Prop :=
  ∀ p b e : Nat, 1 < p → fpow p b e = b ^ e % p

/-- R125 to R128: in a field that meets its clauses of `CfgOK`, `fsqrt_f` answers a canonical root exactly
when there is one, is absent exactly when the Legendre symbol is `p - 1`, and never raises. -/
def Obligations.SquareRootIsCorrect : Prop :=
  ∀ (f : FieldCfg) (x : Nat), FieldOk f → x < f.p →
    ((∃ y, y * y % f.p = x) →
      fleg f.p x ≠ f.p - 1 ∧ ∃ v, fsqrt f x = .ok (some v) ∧ v < f.p ∧ v * v % f.p = x) ∧
    ((∀ y, y * y % f.p ≠ x) → fleg f.p x = f.p - 1 ∧ fsqrt f x = .ok none)

/-- R133, clause by clause. -/
def Obligations.FieldProperties : Prop :=
  ∀ f : FieldCfg, FieldOk f → ∀ a, a < f.p →
    (∀ b, b < f.p → fadd f.p a b < f.p ∧ fadd f.p (fadd f.p a b) (fneg f.p b) = a) ∧
    (a ≠ 0 → ∃ v, finv f.p a = .ok v ∧ fmul f.p a v = 1) ∧
    finvz f.p 0 = 0 ∧ fmul f.p a (finvz f.p 0) = 0 ∧
    (fsqrt f (fsqr f.p a) = .ok (some a) ∨ fsqrt f (fsqr f.p a) = .ok (some (fneg f.p a))) ∧
    (fsqrt f a = .ok none ↔ fleg f.p a = f.p - 1)

/-! ### Curve arithmetic as mathematics (42_curve.md) -/

/-- R166: `padd` is the affine law with field division, symmetric, with `Neutral` neutral for every
canonical pair, and raises exactly when a denominator is zero. -/
def Obligations.AdditionLaw : Prop :=
  ∀ (c : Cfg) (P Q : Point), CfgOk c →
    P.x < c.bf.p → P.y < c.bf.p → Q.x < c.bf.p → Q.y < c.bf.p →
    padd c P Q = padd c Q P ∧ padd c neutral Q = .ok Q ∧ padd c Q neutral = .ok Q ∧
    (DenominatorZero c P Q → padd c P Q = .error .divZero) ∧
    (¬ DenominatorZero c P Q →
      ∃ R, padd c P Q = .ok R ∧ R.x < c.bf.p ∧ R.y < c.bf.p ∧
        (R.x : ZMod c.bf.p) * (1 + c.curveD * P.x * Q.x * P.y * Q.y) = P.x * Q.y + Q.x * P.y ∧
        (R.y : ZMod c.bf.p) * (1 - c.curveD * P.x * Q.x * P.y * Q.y) =
          P.y * Q.y - c.curveA * P.x * Q.x)

/-- R170: `(x, -y)` is not the group inverse: for a pair on the curve its sum with `(x, y)`, where the law
gives one, is `(0, -1)`. -/
def Obligations.NegationIsNotTheGroupInverse : Prop :=
  ∀ (c : Cfg) (P R : Point), CfgOk c → P.x < c.bf.p → P.y < c.bf.p → oncurve c P = true →
    padd c P (pneg c P) = .ok R → R = ⟨0, c.bf.p - 1⟩

/-- R171: the leading zero steps of the constant-time ladder neither change the accumulator nor raise. -/
def Obligations.LadderLeadingZerosChangeNothing : Prop :=
  ∀ (c : Cfg) (P : Point) (k : Nat), CfgOk c → P.x < c.bf.p → P.y < c.bf.p → k < 2 ^ c.regw →
    ladderCt c P k = ladderCtFrom c P k (bitlen k) neutral

/-- R175: whenever the constant-time ladder does not raise, the variable-time ladder does not raise and
returns the same pair; the converse fails for some pair and scalar of `CFG_TOY`. -/
def Obligations.LaddersAgree : Prop :=
  (∀ (c : Cfg) (P R : Point) (k : Nat), CfgOk c → P.x < c.bf.p → P.y < c.bf.p → k < 2 ^ c.regw →
    ladderCt c P k = .ok R → ladderVt c P k = .ok R) ∧
  ∃ (P R : Point) (k : Nat), P.x < 353 ∧ P.y < 353 ∧ k < 2 ^ 16 ∧
    ladderVt Cfg.toy P k = .ok R ∧ ladderCt Cfg.toy P k = .error .divZero

/-! ### System and data-movement commands (44_system.md) -/

/-- R200: `NOP` is its one word and changes nothing. -/
def Obligations.NopChangesNothing : Prop :=
  decode 0x01000000 = .ok .nop ∧
  (∀ w : Word, w.extractLsb' 24 8 = 0x01 → w ≠ 0x01000000 → ∃ e, decode w = .error e) ∧
  ∀ s : State, ∃ t, Sys2Proof.Machine.exec .nop s = .next t ∧
    Completes s t false false ∧ RegsKept s t [] ∧ BufKept s t

/-- R201: every register and every buffer byte becomes 0, and the latch stays. -/
def Obligations.ZeroizeClearsAll : Prop :=
  decode 0x02000000 = .ok .zeroize ∧
  ∀ s : State, ∃ t, Sys2Proof.Machine.exec .zeroize s = .next t ∧
    Completes s t false false ∧ (∀ n, n < 16 → t.reg n = 0) ∧ (∀ a, t.buf.read a = 0)

/-- R202: the raw value, also when it is not canonical. -/
def Obligations.MovCopiesRawRegister : Prop :=
  ∀ (rd ra : Idx) (s : State), StateOk s →
    decode (mkWord 0x04 0 rd ra 0 0) = .ok (.mov rd ra) ∧
    ∃ t, Sys2Proof.Machine.exec (.mov rd ra) s = .next t ∧ WritesReg s t rd (s.reg ra)

/-- R203: both registers are read before either is written; index 15 is out of bounds. -/
def Obligations.PmovCopiesRawPair : Prop :=
  ∀ (d a : Idx) (s : State), StateOk s →
    decode (mkWord 0x05 0 d a 0 0) = .ok (.pmov d a) ∧
    (d.val ≤ 14 ∧ a.val ≤ 14 →
      ∃ t, Sys2Proof.Machine.exec (.pmov d a) s = .next t ∧
        WritesPoint s t d ⟨s.reg a, s.reg (a.val + 1)⟩) ∧
    (¬ (d.val ≤ 14 ∧ a.val ≤ 14) →
      ∃ t, Sys2Proof.Machine.exec (.pmov d a) s = .next t ∧ Raised s t .bounds)

/-- R204: the seven constants, with `F = 1` only for the first three; any other `CID`, and `F = 1` with a
later one, is an illegal word. -/
def Obligations.LdcLoadsConstant : Prop :=
  (∀ w : Word, w.extractLsb' 24 8 = 0x06 →
    (6 < (w.extractLsb' 0 8).toNat ∨ (w.getLsbD 23 = true ∧ 2 < (w.extractLsb' 0 8).toNat)) →
    ∃ e, decode w = .error e) ∧
  ∀ (f : FieldSel) (rd : Idx) (cid : ConstId) (s : State), CfgOk s.cfg →
    (f = .bf ∨ cid = .zero ∨ cid = .one ∨ cid = .nonres) →
    decode (mkWord 0x06 f.bit rd 0 0 cid.cid) = .ok (.ldc f rd cid) ∧
    ∃ t, Sys2Proof.Machine.exec (.ldc f rd cid) s = .next t ∧
      WritesReg s t rd
        (match cid with
        | .zero => 0
        | .one => 1
        | .nonres => (s.cfg.field f).nr
        | .curveA => s.cfg.curveA
        | .curveD => s.cfg.curveD
        | .subOrder => s.cfg.subOrder
        | .cofactor => s.cfg.cofactor)

/-- R205: the three points; any other `CID` is an illegal word, also with index 15; index 15 is out of
bounds. -/
def Obligations.PldcLoadsPoint : Prop :=
  (∀ w : Word, w.extractLsb' 24 8 = 0x07 → 2 < (w.extractLsb' 0 8).toNat → ∃ e, decode w = .error e) ∧
  ∀ (d : Idx) (cid : PointConstId) (s : State),
    decode (mkWord 0x07 0 d 0 0 cid.cid) = .ok (.pldc d cid) ∧
    (CfgOk s.cfg → d.val ≤ 14 →
      ∃ t, Sys2Proof.Machine.exec (.pldc d cid) s = .next t ∧
        WritesPoint s t d
          (match cid with
          | .neutral => ⟨0, 1⟩
          | .gen => s.cfg.gen
          | .base => s.cfg.base)) ∧
    (¬ d.val ≤ 14 → ∃ t, Sys2Proof.Machine.exec (.pldc d cid) s = .next t ∧ Raised s t .bounds)

/-! ### Field arithmetic commands (40_field_arith.md) -/

/-- R112: one comparison and one correction give `(a + b) mod p`; a non-canonical operand is `E_RANGE`. -/
def Obligations.FaddAddsModP : Prop :=
  ∀ (f : FieldSel) (rd ra rb : Idx) (s : State),
    decode (mkWord 0x10 f.bit rd ra rb 0) = .ok (.fadd f rd ra rb) ∧
    (CfgOk s.cfg → s.reg ra < s.modulus f ∧ s.reg rb < s.modulus f →
      ∃ t, Sys2Proof.Machine.exec (.fadd f rd ra rb) s = .next t ∧
        WritesReg s t rd ((s.reg ra + s.reg rb) % s.modulus f)) ∧
    (¬ (s.reg ra < s.modulus f ∧ s.reg rb < s.modulus f) →
      ∃ t, Sys2Proof.Machine.exec (.fadd f rd ra rb) s = .next t ∧ Raised s t .range)

/-- R113: `(a - b) mod p`, the non-negative remainder. -/
def Obligations.FsubSubtractsModP : Prop :=
  ∀ (f : FieldSel) (rd ra rb : Idx) (s : State),
    decode (mkWord 0x11 f.bit rd ra rb 0) = .ok (.fsub f rd ra rb) ∧
    (CfgOk s.cfg → s.reg ra < s.modulus f ∧ s.reg rb < s.modulus f →
      ∃ t, Sys2Proof.Machine.exec (.fsub f rd ra rb) s = .next t ∧
        WritesReg s t rd (((s.reg ra : Int) - (s.reg rb : Int)) % (s.modulus f : Int)).toNat) ∧
    (¬ (s.reg ra < s.modulus f ∧ s.reg rb < s.modulus f) →
      ∃ t, Sys2Proof.Machine.exec (.fsub f rd ra rb) s = .next t ∧ Raised s t .range)

/-- R114: `(p - a) mod p`, so 0 for 0. -/
def Obligations.FnegNegatesModP : Prop :=
  ∀ (f : FieldSel) (rd ra : Idx) (s : State),
    decode (mkWord 0x12 f.bit rd ra 0 0) = .ok (.fneg f rd ra) ∧
    (CfgOk s.cfg → s.reg ra < s.modulus f →
      ∃ t, Sys2Proof.Machine.exec (.fneg f rd ra) s = .next t ∧
        WritesReg s t rd ((s.modulus f - s.reg ra) % s.modulus f)) ∧
    (¬ s.reg ra < s.modulus f →
      ∃ t, Sys2Proof.Machine.exec (.fneg f rd ra) s = .next t ∧ Raised s t .range)

/-- R115, R116: the full product, reduced; `FSQR` is `FMUL` of a register with itself. -/
def Obligations.FmulAndFsqrMultiplyModP : Prop :=
  ∀ (f : FieldSel) (rd ra rb : Idx) (s : State),
    decode (mkWord 0x13 f.bit rd ra rb 0) = .ok (.fmul f rd ra rb) ∧
    decode (mkWord 0x14 f.bit rd ra 0 0) = .ok (.fsqr f rd ra) ∧
    (CfgOk s.cfg → s.reg ra < s.modulus f ∧ s.reg rb < s.modulus f →
      ∃ t, Sys2Proof.Machine.exec (.fmul f rd ra rb) s = .next t ∧
        WritesReg s t rd (s.reg ra * s.reg rb % s.modulus f)) ∧
    (¬ (s.reg ra < s.modulus f ∧ s.reg rb < s.modulus f) →
      ∃ t, Sys2Proof.Machine.exec (.fmul f rd ra rb) s = .next t ∧ Raised s t .range) ∧
    (CfgOk s.cfg → s.reg ra < s.modulus f →
      ∃ t, Sys2Proof.Machine.exec (.fsqr f rd ra) s = .next t ∧
        WritesReg s t rd (s.reg ra * s.reg ra % s.modulus f)) ∧
    (¬ s.reg ra < s.modulus f →
      ∃ t, Sys2Proof.Machine.exec (.fsqr f rd ra) s = .next t ∧ Raised s t .range)

/-- R118, R119: the canonical inverse; on 0, `FINV` raises `E_DIVZERO` and `FINVZ` writes 0. -/
def Obligations.FinvAndFinvzInvert : Prop :=
  ∀ (f : FieldSel) (rd ra : Idx) (s : State),
    decode (mkWord 0x15 f.bit rd ra 0 0) = .ok (.finv f rd ra) ∧
    decode (mkWord 0x16 f.bit rd ra 0 0) = .ok (.finvz f rd ra) ∧
    (CfgOk s.cfg → 0 < s.reg ra ∧ s.reg ra < s.modulus f →
      ∃ v, v < s.modulus f ∧ s.reg ra * v % s.modulus f = 1 ∧
        (∃ t, Sys2Proof.Machine.exec (.finv f rd ra) s = .next t ∧ WritesReg s t rd v) ∧
        (∃ t, Sys2Proof.Machine.exec (.finvz f rd ra) s = .next t ∧ WritesReg s t rd v)) ∧
    (CfgOk s.cfg → s.reg ra = 0 →
      (∃ t, Sys2Proof.Machine.exec (.finv f rd ra) s = .next t ∧ Raised s t .divZero) ∧
      (∃ t, Sys2Proof.Machine.exec (.finvz f rd ra) s = .next t ∧ WritesReg s t rd 0)) ∧
    (¬ s.reg ra < s.modulus f →
      (∃ t, Sys2Proof.Machine.exec (.finv f rd ra) s = .next t ∧ Raised s t .range) ∧
      (∃ t, Sys2Proof.Machine.exec (.finvz f rd ra) s = .next t ∧ Raised s t .range))

/-- R120, R121: the canonical quotient; on a zero divisor, `FDIV` raises `E_DIVZERO` whatever the dividend
is and `FDIVZ` writes 0; `E_RANGE` comes first. -/
def Obligations.FdivAndFdivzDivide : Prop :=
  ∀ (f : FieldSel) (rd ra rb : Idx) (s : State),
    decode (mkWord 0x17 f.bit rd ra rb 0) = .ok (.fdiv f rd ra rb) ∧
    decode (mkWord 0x18 f.bit rd ra rb 0) = .ok (.fdivz f rd ra rb) ∧
    (CfgOk s.cfg → s.reg ra < s.modulus f ∧ 0 < s.reg rb ∧ s.reg rb < s.modulus f →
      ∃ v, v < s.modulus f ∧ s.reg rb * v % s.modulus f = s.reg ra ∧
        (∃ t, Sys2Proof.Machine.exec (.fdiv f rd ra rb) s = .next t ∧ WritesReg s t rd v) ∧
        (∃ t, Sys2Proof.Machine.exec (.fdivz f rd ra rb) s = .next t ∧ WritesReg s t rd v)) ∧
    (CfgOk s.cfg → s.reg ra < s.modulus f ∧ s.reg rb = 0 →
      (∃ t, Sys2Proof.Machine.exec (.fdiv f rd ra rb) s = .next t ∧ Raised s t .divZero) ∧
      (∃ t, Sys2Proof.Machine.exec (.fdivz f rd ra rb) s = .next t ∧ WritesReg s t rd 0)) ∧
    (¬ (s.reg ra < s.modulus f ∧ s.reg rb < s.modulus f) →
      (∃ t, Sys2Proof.Machine.exec (.fdiv f rd ra rb) s = .next t ∧ Raised s t .range) ∧
      (∃ t, Sys2Proof.Machine.exec (.fdivz f rd ra rb) s = .next t ∧ Raised s t .range))

/-- R123, R124: the power by a raw exponent, and the Legendre symbol, which is 0, 1 or `p - 1`. -/
def Obligations.FpowAndFlegRaisePowers : Prop :=
  ∀ (f : FieldSel) (rd ra rb : Idx) (s : State),
    decode (mkWord 0x19 f.bit rd ra rb 0) = .ok (.fpow f rd ra rb) ∧
    decode (mkWord 0x1A f.bit rd ra 0 0) = .ok (.fleg f rd ra) ∧
    (CfgOk s.cfg → s.reg ra < s.modulus f →
      (∃ t, Sys2Proof.Machine.exec (.fpow f rd ra rb) s = .next t ∧
        WritesReg s t rd (s.reg ra ^ s.reg rb % s.modulus f)) ∧
      (∃ t v, Sys2Proof.Machine.exec (.fleg f rd ra) s = .next t ∧ WritesReg s t rd v ∧
        v = s.reg ra ^ ((s.modulus f - 1) / 2) % s.modulus f ∧
        (v = 0 ∨ v = 1 ∨ v = s.modulus f - 1) ∧ (v = 0 ↔ s.reg ra = 0))) ∧
    (¬ s.reg ra < s.modulus f →
      (∃ t, Sys2Proof.Machine.exec (.fpow f rd ra rb) s = .next t ∧ Raised s t .range) ∧
      (∃ t, Sys2Proof.Machine.exec (.fleg f rd ra) s = .next t ∧ Raised s t .range))

/-- R128, R125: a root, absent, or an error, as `fsqrt_f` says; the root of 0 is 0; absent leaves the
destination. -/
def Obligations.FsqrtCommitsRootOrAbsent : Prop :=
  ∀ (f : FieldSel) (rd ra : Idx) (s : State),
    decode (mkWord 0x1B f.bit rd ra 0 0) = .ok (.fsqrt f rd ra) ∧
    (∀ v, CfgOk s.cfg → s.reg ra < s.modulus f → fsqrt (s.cfg.field f) (s.reg ra) = .ok (some v) →
      ∃ t, Sys2Proof.Machine.exec (.fsqrt f rd ra) s = .next t ∧ WritesReg s t rd v) ∧
    (CfgOk s.cfg → s.reg ra = 0 →
      ∃ t, Sys2Proof.Machine.exec (.fsqrt f rd ra) s = .next t ∧ WritesReg s t rd 0) ∧
    (s.reg ra < s.modulus f → fsqrt (s.cfg.field f) (s.reg ra) = .ok none →
      ∃ t, Sys2Proof.Machine.exec (.fsqrt f rd ra) s = .next t ∧ EndsAbsent s t) ∧
    (∀ e, s.reg ra < s.modulus f → fsqrt (s.cfg.field f) (s.reg ra) = .error e →
      e = .internal ∧ ∃ t, Sys2Proof.Machine.exec (.fsqrt f rd ra) s = .next t ∧ Raised s t .internal) ∧
    (¬ s.reg ra < s.modulus f →
      ∃ t, Sys2Proof.Machine.exec (.fsqrt f rd ra) s = .next t ∧ Raised s t .range)

/-- R130, R131: the sum and the product of a run of registers; the bounds come before the range. -/
def Obligations.FsumAndFprodFoldRuns : Prop :=
  ∀ (f : FieldSel) (rd ra n : Idx) (s : State),
    decode (mkWord 0x1C f.bit rd ra 0 (n.val * 16)) = .ok (.fsum f rd ra n) ∧
    decode (mkWord 0x1D f.bit rd ra 0 (n.val * 16)) = .ok (.fprod f rd ra n) ∧
    (CfgOk s.cfg → ra.val + n.val ≤ 16 → (∀ j, j < n.val → s.reg (ra.val + j) < s.modulus f) →
      (∃ t, Sys2Proof.Machine.exec (.fsum f rd ra n) s = .next t ∧
        WritesReg s t rd ((∑ j ∈ Finset.range n.val, s.reg (ra.val + j)) % s.modulus f)) ∧
      (∃ t, Sys2Proof.Machine.exec (.fprod f rd ra n) s = .next t ∧
        WritesReg s t rd ((∏ j ∈ Finset.range n.val, s.reg (ra.val + j)) % s.modulus f))) ∧
    (ra.val + n.val ≤ 16 → ¬ (∀ j, j < n.val → s.reg (ra.val + j) < s.modulus f) →
      (∃ t, Sys2Proof.Machine.exec (.fsum f rd ra n) s = .next t ∧ Raised s t .range) ∧
      (∃ t, Sys2Proof.Machine.exec (.fprod f rd ra n) s = .next t ∧ Raised s t .range)) ∧
    (¬ ra.val + n.val ≤ 16 →
      (∃ t, Sys2Proof.Machine.exec (.fsum f rd ra n) s = .next t ∧ Raised s t .bounds) ∧
      (∃ t, Sys2Proof.Machine.exec (.fprod f rd ra n) s = .next t ∧ Raised s t .bounds))

/-- R132: the dot product; the length check comes first, then the bounds, then the range. -/
def Obligations.FdotMultipliesRuns : Prop :=
  ∀ (f : FieldSel) (rd ra na rb nb : Idx) (s : State),
    decode (mkWord 0x1E f.bit rd ra rb (na.val * 16 + nb.val)) = .ok (.fdot f rd ra na rb nb) ∧
    (na ≠ nb →
      ∃ t, Sys2Proof.Machine.exec (.fdot f rd ra na rb nb) s = .next t ∧ Raised s t .length) ∧
    (na = nb → ¬ (ra.val + na.val ≤ 16 ∧ rb.val + nb.val ≤ 16) →
      ∃ t, Sys2Proof.Machine.exec (.fdot f rd ra na rb nb) s = .next t ∧ Raised s t .bounds) ∧
    (na = nb → ra.val + na.val ≤ 16 ∧ rb.val + nb.val ≤ 16 →
      ¬ (∀ j, j < na.val → s.reg (ra.val + j) < s.modulus f ∧ s.reg (rb.val + j) < s.modulus f) →
      ∃ t, Sys2Proof.Machine.exec (.fdot f rd ra na rb nb) s = .next t ∧ Raised s t .range) ∧
    (CfgOk s.cfg → na = nb → ra.val + na.val ≤ 16 ∧ rb.val + nb.val ≤ 16 →
      (∀ j, j < na.val → s.reg (ra.val + j) < s.modulus f ∧ s.reg (rb.val + j) < s.modulus f) →
      ∃ t, Sys2Proof.Machine.exec (.fdot f rd ra na rb nb) s = .next t ∧
        WritesReg s t rd
          ((∑ j ∈ Finset.range na.val, s.reg (ra.val + j) * s.reg (rb.val + j)) % s.modulus f))

/-! ### Field codec commands (41_field_codec.md) -/

/-- R151: absent on a wrong length and on a number that is not below `p`; otherwise the little-endian
number; `E_BOUNDS` first. -/
def Obligations.FfrombDecodes : Prop :=
  ∀ (f : FieldSel) (rd : Idx) (off len : BitVec 8) (s : State),
    decode (mkWordB 0x20 f.bit rd off.toNat len.toNat) = .ok (.ffromb f rd off len) ∧
    (¬ off.toNat + len.toNat ≤ 256 →
      ∃ t, Sys2Proof.Machine.exec (.ffromb f rd off len) s = .next t ∧ Raised s t .bounds) ∧
    (off.toNat + len.toNat ≤ 256 →
      ¬ (len.toNat = (s.cfg.field f).byteLen ∧
        ∑ j ∈ Finset.range len.toNat, (s.buf.read (off.toNat + j)).toNat * 256 ^ j < s.modulus f) →
      ∃ t, Sys2Proof.Machine.exec (.ffromb f rd off len) s = .next t ∧ EndsAbsent s t) ∧
    (CfgOk s.cfg → off.toNat + len.toNat ≤ 256 → len.toNat = (s.cfg.field f).byteLen →
      ∑ j ∈ Finset.range len.toNat, (s.buf.read (off.toNat + j)).toNat * 256 ^ j < s.modulus f →
      ∃ t, Sys2Proof.Machine.exec (.ffromb f rd off len) s = .next t ∧
        WritesReg s t rd
          (∑ j ∈ Finset.range len.toNat, (s.buf.read (off.toNat + j)).toNat * 256 ^ j))

/-- R152: exactly `BL` bytes, least significant first; no register and no other byte changes; `E_BOUNDS`
before `E_RANGE`. -/
def Obligations.FtobEncodes : Prop :=
  ∀ (f : FieldSel) (rs : Idx) (off : BitVec 8) (s : State), StateOk s →
    decode (mkWordB 0x21 f.bit rs off.toNat 0) = .ok (.ftob f rs off) ∧
    (¬ off.toNat + (s.cfg.field f).byteLen ≤ 256 →
      ∃ t, Sys2Proof.Machine.exec (.ftob f rs off) s = .next t ∧ Raised s t .bounds) ∧
    (off.toNat + (s.cfg.field f).byteLen ≤ 256 → ¬ s.reg rs < s.modulus f →
      ∃ t, Sys2Proof.Machine.exec (.ftob f rs off) s = .next t ∧ Raised s t .range) ∧
    (off.toNat + (s.cfg.field f).byteLen ≤ 256 → s.reg rs < s.modulus f →
      ∃ t, Sys2Proof.Machine.exec (.ftob f rs off) s = .next t ∧ Completes s t false false ∧
        RegsKept s t [] ∧ BufKeptOutside s t off.toNat (s.cfg.field f).byteLen ∧
        ∀ j, j < (s.cfg.field f).byteLen →
          (t.buf.read (off.toNat + j)).toNat = s.reg rs / 256 ^ j % 256)

/-- R153: the little-endian number reduced modulo `p`, for every length, also 0. -/
def Obligations.FentReduces : Prop :=
  ∀ (f : FieldSel) (rd : Idx) (off len : BitVec 8) (s : State),
    decode (mkWordB 0x22 f.bit rd off.toNat len.toNat) = .ok (.fent f rd off len) ∧
    (CfgOk s.cfg → off.toNat + len.toNat ≤ 256 →
      ∃ t, Sys2Proof.Machine.exec (.fent f rd off len) s = .next t ∧
        WritesReg s t rd
          ((∑ j ∈ Finset.range len.toNat, (s.buf.read (off.toNat + j)).toNat * 256 ^ j)
            % s.modulus f)) ∧
    (¬ off.toNat + len.toNat ≤ 256 →
      ∃ t, Sys2Proof.Machine.exec (.fent f rd off len) s = .next t ∧ Raised s t .bounds)

/-- R152, last property: what `FTOB` writes, `FFROMB` with the right length reads back. -/
def Obligations.FieldCodecRoundTrip : Prop :=
  ∀ (f : FieldSel) (rs rd : Idx) (off len : BitVec 8) (s t : State), CfgOk s.cfg → StateOk s →
    s.reg rs < s.modulus f → len.toNat = (s.cfg.field f).byteLen → off.toNat + len.toNat ≤ 256 →
    Sys2Proof.Machine.exec (.ftob f rs off) s = .next t →
    ∃ u, Sys2Proof.Machine.exec (.ffromb f rd off len) t = .next u ∧ WritesReg t u rd (s.reg rs)

/-! ### Point codec commands (43_curve_codec.md) -/

/-- R191: absent on a wrong length, a coordinate that is not below `p`, or a pair off the curve; otherwise
the pair; the two bounds checks first. -/
def Obligations.PfrombDecodes : Prop :=
  ∀ (d : Idx) (off len : BitVec 8) (s : State) (x y : Nat),
    x = ∑ j ∈ Finset.range s.cfg.bf.byteLen, (s.buf.read (off.toNat + j)).toNat * 256 ^ j →
    y = ∑ j ∈ Finset.range s.cfg.bf.byteLen,
      (s.buf.read (off.toNat + s.cfg.bf.byteLen + j)).toNat * 256 ^ j →
    decode (mkWordB 0x28 0 d off.toNat len.toNat) = .ok (.pfromb d off len) ∧
    (¬ (d.val ≤ 14 ∧ off.toNat + len.toNat ≤ 256) →
      ∃ t, Sys2Proof.Machine.exec (.pfromb d off len) s = .next t ∧ Raised s t .bounds) ∧
    (d.val ≤ 14 → off.toNat + len.toNat ≤ 256 →
      ¬ (len.toNat = s.cfg.pointLen ∧ x < s.cfg.bf.p ∧ y < s.cfg.bf.p ∧
        oncurve s.cfg ⟨x, y⟩ = true) →
      ∃ t, Sys2Proof.Machine.exec (.pfromb d off len) s = .next t ∧ EndsAbsent s t) ∧
    (CfgOk s.cfg → d.val ≤ 14 → off.toNat + len.toNat ≤ 256 → len.toNat = s.cfg.pointLen →
      x < s.cfg.bf.p → y < s.cfg.bf.p → oncurve s.cfg ⟨x, y⟩ = true →
      ∃ t, Sys2Proof.Machine.exec (.pfromb d off len) s = .next t ∧ WritesPoint s t d ⟨x, y⟩)

/-- R192: exactly `PL` bytes, x then y, each least significant byte first. -/
def Obligations.PtobEncodes : Prop :=
  ∀ (src : Idx) (off : BitVec 8) (s : State), StateOk s →
    decode (mkWordB 0x29 0 src off.toNat 0) = .ok (.ptob src off) ∧
    (¬ (src.val ≤ 14 ∧ off.toNat + s.cfg.pointLen ≤ 256) →
      ∃ t, Sys2Proof.Machine.exec (.ptob src off) s = .next t ∧ Raised s t .bounds) ∧
    (src.val ≤ 14 → off.toNat + s.cfg.pointLen ≤ 256 →
      ¬ (s.reg src < s.cfg.bf.p ∧ s.reg (src.val + 1) < s.cfg.bf.p) →
      ∃ t, Sys2Proof.Machine.exec (.ptob src off) s = .next t ∧ Raised s t .range) ∧
    (src.val ≤ 14 → off.toNat + s.cfg.pointLen ≤ 256 →
      s.reg src < s.cfg.bf.p ∧ s.reg (src.val + 1) < s.cfg.bf.p →
      ∃ t, Sys2Proof.Machine.exec (.ptob src off) s = .next t ∧ Completes s t false false ∧
        RegsKept s t [] ∧ BufKeptOutside s t off.toNat s.cfg.pointLen ∧
        ∀ j, j < s.cfg.bf.byteLen →
          (t.buf.read (off.toNat + j)).toNat = s.reg src / 256 ^ j % 256 ∧
          (t.buf.read (off.toNat + s.cfg.bf.byteLen + j)).toNat =
            s.reg (src.val + 1) / 256 ^ j % 256)

/-- R193: what `PTOB` writes for a canonical pair on the curve, `PFROMB` reads back; any other length is
absent or out of bounds. -/
def Obligations.PointCodecRoundTrip : Prop :=
  (∀ (src d : Idx) (off len : BitVec 8) (s t : State), CfgOk s.cfg → StateOk s →
    src.val ≤ 14 → d.val ≤ 14 → s.reg src < s.cfg.bf.p → s.reg (src.val + 1) < s.cfg.bf.p →
    oncurve s.cfg ⟨s.reg src, s.reg (src.val + 1)⟩ = true →
    len.toNat = s.cfg.pointLen → off.toNat + len.toNat ≤ 256 →
    Sys2Proof.Machine.exec (.ptob src off) s = .next t →
    ∃ u, Sys2Proof.Machine.exec (.pfromb d off len) t = .next u ∧
      WritesPoint t u d ⟨s.reg src, s.reg (src.val + 1)⟩) ∧
  (∀ (d : Idx) (off len : BitVec 8) (s : State), len.toNat ≠ s.cfg.pointLen → d.val ≤ 14 →
    ∃ t, Sys2Proof.Machine.exec (.pfromb d off len) s = .next t ∧
      (off.toNat + len.toNat ≤ 256 → EndsAbsent s t) ∧
      (¬ off.toNat + len.toNat ≤ 256 → Raised s t .bounds))

/-! ### Curve commands (42_curve.md) -/

/-- R167: the sum by `padd`; bounds, then range, then `E_DIVZERO`. -/
def Obligations.PaddAddsPoints : Prop :=
  ∀ (d a b : Idx) (s : State),
    decode (mkWord 0x30 0 d a b 0) = .ok (.padd d a b) ∧
    (¬ (d.val ≤ 14 ∧ a.val ≤ 14 ∧ b.val ≤ 14) →
      ∃ t, Sys2Proof.Machine.exec (.padd d a b) s = .next t ∧ Raised s t .bounds) ∧
    (d.val ≤ 14 ∧ a.val ≤ 14 ∧ b.val ≤ 14 →
      ¬ (s.reg a < s.cfg.bf.p ∧ s.reg (a.val + 1) < s.cfg.bf.p ∧
        s.reg b < s.cfg.bf.p ∧ s.reg (b.val + 1) < s.cfg.bf.p) →
      ∃ t, Sys2Proof.Machine.exec (.padd d a b) s = .next t ∧ Raised s t .range) ∧
    (d.val ≤ 14 ∧ a.val ≤ 14 ∧ b.val ≤ 14 →
      s.reg a < s.cfg.bf.p ∧ s.reg (a.val + 1) < s.cfg.bf.p ∧
        s.reg b < s.cfg.bf.p ∧ s.reg (b.val + 1) < s.cfg.bf.p →
      (CfgOk s.cfg →
        ¬ DenominatorZero s.cfg ⟨s.reg a, s.reg (a.val + 1)⟩ ⟨s.reg b, s.reg (b.val + 1)⟩ →
        ∃ R t, padd s.cfg ⟨s.reg a, s.reg (a.val + 1)⟩ ⟨s.reg b, s.reg (b.val + 1)⟩ = .ok R ∧
          Sys2Proof.Machine.exec (.padd d a b) s = .next t ∧ WritesPoint s t d R) ∧
      (DenominatorZero s.cfg ⟨s.reg a, s.reg (a.val + 1)⟩ ⟨s.reg b, s.reg (b.val + 1)⟩ →
        ∃ t, Sys2Proof.Machine.exec (.padd d a b) s = .next t ∧ Raised s t .divZero))

/-- R168, R169: doubling is the addition law with both operands equal. -/
def Obligations.PdblDoublesPoint : Prop :=
  ∀ (d a : Idx) (s : State),
    decode (mkWord 0x31 0 d a 0 0) = .ok (.pdbl d a) ∧
    (¬ (d.val ≤ 14 ∧ a.val ≤ 14) →
      ∃ t, Sys2Proof.Machine.exec (.pdbl d a) s = .next t ∧ Raised s t .bounds) ∧
    (d.val ≤ 14 ∧ a.val ≤ 14 → ¬ (s.reg a < s.cfg.bf.p ∧ s.reg (a.val + 1) < s.cfg.bf.p) →
      ∃ t, Sys2Proof.Machine.exec (.pdbl d a) s = .next t ∧ Raised s t .range) ∧
    (d.val ≤ 14 ∧ a.val ≤ 14 → s.reg a < s.cfg.bf.p ∧ s.reg (a.val + 1) < s.cfg.bf.p →
      (CfgOk s.cfg →
        ¬ DenominatorZero s.cfg ⟨s.reg a, s.reg (a.val + 1)⟩ ⟨s.reg a, s.reg (a.val + 1)⟩ →
        ∃ R t, padd s.cfg ⟨s.reg a, s.reg (a.val + 1)⟩ ⟨s.reg a, s.reg (a.val + 1)⟩ = .ok R ∧
          Sys2Proof.Machine.exec (.pdbl d a) s = .next t ∧ WritesPoint s t d R) ∧
      (DenominatorZero s.cfg ⟨s.reg a, s.reg (a.val + 1)⟩ ⟨s.reg a, s.reg (a.val + 1)⟩ →
        ∃ t, Sys2Proof.Machine.exec (.pdbl d a) s = .next t ∧ Raised s t .divZero))

/-- R170: `(x, -y)` as written. -/
def Obligations.PnegNegatesY : Prop :=
  ∀ (d a : Idx) (s : State),
    decode (mkWord 0x32 0 d a 0 0) = .ok (.pneg d a) ∧
    (¬ (d.val ≤ 14 ∧ a.val ≤ 14) →
      ∃ t, Sys2Proof.Machine.exec (.pneg d a) s = .next t ∧ Raised s t .bounds) ∧
    (d.val ≤ 14 ∧ a.val ≤ 14 → ¬ (s.reg a < s.cfg.bf.p ∧ s.reg (a.val + 1) < s.cfg.bf.p) →
      ∃ t, Sys2Proof.Machine.exec (.pneg d a) s = .next t ∧ Raised s t .range) ∧
    (CfgOk s.cfg → d.val ≤ 14 ∧ a.val ≤ 14 →
      s.reg a < s.cfg.bf.p ∧ s.reg (a.val + 1) < s.cfg.bf.p →
      ∃ t, Sys2Proof.Machine.exec (.pneg d a) s = .next t ∧
        WritesPoint s t d ⟨s.reg a, (s.cfg.bf.p - s.reg (a.val + 1)) % s.cfg.bf.p⟩)

/-- R161, R163: `BOOL` is the curve equation `A*x^2 + y^2 = 1 + D*x^2*y^2` modulo `p`; no register is
written. -/
def Obligations.PoncTestsCurveEquation : Prop :=
  ∀ (a : Idx) (s : State),
    decode (mkWord 0x33 0 0 a 0 0) = .ok (.ponc a) ∧
    (¬ a.val ≤ 14 → ∃ t, Sys2Proof.Machine.exec (.ponc a) s = .next t ∧ Raised s t .bounds) ∧
    (a.val ≤ 14 → ¬ (s.reg a < s.cfg.bf.p ∧ s.reg (a.val + 1) < s.cfg.bf.p) →
      ∃ t, Sys2Proof.Machine.exec (.ponc a) s = .next t ∧ Raised s t .range) ∧
    (a.val ≤ 14 → s.reg a < s.cfg.bf.p ∧ s.reg (a.val + 1) < s.cfg.bf.p →
      ∃ t, Sys2Proof.Machine.exec (.ponc a) s = .next t ∧
        WritesBool s t (decide
          ((s.cfg.curveA * s.reg a ^ 2 + s.reg (a.val + 1) ^ 2) % s.cfg.bf.p =
            (1 + s.cfg.curveD * s.reg a ^ 2 * s.reg (a.val + 1) ^ 2) % s.cfg.bf.p)))

/-- R176: off the curve `BOOL = 0` without running the ladder; on it `BOOL` says whether the
constant-time ladder by `SubOrder` gives `(0, 1)`. It holds for every build; in one with
`SubOrder >= 2^REGW` the ladder scans the low `REGW` bits, the model's choice (log entry 19). -/
def Obligations.PinsgTestsSubgroup : Prop :=
  ∀ (a : Idx) (s : State),
    decode (mkWord 0x34 0 0 a 0 0) = .ok (.pinsg a) ∧
    (¬ a.val ≤ 14 → ∃ t, Sys2Proof.Machine.exec (.pinsg a) s = .next t ∧ Raised s t .bounds) ∧
    (a.val ≤ 14 → ¬ (s.reg a < s.cfg.bf.p ∧ s.reg (a.val + 1) < s.cfg.bf.p) →
      ∃ t, Sys2Proof.Machine.exec (.pinsg a) s = .next t ∧ Raised s t .range) ∧
    (a.val ≤ 14 → s.reg a < s.cfg.bf.p ∧ s.reg (a.val + 1) < s.cfg.bf.p →
      (oncurve s.cfg ⟨s.reg a, s.reg (a.val + 1)⟩ = false →
        ∃ t, Sys2Proof.Machine.exec (.pinsg a) s = .next t ∧ WritesBool s t false) ∧
      (oncurve s.cfg ⟨s.reg a, s.reg (a.val + 1)⟩ = true →
        (∀ Q, ladderCt s.cfg ⟨s.reg a, s.reg (a.val + 1)⟩ s.cfg.subOrder = .ok Q →
          ∃ t, Sys2Proof.Machine.exec (.pinsg a) s = .next t ∧
            WritesBool s t (decide (Q = ⟨0, 1⟩))) ∧
        (∀ e, ladderCt s.cfg ⟨s.reg a, s.reg (a.val + 1)⟩ s.cfg.subOrder = .error e →
          e = .divZero ∧
          ∃ t, Sys2Proof.Machine.exec (.pinsg a) s = .next t ∧ Raised s t .divZero)))

/-- R172: the constant-time ladder on the raw scalar; `k = 0` gives `Neutral` and `k = 1` gives `P`
whatever the pair is on a complete run. -/
def Obligations.SmulRunsConstantTimeLadder : Prop :=
  ∀ (d a rb : Idx) (s : State),
    decode (mkWord 0x35 0 d a rb 0) = .ok (.smul d a rb) ∧
    (¬ (d.val ≤ 14 ∧ a.val ≤ 14) →
      ∃ t, Sys2Proof.Machine.exec (.smul d a rb) s = .next t ∧ Raised s t .bounds) ∧
    (d.val ≤ 14 ∧ a.val ≤ 14 → ¬ (s.reg a < s.cfg.bf.p ∧ s.reg (a.val + 1) < s.cfg.bf.p) →
      ∃ t, Sys2Proof.Machine.exec (.smul d a rb) s = .next t ∧ Raised s t .range) ∧
    (d.val ≤ 14 ∧ a.val ≤ 14 → s.reg a < s.cfg.bf.p ∧ s.reg (a.val + 1) < s.cfg.bf.p →
      (CfgOk s.cfg → s.reg rb = 0 →
        ∃ t, Sys2Proof.Machine.exec (.smul d a rb) s = .next t ∧ WritesPoint s t d ⟨0, 1⟩) ∧
      (CfgOk s.cfg → s.reg rb = 1 →
        ∃ t, Sys2Proof.Machine.exec (.smul d a rb) s = .next t ∧
          WritesPoint s t d ⟨s.reg a, s.reg (a.val + 1)⟩) ∧
      (∀ R, CfgOk s.cfg → ladderCt s.cfg ⟨s.reg a, s.reg (a.val + 1)⟩ (s.reg rb) = .ok R →
        ∃ t, Sys2Proof.Machine.exec (.smul d a rb) s = .next t ∧ WritesPoint s t d R) ∧
      (∀ e, ladderCt s.cfg ⟨s.reg a, s.reg (a.val + 1)⟩ (s.reg rb) = .error e →
        e = .divZero ∧
        ∃ t, Sys2Proof.Machine.exec (.smul d a rb) s = .next t ∧ Raised s t .divZero))

/-- R174: the variable-time ladder on the raw scalar. -/
def Obligations.SmulvtRunsVariableTimeLadder : Prop :=
  ∀ (d a rb : Idx) (s : State),
    decode (mkWord 0x36 0 d a rb 0) = .ok (.smulvt d a rb) ∧
    (¬ (d.val ≤ 14 ∧ a.val ≤ 14) →
      ∃ t, Sys2Proof.Machine.exec (.smulvt d a rb) s = .next t ∧ Raised s t .bounds) ∧
    (d.val ≤ 14 ∧ a.val ≤ 14 → ¬ (s.reg a < s.cfg.bf.p ∧ s.reg (a.val + 1) < s.cfg.bf.p) →
      ∃ t, Sys2Proof.Machine.exec (.smulvt d a rb) s = .next t ∧ Raised s t .range) ∧
    (d.val ≤ 14 ∧ a.val ≤ 14 → s.reg a < s.cfg.bf.p ∧ s.reg (a.val + 1) < s.cfg.bf.p →
      (CfgOk s.cfg → s.reg rb = 0 →
        ∃ t, Sys2Proof.Machine.exec (.smulvt d a rb) s = .next t ∧ WritesPoint s t d ⟨0, 1⟩) ∧
      (CfgOk s.cfg → s.reg rb = 1 →
        ∃ t, Sys2Proof.Machine.exec (.smulvt d a rb) s = .next t ∧
          WritesPoint s t d ⟨s.reg a, s.reg (a.val + 1)⟩) ∧
      (∀ R, CfgOk s.cfg → ladderVt s.cfg ⟨s.reg a, s.reg (a.val + 1)⟩ (s.reg rb) = .ok R →
        ∃ t, Sys2Proof.Machine.exec (.smulvt d a rb) s = .next t ∧ WritesPoint s t d R) ∧
      (∀ e, ladderVt s.cfg ⟨s.reg a, s.reg (a.val + 1)⟩ (s.reg rb) = .error e →
        e = .divZero ∧
        ∃ t, Sys2Proof.Machine.exec (.smulvt d a rb) s = .next t ∧ Raised s t .divZero))
end

