-- ==== Sys2Proof/Laws/Field.lean ====
section
/-! SUPPORT. What the field functions can answer, said once (40_field_arith.md R110 to R132): every result
is canonical, each partial function raises its own error only, and a canonical value fits a register
under clause 6 of `CfgOK`. -/

namespace Sys2Proof.Machine

section range
variable {p : Nat} (hp : 0 < p) (a b : Nat)
include hp

theorem fadd_lt : fadd p a b < p := Nat.mod_lt _ hp
theorem fsub_lt : fsub p a b < p := Nat.mod_lt _ hp
theorem fneg_lt : fneg p a < p := Nat.mod_lt _ hp
theorem fmul_lt : fmul p a b < p := Nat.mod_lt _ hp
theorem fsqr_lt : fsqr p a < p := Nat.mod_lt _ hp

theorem invValue_lt : invValue p a < p := by
  unfold invValue
  split
  · have h1 := Int.emod_lt_of_pos (euclid (a + 1) p a 0 1).2 (Int.natCast_pos.2 hp)
    have h2 := Int.emod_nonneg (euclid (a + 1) p a 0 1).2 (Int.natCast_pos.2 hp).ne'
    omega
  · exact Nat.mod_lt _ hp

theorem finvz_lt : finvz p a < p := by
  unfold finvz
  split
  · exact hp
  · exact invValue_lt hp a

theorem powScan_lt (e i acc : Nat) (h : acc < p) : powScan p b e i acc < p := by
  induction i generalizing acc with
  | zero => exact h
  | succ i ih =>
    refine ih _ ?_
    split
    · exact fmul_lt hp _ _
    · exact fsqr_lt hp _

end range

theorem fpow_lt {p : Nat} (hp : 1 < p) (b e : Nat) : fpow p b e < p :=
  powScan_lt (Nat.zero_lt_of_lt hp) b e _ 1 hp

theorem fleg_lt {p : Nat} (hp : 1 < p) (x : Nat) : fleg p x < p := fpow_lt hp x _

/-- The three reductions answer canonical values. -/
theorem fsum_lt {p : Nat} (hp : 0 < p) (v : List Nat) : fsum p v < p := by
  unfold fsum
  rcases v.eq_nil_or_concat with rfl | ⟨v, x, rfl⟩
  · exact hp
  · rw [List.concat_eq_append, List.foldl_append]; exact fadd_lt hp _ _

theorem fprod_lt {p : Nat} (hp : 1 < p) (v : List Nat) : fprod p v < p := by
  unfold fprod
  rcases v.eq_nil_or_concat with rfl | ⟨v, x, rfl⟩
  · exact hp
  · rw [List.concat_eq_append, List.foldl_append]; exact fmul_lt (Nat.zero_lt_of_lt hp) _ _

theorem fdot_lt {p : Nat} (hp : 0 < p) (u v : List Nat) : fdot p u v < p := by
  unfold fdot
  rcases (u.zip v).eq_nil_or_concat with h | ⟨w, x, h⟩
  · rw [h]; exact hp
  · rw [h, List.concat_eq_append, List.foldl_append]; exact fadd_lt hp _ _

/-- Each reduction is the sum or the product of its run, reduced once. -/
theorem fsum_eq {p : Nat} (hp : 0 < p) (v : List Nat) : fsum p v = v.sum % p := by
  have key : ∀ a, v.foldl (fadd p) a % p = (a + v.sum) % p := by
    induction v with
    | nil => simp
    | cons x v ih => intro a; rw [List.foldl_cons, ih, List.sum_cons, fadd]; simp [Nat.add_assoc]
  rw [← Nat.mod_eq_of_lt (fsum_lt hp v), fsum, key, Nat.zero_add]

theorem fprod_eq {p : Nat} (hp : 1 < p) (v : List Nat) : fprod p v = v.prod % p := by
  have key : ∀ a, v.foldl (fmul p) a % p = a * v.prod % p := by
    induction v with
    | nil => simp
    | cons x v ih => intro a; rw [List.foldl_cons, ih, List.prod_cons, fmul]; simp [Nat.mul_assoc, Nat.mod_mul_mod]
  rw [← Nat.mod_eq_of_lt (fprod_lt hp v), fprod, key, Nat.one_mul]

theorem fdot_eq {p : Nat} (hp : 0 < p) (u v : List Nat) :
    fdot p u v = ((u.zip v).map fun ab => ab.1 * ab.2).sum % p := by
  have key : ∀ (l : List (Nat × Nat)) (a : Nat),
      l.foldl (fun acc ab => fadd p acc (fmul p ab.1 ab.2)) a % p =
        (a + (l.map fun ab => ab.1 * ab.2).sum) % p := by
    intro l
    induction l with
    | nil => simp
    | cons x l ih =>
      intro a
      rw [List.foldl_cons, ih, List.map_cons, List.sum_cons, fadd, fmul]
      simp [Nat.add_assoc]
  rw [← Nat.mod_eq_of_lt (fdot_lt hp u v), fdot, key, Nat.zero_add]

/-- The three adders of R112 to R114 compute the laws of R111 on canonical operands. -/
theorem addOnce_eq {p a b : Nat} (ha : a < p) (hb : b < p) : addOnce p a b = (a + b) % p := by
  unfold addOnce
  split
  · rw [Nat.mod_eq_sub_mod (by omega), Nat.mod_eq_of_lt (by omega)]
  · rw [Nat.mod_eq_of_lt (by omega)]

theorem subOnce_eq {p a b : Nat} (ha : a < p) (hb : b < p) :
    subOnce p a b = (((a : Int) - (b : Int)) % (p : Int)).toNat := by
  unfold subOnce
  split
  · rw [Int.emod_eq_of_lt (by omega) (by omega)]; omega
  · rw [← Int.add_emod_right, Int.emod_eq_of_lt (by omega) (by omega)]; omega

theorem negOnce_eq {p a : Nat} (ha : a < p) : negOnce p a = (p - a) % p := by
  unfold negOnce
  split
  · subst a; simp
  · rw [Nat.mod_eq_of_lt (by omega)]

/-! ### The partial functions: what they answer, and the one error of each -/

theorem finv_ok {p a v : Nat} (h : finv p a = .ok v) : a ≠ 0 ∧ v = invValue p a := by
  unfold finv at h
  split at h
  · cases h
  · cases h; exact ⟨‹_›, rfl⟩

theorem finv_error {p a : Nat} {e : ErrKind} (h : finv p a = .error e) : a = 0 ∧ e = .divZero := by
  unfold finv at h
  split at h
  · cases h; exact ⟨‹_›, rfl⟩
  · cases h

theorem tonelliLoop_lt {p : Nat} (hp : 0 < p) (fuel m c t r v : Nat) (hr : r < p)
    (h : tonelliLoop p fuel m c t r = .ok v) : v < p := by
  induction fuel generalizing m c t r with
  | zero => cases h
  | succ fuel ih =>
    simp only [tonelliLoop] at h
    split at h
    · cases h; exact hp
    · split at h
      · cases h; exact hr
      · split at h
        · cases h
        · exact ih _ _ _ _ (fmul_lt hp _ _) h

theorem tonelliLoop_error {p : Nat} (fuel m c t r : Nat) {e : ErrKind}
    (h : tonelliLoop p fuel m c t r = .error e) : e = .internal := by
  induction fuel generalizing m c t r with
  | zero => cases h; rfl
  | succ fuel ih =>
    simp only [tonelliLoop] at h
    split at h
    · cases h
    · split at h
      · cases h
      · split at h
        · cases h; rfl
        · exact ih _ _ _ _ h

/-- All that `fsqrt_f` can do: a canonical value, absent, or `E_INTERNAL` (R125, R127). -/
theorem fsqrt_cases {f : FieldCfg} (hp : 1 < f.p) (x : Nat) :
    (∃ v, fsqrt f x = .ok (some v) ∧ v < f.p) ∨ fsqrt f x = .ok none ∨ fsqrt f x = .error .internal := by
  unfold fsqrt
  simp only
  split
  · exact .inl ⟨0, rfl, by omega⟩
  · split
    · exact .inr (.inl rfl)
    · split
      · cases h : tonelliShanks f x with
        | error e => exact .inr (.inr (by rw [tonelliLoop_error _ _ _ _ _ h]; rfl))
        | ok v => exact .inl ⟨v, rfl, tonelliLoop_lt (by omega) _ _ _ _ _ v (fpow_lt hp _ _) h⟩
      · exact .inr (.inr rfl)

theorem fsqrt_error {f : FieldCfg} {x : Nat} {e : ErrKind} (h : fsqrt f x = .error e) : e = .internal := by
  unfold fsqrt at h
  simp only at h
  split at h
  · cases h
  · split at h
    · cases h
    · split at h
      · cases ht : tonelliShanks f x with
        | error e' => rw [ht] at h; cases h; exact tonelliLoop_error _ _ _ _ _ ht
        | ok v => rw [ht] at h; cases h
      · cases h; rfl

/-! ### Sizes (00_scope.md R7 clause 6) -/

theorem lt_two_pow_bitlen (v : Nat) : v < 2 ^ bitlen v := by
  unfold bitlen
  split
  · subst v; simp
  · exact Nat.lt_log2_self

/-- A modulus is below `256^BL`. -/
theorem FieldCfg.p_lt (f : FieldCfg) : f.p < 256 ^ f.byteLen := by
  have h := lt_two_pow_bitlen f.p
  have h2 : bitlen f.p ≤ 8 * f.byteLen := by simp only [FieldCfg.byteLen, FieldCfg.bits]; omega
  calc f.p < 2 ^ bitlen f.p := h
    _ ≤ 2 ^ (8 * f.byteLen) := Nat.pow_le_pow_right (by omega) h2
    _ = 256 ^ f.byteLen := by rw [Nat.pow_mul]

theorem FieldOk.two_lt {f : FieldCfg} (h : FieldOk f) : 2 < f.p :=
  Nat.lt_of_le_of_ne h.prime.two_le (Ne.symm h.odd)

theorem CfgOk.fieldOk {c : Cfg} (h : CfgOk c) (f : FieldSel) : FieldOk (c.field f) := by
  cases f
  · exact h.bfOk
  · exact h.sfOk

/-- Every canonical element fits an element register. -/
theorem CfgOk.fits {c : Cfg} (h : CfgOk c) (f : FieldSel) {v : Nat} (hv : v < (c.field f).p) :
    v < 2 ^ c.regw := by
  have hb : 8 * (c.field f).byteLen ≤ c.regw := by
    cases f
    · exact h.sizes.bf_fits
    · exact h.sizes.sf_fits
  calc v < (c.field f).p := hv
    _ < 256 ^ (c.field f).byteLen := FieldCfg.p_lt _
    _ = 2 ^ (8 * (c.field f).byteLen) := by rw [Nat.pow_mul]
    _ ≤ 2 ^ c.regw := Nat.pow_le_pow_right (by omega) hb

end Sys2Proof.Machine
end

