-- ==== Sys2Proof/Laws/Curve.lean ====
section
/-! SUPPORT. What the curve functions can answer, said once (42_curve.md R161 to R176): a canonical pair or
`E_DIVZERO`, and what one step of each ladder does. -/

namespace Sys2Proof.Machine

/-- Both coordinates are canonical in the base field (42_curve.md R160). -/
def CanonPoint (c : Cfg) (P : Point) : Prop := P.x < c.bf.p ∧ P.y < c.bf.p

/-- All that `padd` can do. -/
theorem padd_cases (c : Cfg) (hp : 0 < c.bf.p) (P Q : Point) :
    (∃ R, padd c P Q = .ok R ∧ CanonPoint c R) ∨ padd c P Q = .error .divZero := by
  unfold padd
  simp only
  split
  · exact .inr rfl
  · exact .inl ⟨_, rfl, fmul_lt hp _ _, fmul_lt hp _ _⟩

theorem padd_canon {c : Cfg} (hp : 0 < c.bf.p) {P Q R : Point} (h : padd c P Q = .ok R) :
    CanonPoint c R := by
  rcases padd_cases c hp P Q with ⟨R', h', hR⟩ | h'
  · rw [h] at h'; cases h'; exact hR
  · rw [h] at h'; cases h'

theorem padd_error {c : Cfg} {P Q : Point} {e : ErrKind} (h : padd c P Q = .error e) : e = .divZero := by
  unfold padd at h
  simp only at h
  split at h
  · cases h; rfl
  · cases h

theorem neutral_canon {c : Cfg} (hp : 1 < c.bf.p) : CanonPoint c neutral :=
  ⟨Nat.zero_lt_of_lt hp, hp⟩

/-- The select answers its first value for 1 and its second for 0 (R164). -/
theorem blend_toNat {p : Nat} (hp : 1 < p) (b : Bool) {u v : Nat} (hu : u < p) (hv : v < p) :
    blend p b.toNat u v = if b then u else v := by
  have h1 : (1 + (p - 1)) % p = 0 := by rw [show 1 + (p - 1) = p by omega, Nat.mod_self]
  have h2 : (1 + p) % p = 1 := by rw [Nat.add_mod_right, Nat.mod_eq_of_lt hp]
  cases b
  · simp [blend, fadd, fmul, fsub, h2, Nat.mod_eq_of_lt hv]
  · simp [blend, fadd, fmul, fsub, h1, Nat.mod_eq_of_lt hu]

/-- One step of the constant-time ladder that answers: the double and the sum both exist, and the scalar's
bit selects one of them (R171). -/
theorem ladderCtFrom_succ_ok {c : Cfg} (hp : 1 < c.bf.p) {P R acc : Point} {k i : Nat}
    (h : ladderCtFrom c P k (i + 1) acc = .ok R) :
    ∃ dbl sum, padd c acc acc = .ok dbl ∧ padd c dbl P = .ok sum ∧
      ladderCtFrom c P k i (if k.testBit i then sum else dbl) = .ok R := by
  simp only [ladderCtFrom] at h
  split at h
  · cases h
  · next dbl hd =>
    split at h
    · cases h
    · next sum hs =>
      have c1 := padd_canon (Nat.zero_lt_of_lt hp) hd
      have c2 := padd_canon (Nat.zero_lt_of_lt hp) hs
      rw [blend_toNat hp _ c2.1 c1.1, blend_toNat hp _ c2.2 c1.2] at h
      refine ⟨dbl, sum, hd, hs, ?_⟩
      cases hb : k.testBit i <;> simpa [hb] using h

/-- One step of the constant-time ladder, given its double and its sum (R171). -/
theorem ladderCtFrom_succ {c : Cfg} (hp : 1 < c.bf.p) {P acc dbl sum : Point} {k i : Nat}
    (hd : padd c acc acc = .ok dbl) (hs : padd c dbl P = .ok sum) :
    ladderCtFrom c P k (i + 1) acc = ladderCtFrom c P k i (if k.testBit i then sum else dbl) := by
  have c1 := padd_canon (Nat.zero_lt_of_lt hp) hd
  have c2 := padd_canon (Nat.zero_lt_of_lt hp) hs
  simp only [ladderCtFrom, pdbl, hd, hs]
  rw [blend_toNat hp _ c2.1 c1.1, blend_toNat hp _ c2.2 c1.2]
  cases k.testBit i <;> rfl

theorem ladderCtFrom_error {c : Cfg} {P : Point} {k : Nat} (i : Nat) (acc : Point) {e : ErrKind}
    (h : ladderCtFrom c P k i acc = .error e) : e = .divZero := by
  induction i generalizing acc with
  | zero => cases h
  | succ i ih =>
    simp only [ladderCtFrom] at h
    split at h
    · cases h; exact padd_error ‹_›
    · split at h
      · cases h; exact padd_error ‹_›
      · exact ih _ h

theorem ladderCtFrom_canon {c : Cfg} (hp : 0 < c.bf.p) {P R : Point} {k : Nat} (i : Nat) (acc : Point)
    (ha : CanonPoint c acc) (h : ladderCtFrom c P k i acc = .ok R) : CanonPoint c R := by
  induction i generalizing acc with
  | zero => cases h; exact ha
  | succ i ih =>
    simp only [ladderCtFrom] at h
    split at h
    · cases h
    · split at h
      · cases h
      · exact ih _ ⟨fadd_lt hp _ _, fadd_lt hp _ _⟩ h

theorem ladderVtFrom_error {c : Cfg} {P : Point} {k : Nat} (i : Nat) (acc : Point) {e : ErrKind}
    (h : ladderVtFrom c P k i acc = .error e) : e = .divZero := by
  induction i generalizing acc with
  | zero => cases h
  | succ i ih =>
    simp only [ladderVtFrom] at h
    split at h
    · cases h; exact padd_error ‹_›
    · split at h
      · split at h
        · cases h; exact padd_error ‹_›
        · exact ih _ h
      · exact ih _ h

theorem ladderVtFrom_canon {c : Cfg} (hp : 0 < c.bf.p) {P R : Point} {k : Nat} (i : Nat) (acc : Point)
    (ha : CanonPoint c acc) (h : ladderVtFrom c P k i acc = .ok R) : CanonPoint c R := by
  induction i generalizing acc with
  | zero => cases h; exact ha
  | succ i ih =>
    simp only [ladderVtFrom] at h
    split at h
    · cases h
    · next hd =>
      split at h
      · split at h
        · cases h
        · next hs => exact ih _ (padd_canon hp hs) h
      · exact ih _ (padd_canon hp hd) h

theorem ladderCt_canon {c : Cfg} (hp : 1 < c.bf.p) {P R : Point} {k : Nat} (h : ladderCt c P k = .ok R) :
    CanonPoint c R := ladderCtFrom_canon (Nat.zero_lt_of_lt hp) _ _ (neutral_canon hp) h

theorem ladderVt_canon {c : Cfg} (hp : 1 < c.bf.p) {P R : Point} {k : Nat} (h : ladderVt c P k = .ok R) :
    CanonPoint c R := ladderVtFrom_canon (Nat.zero_lt_of_lt hp) _ _ (neutral_canon hp) h

theorem ladderCt_error {c : Cfg} {P : Point} {k : Nat} {e : ErrKind} (h : ladderCt c P k = .error e) :
    e = .divZero := ladderCtFrom_error _ _ h

theorem ladderVt_error {c : Cfg} {P : Point} {k : Nat} {e : ErrKind} (h : ladderVt c P k = .error e) :
    e = .divZero := ladderVtFrom_error _ _ h

theorem inSubgroup_error {c : Cfg} {P : Point} {e : ErrKind} (h : inSubgroup c P = .error e) :
    e = .divZero := by
  unfold inSubgroup at h
  split at h
  · cases hl : ladderCt c P c.subOrder with
    | error e' => rw [hl] at h; cases h; exact ladderCt_error hl
    | ok Q => rw [hl] at h; cases h
  · cases h

end Sys2Proof.Machine
end

