-- ==== Sys2Proof/Laws/Decode.lean ====
section
/-! SUPPORT. The fields of a word that the encoder lays out (30_encoding.md R81): each field of `mkWord`
and of `mkWordB` is read back as it was written. -/

namespace Sys2Proof

theorem FieldSel.bit_lt (f : FieldSel) : f.bit < 2 := by cases f <;> decide

theorem FieldSel.of_bit (f : FieldSel) : (if f.bit = 0 then FieldSel.bf else FieldSel.sf) = f := by
  cases f <;> rfl

theorem ConstId.cid_lt (c : ConstId) : c.cid < 256 := by cases c <;> decide

theorem PointConstId.cid_lt (c : PointConstId) : c.cid < 256 := by cases c <;> decide

@[simp] theorem constOfCid_cid (c : ConstId) : constOfCid c.cid = some c := by cases c <;> rfl

@[simp] theorem pointConstOfCid_cid (c : PointConstId) : pointConstOfCid c.cid = some c := by
  cases c <;> rfl

/-- A word of the register layout whose fields are in range. -/
structure RegFields (op f rd ra rb imm : Nat) : Prop where
  op : op < 256
  f : f < 2
  rd : rd < 16
  ra : ra < 16
  rb : rb < 16
  imm : imm < 256

/-- A word of the buffer layout whose fields are in range. -/
structure BufFields (op f rd off len : Nat) : Prop where
  op : op < 256
  f : f < 2
  rd : rd < 16
  off : off < 256
  len : len < 256

section mkWord
variable {op f rd ra rb imm off len : Nat}

theorem mkWord_toNat (h : RegFields op f rd ra rb imm) :
    (mkWord op f rd ra rb imm).toNat =
      op * 2 ^ 24 + f * 2 ^ 23 + rd * 2 ^ 16 + ra * 2 ^ 12 + rb * 2 ^ 8 + imm := by
  obtain ⟨h1, h2, h3, h4, h5, h6⟩ := h
  simp only [mkWord, BitVec.toNat_ofNat]
  omega

theorem mkWordB_toNat (h : BufFields op f rd off len) :
    (mkWordB op f rd off len).toNat = op * 2 ^ 24 + f * 2 ^ 23 + rd * 2 ^ 16 + off * 2 ^ 8 + len := by
  obtain ⟨h1, h2, h3, h4, h5⟩ := h
  simp only [mkWordB, BitVec.toNat_ofNat]
  omega

theorem opOf_mkWord (h : RegFields op f rd ra rb imm) : opOf (mkWord op f rd ra rb imm) = op := by
  obtain ⟨h1, h2, h3, h4, h5, h6⟩ := id h
  simp only [opOf, bits, mkWord_toNat h]; omega

theorem rsvOf_mkWord (h : RegFields op f rd ra rb imm) : rsvOf (mkWord op f rd ra rb imm) = 0 := by
  obtain ⟨h1, h2, h3, h4, h5, h6⟩ := id h
  simp only [rsvOf, bits, mkWord_toNat h]; omega

theorem fBitOf_mkWord (h : RegFields op f rd ra rb imm) : fBitOf (mkWord op f rd ra rb imm) = f := by
  obtain ⟨h1, h2, h3, h4, h5, h6⟩ := id h
  simp only [fBitOf, bits, mkWord_toNat h]; omega

theorem bits_rd_mkWord (h : RegFields op f rd ra rb imm) : bits (mkWord op f rd ra rb imm) 16 4 = rd := by
  obtain ⟨h1, h2, h3, h4, h5, h6⟩ := id h
  simp only [bits, mkWord_toNat h]; omega

theorem bits_ra_mkWord (h : RegFields op f rd ra rb imm) : bits (mkWord op f rd ra rb imm) 12 4 = ra := by
  obtain ⟨h1, h2, h3, h4, h5, h6⟩ := id h
  simp only [bits, mkWord_toNat h]; omega

theorem bits_rb_mkWord (h : RegFields op f rd ra rb imm) : bits (mkWord op f rd ra rb imm) 8 4 = rb := by
  obtain ⟨h1, h2, h3, h4, h5, h6⟩ := id h
  simp only [bits, mkWord_toNat h]; omega

theorem bits_raRb_mkWord (h : RegFields op f rd ra rb imm) :
    bits (mkWord op f rd ra rb imm) 8 8 = ra * 16 + rb := by
  obtain ⟨h1, h2, h3, h4, h5, h6⟩ := id h
  simp only [bits, mkWord_toNat h]; omega

theorem bits_na_mkWord (h : RegFields op f rd ra rb imm) :
    bits (mkWord op f rd ra rb imm) 4 4 = imm / 16 := by
  obtain ⟨h1, h2, h3, h4, h5, h6⟩ := id h
  simp only [bits, mkWord_toNat h]; omega

theorem bits_nb_mkWord (h : RegFields op f rd ra rb imm) :
    bits (mkWord op f rd ra rb imm) 0 4 = imm % 16 := by
  obtain ⟨h1, h2, h3, h4, h5, h6⟩ := id h
  simp only [bits, mkWord_toNat h]; omega

theorem imm8Of_mkWord (h : RegFields op f rd ra rb imm) : imm8Of (mkWord op f rd ra rb imm) = imm := by
  obtain ⟨h1, h2, h3, h4, h5, h6⟩ := id h
  simp only [imm8Of, bits, mkWord_toNat h]; omega

theorem bits_rbImm_mkWord (h : RegFields op f rd ra rb imm) :
    bits (mkWord op f rd ra rb imm) 0 12 = rb * 256 + imm := by
  obtain ⟨h1, h2, h3, h4, h5, h6⟩ := id h
  simp only [bits, mkWord_toNat h]; omega

theorem bits_low20_mkWord (h : RegFields op f rd ra rb imm) :
    bits (mkWord op f rd ra rb imm) 0 20 = rd * 2 ^ 16 + ra * 2 ^ 12 + rb * 2 ^ 8 + imm := by
  obtain ⟨h1, h2, h3, h4, h5, h6⟩ := id h
  simp only [bits, mkWord_toNat h]; omega

theorem opOf_mkWordB (h : BufFields op f rd off len) : opOf (mkWordB op f rd off len) = op := by
  obtain ⟨h1, h2, h3, h4, h5⟩ := id h
  simp only [opOf, bits, mkWordB_toNat h]; omega

theorem rsvOf_mkWordB (h : BufFields op f rd off len) : rsvOf (mkWordB op f rd off len) = 0 := by
  obtain ⟨h1, h2, h3, h4, h5⟩ := id h
  simp only [rsvOf, bits, mkWordB_toNat h]; omega

theorem fBitOf_mkWordB (h : BufFields op f rd off len) : fBitOf (mkWordB op f rd off len) = f := by
  obtain ⟨h1, h2, h3, h4, h5⟩ := id h
  simp only [fBitOf, bits, mkWordB_toNat h]; omega

theorem bits_rd_mkWordB (h : BufFields op f rd off len) : bits (mkWordB op f rd off len) 16 4 = rd := by
  obtain ⟨h1, h2, h3, h4, h5⟩ := id h
  simp only [bits, mkWordB_toNat h]; omega

theorem bits_off_mkWordB (h : BufFields op f rd off len) : bits (mkWordB op f rd off len) 8 8 = off := by
  obtain ⟨h1, h2, h3, h4, h5⟩ := id h
  simp only [bits, mkWordB_toNat h]; omega

theorem imm8Of_mkWordB (h : BufFields op f rd off len) : imm8Of (mkWordB op f rd off len) = len := by
  obtain ⟨h1, h2, h3, h4, h5⟩ := id h
  simp only [imm8Of, bits, mkWordB_toNat h]; omega

end mkWord

@[simp] theorem idx_ofNat_val (i : Idx) : Fin.ofNat 16 i.val = i := by
  apply Fin.ext; simp [Fin.ofNat, Nat.mod_eq_of_lt i.isLt]

/-! ### Each format reads back the operands its word was made of (30_encoding.md R82) -/

theorem decode_mkWord {op fb a b c imm : Nat} (h : RegFields op fb a b c imm) :
    decode (mkWord op fb a b c imm) = decodeOp (mkWord op fb a b c imm) op := by
  simp [decode, rsvOf_mkWord h, opOf_mkWord h]

theorem decode_mkWordB {op fb a o l : Nat} (h : BufFields op fb a o l) :
    decode (mkWordB op fb a o l) = decodeOp (mkWordB op fb a o l) op := by
  simp [decode, rsvOf_mkWordB h, opOf_mkWordB h]

section formats
variable {op : Nat} (hop : op < 256) (f : FieldSel) (rd ra rb n m : Idx) (off len : BitVec 8)
include hop

theorem regFields {imm : Nat} (h : imm < 256) : RegFields op f.bit rd ra rb imm :=
  ⟨hop, f.bit_lt, rd.isLt, ra.isLt, rb.isLt, h⟩

theorem bufFields : BufFields op f.bit rd off.toNat len.toNat :=
  ⟨hop, f.bit_lt, rd.isLt, off.isLt, len.isLt⟩

theorem fmtZ_mkWord (i : Instr) : fmtZ (mkWord op 0 0 0 0 0) i = .ok i := by
  have h : RegFields op 0 0 0 0 0 := ⟨hop, by omega, by omega, by omega, by omega, by omega⟩
  simp [fmtZ, needF0, bits_low20_mkWord h, fBitOf_mkWord h]

theorem fmtR3_mkWord (mk : FieldSel → Idx → Idx → Idx → Instr) :
    fmtR3 (mkWord op f.bit rd ra rb 0) mk = .ok (mk f rd ra rb) := by
  have h := regFields hop f rd ra rb (imm := 0) (by omega)
  simp [fmtR3, fieldOf, fBitOf_mkWord h, FieldSel.of_bit, imm8Of_mkWord h, rdOf, raOf, rbOf,
    bits_rd_mkWord h, bits_ra_mkWord h, bits_rb_mkWord h]

theorem fmtR3P_mkWord (mk : Idx → Idx → Idx → Instr) :
    fmtR3P (mkWord op 0 rd ra rb 0) mk = .ok (mk rd ra rb) := by
  have h := regFields hop .bf rd ra rb (imm := 0) (by omega)
  simp only [FieldSel.bit] at h
  simp [fmtR3P, needF0, fBitOf_mkWord h, imm8Of_mkWord h, rdOf, raOf, rbOf, bits_rd_mkWord h,
    bits_ra_mkWord h, bits_rb_mkWord h]

theorem fmtR2_mkWord (mk : FieldSel → Idx → Idx → Instr) :
    fmtR2 (mkWord op f.bit rd ra 0 0) mk = .ok (mk f rd ra) := by
  have h := regFields hop f rd ra 0 (imm := 0) (by omega)
  simp only [Fin.val_zero] at h
  simp [fmtR2, fieldOf, fBitOf_mkWord h, FieldSel.of_bit, bits_rbImm_mkWord h, rdOf, raOf,
    bits_rd_mkWord h, bits_ra_mkWord h]

theorem fmtR2P_mkWord (mk : Idx → Idx → Instr) :
    fmtR2P (mkWord op 0 rd ra 0 0) mk = .ok (mk rd ra) := by
  have h := regFields hop .bf rd ra 0 (imm := 0) (by omega)
  simp only [FieldSel.bit, Fin.val_zero] at h
  simp [fmtR2P, needF0, fBitOf_mkWord h, bits_rbImm_mkWord h, rdOf, raOf, bits_rd_mkWord h,
    bits_ra_mkWord h]

theorem fmtR1_mkWord (mk : Idx → Instr) : fmtR1 (mkWord op 0 0 ra 0 0) mk = .ok (mk ra) := by
  have h := regFields hop .bf 0 ra 0 (imm := 0) (by omega)
  simp only [FieldSel.bit, Fin.val_zero] at h
  simp [fmtR1, needF0, fBitOf_mkWord h, bits_rbImm_mkWord h, raOf, bits_rd_mkWord h, bits_ra_mkWord h]

theorem fmtV1_mkWord (mk : FieldSel → Idx → Idx → Idx → Instr) :
    fmtV1 (mkWord op f.bit rd ra 0 (n.val * 16)) mk = .ok (mk f rd ra n) := by
  have h := regFields hop f rd ra 0 (imm := n.val * 16) (by omega)
  simp only [Fin.val_zero] at h
  simp [fmtV1, fieldOf, fBitOf_mkWord h, FieldSel.of_bit, bits_rb_mkWord h, bits_nb_mkWord h, rdOf,
    raOf, naOf, bits_rd_mkWord h, bits_ra_mkWord h, bits_na_mkWord h]

theorem fmtV2_mkWord (mk : FieldSel → Idx → Idx → Idx → Idx → Idx → Instr) :
    fmtV2 (mkWord op f.bit rd ra rb (n.val * 16 + m.val)) mk = .ok (mk f rd ra n rb m) := by
  have h := regFields hop f rd ra rb (imm := n.val * 16 + m.val) (by omega)
  have hn : (n.val * 16 + m.val) / 16 = n.val := by omega
  have hm : (n.val * 16 + m.val) % 16 = m.val := by omega
  simp [fmtV2, fieldOf, fBitOf_mkWord h, FieldSel.of_bit, rdOf, raOf, rbOf, naOf, nbOf,
    bits_rd_mkWord h, bits_ra_mkWord h, bits_rb_mkWord h, bits_na_mkWord h, bits_nb_mkWord h, hn, hm]

theorem fmtBL_mkWordB (mk : FieldSel → Idx → BitVec 8 → BitVec 8 → Instr) :
    fmtBL (mkWordB op f.bit rd off.toNat len.toNat) mk = .ok (mk f rd off len) := by
  have h := bufFields hop f rd off len
  simp [fmtBL, fieldOf, fBitOf_mkWordB h, FieldSel.of_bit, rdOf, bits_rd_mkWordB h, off8Of, len8Of,
    bits_off_mkWordB h, show bits _ 0 8 = _ from imm8Of_mkWordB h]

theorem fmtBLP_mkWordB (mk : Idx → BitVec 8 → BitVec 8 → Instr) :
    fmtBLP (mkWordB op 0 rd off.toNat len.toNat) mk = .ok (mk rd off len) := by
  have h := bufFields hop .bf rd off len
  simp only [FieldSel.bit] at h
  simp [fmtBLP, needF0, fBitOf_mkWordB h, rdOf, bits_rd_mkWordB h, off8Of, len8Of,
    bits_off_mkWordB h, show bits _ 0 8 = _ from imm8Of_mkWordB h]

theorem fmtBS_mkWordB (mk : FieldSel → Idx → BitVec 8 → Instr) :
    fmtBS (mkWordB op f.bit rd off.toNat 0) mk = .ok (mk f rd off) := by
  have h : BufFields op f.bit rd off.toNat 0 := ⟨hop, f.bit_lt, rd.isLt, off.isLt, by omega⟩
  simp [fmtBS, fieldOf, fBitOf_mkWordB h, FieldSel.of_bit, imm8Of_mkWordB h, rdOf, bits_rd_mkWordB h,
    off8Of, bits_off_mkWordB h]

theorem fmtBSP_mkWordB (mk : Idx → BitVec 8 → Instr) :
    fmtBSP (mkWordB op 0 rd off.toNat 0) mk = .ok (mk rd off) := by
  have h : BufFields op 0 rd off.toNat 0 := ⟨hop, by omega, rd.isLt, off.isLt, by omega⟩
  simp [fmtBSP, needF0, fBitOf_mkWordB h, imm8Of_mkWordB h, rdOf, bits_rd_mkWordB h, off8Of,
    bits_off_mkWordB h]

end formats

theorem fmtLdc_mkWord (f : FieldSel) (rd : Idx) (cid : ConstId) (hw : cid.allows f = true) :
    fmtLdc (mkWord 0x06 f.bit rd 0 0 cid.cid) = .ok (.ldc f rd cid) := by
  have h := regFields (op := 0x06) (by omega) f rd 0 0 cid.cid_lt
  simp only [Fin.val_zero] at h
  simp [fmtLdc, bits_raRb_mkWord h, imm8Of_mkWord h, fieldOf, fBitOf_mkWord h, FieldSel.of_bit, hw,
    rdOf, bits_rd_mkWord h]

theorem fmtPldc_mkWord (d : Idx) (cid : PointConstId) :
    fmtPldc (mkWord 0x07 0 d 0 0 cid.cid) = .ok (.pldc d cid) := by
  have h := regFields (op := 0x07) (by omega) .bf d 0 0 cid.cid_lt
  simp only [Fin.val_zero, FieldSel.bit] at h
  simp [fmtPldc, needF0, bits_raRb_mkWord h, imm8Of_mkWord h, fBitOf_mkWord h, rdOf, bits_rd_mkWord h]

/-! ### The opcode map, row by row (30_encoding.md R89) -/

theorem decodeOp_nop (w : Word) : decodeOp w 0x01 = fmtZ w Instr.nop := rfl
theorem decodeOp_zeroize (w : Word) : decodeOp w 0x02 = fmtZ w Instr.zeroize := rfl
theorem decodeOp_mov (w : Word) : decodeOp w 0x04 = fmtR2P w Instr.mov := rfl
theorem decodeOp_pmov (w : Word) : decodeOp w 0x05 = fmtR2P w Instr.pmov := rfl
theorem decodeOp_ldc (w : Word) : decodeOp w 0x06 = fmtLdc w := rfl
theorem decodeOp_pldc (w : Word) : decodeOp w 0x07 = fmtPldc w := rfl
theorem decodeOp_fadd (w : Word) : decodeOp w 0x10 = fmtR3 w Instr.fadd := rfl
theorem decodeOp_fsub (w : Word) : decodeOp w 0x11 = fmtR3 w Instr.fsub := rfl
theorem decodeOp_fneg (w : Word) : decodeOp w 0x12 = fmtR2 w Instr.fneg := rfl
theorem decodeOp_fmul (w : Word) : decodeOp w 0x13 = fmtR3 w Instr.fmul := rfl
theorem decodeOp_fsqr (w : Word) : decodeOp w 0x14 = fmtR2 w Instr.fsqr := rfl
theorem decodeOp_finv (w : Word) : decodeOp w 0x15 = fmtR2 w Instr.finv := rfl
theorem decodeOp_finvz (w : Word) : decodeOp w 0x16 = fmtR2 w Instr.finvz := rfl
theorem decodeOp_fdiv (w : Word) : decodeOp w 0x17 = fmtR3 w Instr.fdiv := rfl
theorem decodeOp_fdivz (w : Word) : decodeOp w 0x18 = fmtR3 w Instr.fdivz := rfl
theorem decodeOp_fpow (w : Word) : decodeOp w 0x19 = fmtR3 w Instr.fpow := rfl
theorem decodeOp_fleg (w : Word) : decodeOp w 0x1A = fmtR2 w Instr.fleg := rfl
theorem decodeOp_fsqrt (w : Word) : decodeOp w 0x1B = fmtR2 w Instr.fsqrt := rfl
theorem decodeOp_fsum (w : Word) : decodeOp w 0x1C = fmtV1 w Instr.fsum := rfl
theorem decodeOp_fprod (w : Word) : decodeOp w 0x1D = fmtV1 w Instr.fprod := rfl
theorem decodeOp_fdot (w : Word) : decodeOp w 0x1E = fmtV2 w Instr.fdot := rfl
theorem decodeOp_ffromb (w : Word) : decodeOp w 0x20 = fmtBL w Instr.ffromb := rfl
theorem decodeOp_ftob (w : Word) : decodeOp w 0x21 = fmtBS w Instr.ftob := rfl
theorem decodeOp_fent (w : Word) : decodeOp w 0x22 = fmtBL w Instr.fent := rfl
theorem decodeOp_pfromb (w : Word) : decodeOp w 0x28 = fmtBLP w Instr.pfromb := rfl
theorem decodeOp_ptob (w : Word) : decodeOp w 0x29 = fmtBSP w Instr.ptob := rfl
theorem decodeOp_padd (w : Word) : decodeOp w 0x30 = fmtR3P w Instr.padd := rfl
theorem decodeOp_pdbl (w : Word) : decodeOp w 0x31 = fmtR2P w Instr.pdbl := rfl
theorem decodeOp_pneg (w : Word) : decodeOp w 0x32 = fmtR2P w Instr.pneg := rfl
theorem decodeOp_ponc (w : Word) : decodeOp w 0x33 = fmtR1 w Instr.ponc := rfl
theorem decodeOp_pinsg (w : Word) : decodeOp w 0x34 = fmtR1 w Instr.pinsg := rfl
theorem decodeOp_smul (w : Word) : decodeOp w 0x35 = fmtR3P w Instr.smul := rfl
theorem decodeOp_smulvt (w : Word) : decodeOp w 0x36 = fmtR3P w Instr.smulvt := rfl

/-! ### A word is the word of its fields (30_encoding.md R81) -/

@[simp] theorem rdOf_val (w : Word) : (rdOf w).val = bits w 16 4 := by
  simp only [rdOf, Fin.ofNat, bits]; omega

@[simp] theorem raOf_val (w : Word) : (raOf w).val = bits w 12 4 := by
  simp only [raOf, Fin.ofNat, bits]; omega

@[simp] theorem rbOf_val (w : Word) : (rbOf w).val = bits w 8 4 := by
  simp only [rbOf, Fin.ofNat, bits]; omega

@[simp] theorem naOf_val (w : Word) : (naOf w).val = bits w 4 4 := by
  simp only [naOf, Fin.ofNat, bits]; omega

@[simp] theorem nbOf_val (w : Word) : (nbOf w).val = bits w 0 4 := by
  simp only [nbOf, Fin.ofNat, bits]; omega

@[simp] theorem off8Of_toNat (w : Word) : (off8Of w).toNat = bits w 8 8 := by
  simp only [off8Of, BitVec.toNat_ofNat, bits]; omega

@[simp] theorem len8Of_toNat (w : Word) : (len8Of w).toNat = bits w 0 8 := by
  simp only [len8Of, BitVec.toNat_ofNat, bits]; omega

@[simp] theorem fieldOf_bit (w : Word) : (fieldOf w).bit = fBitOf w := by
  have h : fBitOf w < 2 := by simp only [fBitOf, bits]; omega
  unfold fieldOf
  split
  · next h0 => simp [FieldSel.bit, h0]
  · next h0 => simp only [FieldSel.bit]; omega

theorem mkWord_fields (w : Word) (h : rsvOf w = 0) :
    mkWord (opOf w) (fBitOf w) (bits w 16 4) (bits w 12 4) (bits w 8 4) (bits w 0 8) = w := by
  apply BitVec.eq_of_toNat_eq
  have := w.isLt
  simp only [rsvOf, opOf, fBitOf, bits] at *
  simp only [mkWord, BitVec.toNat_ofNat]
  omega

theorem mkWordB_fields (w : Word) (h : rsvOf w = 0) :
    mkWordB (opOf w) (fBitOf w) (bits w 16 4) (bits w 8 8) (bits w 0 8) = w := by
  apply BitVec.eq_of_toNat_eq
  have := w.isLt
  simp only [rsvOf, opOf, fBitOf, bits] at *
  simp only [mkWordB, BitVec.toNat_ofNat]
  omega

/-- The low fields that a must-be-zero range covers are 0 with it. -/
theorem bits_low12 (w : Word) : bits w 0 12 = bits w 8 4 * 256 + bits w 0 8 := by
  simp only [bits]; omega

theorem bits_low20 (w : Word) :
    bits w 0 20 = bits w 16 4 * 2 ^ 16 + bits w 12 4 * 2 ^ 12 + bits w 8 4 * 256 + bits w 0 8 := by
  simp only [bits]; omega

theorem bits_low8 (w : Word) : bits w 0 8 = bits w 4 4 * 16 + bits w 0 4 := by
  simp only [bits]; omega

theorem bits_mid8 (w : Word) : bits w 8 8 = bits w 12 4 * 16 + bits w 8 4 := by
  simp only [bits]; omega

/-- A `CID` that names a constant of `LDC` is that constant's. -/
theorem constOfCid_eq_some {n : Nat} {c : ConstId} (h : constOfCid n = some c) : c.cid = n := by
  unfold constOfCid at h
  split at h <;> first | (cases h; rfl) | cases h

/-- A `CID` that names a point of `PLDC` is that point's. -/
theorem pointConstOfCid_eq_some {n : Nat} {c : PointConstId} (h : pointConstOfCid n = some c) :
    c.cid = n := by
  unfold pointConstOfCid at h
  split at h <;> first | (cases h; rfl) | cases h

end Sys2Proof
end

