-- ==== Sys2Proof/Laws/State.lean ====
section
/-! SUPPORT. One lemma per field per update of `State`, each true by `rfl`, so that no later proof unfolds
a record update. -/

namespace Sys2Proof.Machine

/-! ### `setReg` -/

@[simp] theorem setReg_cfg (s : State) (n v : Nat) : (s.setReg n v).cfg = s.cfg := rfl
@[simp] theorem setReg_regs (s : State) (n v : Nat) : (s.setReg n v).regs = s.regs.setIfInBounds n v := rfl
@[simp] theorem setReg_buf (s : State) (n v : Nat) : (s.setReg n v).buf = s.buf := rfl
@[simp] theorem setReg_cmd (s : State) (n v : Nat) : (s.setReg n v).cmd = s.cmd := rfl
@[simp] theorem setReg_busy (s : State) (n v : Nat) : (s.setReg n v).busy = s.busy := rfl
@[simp] theorem setReg_done (s : State) (n v : Nat) : (s.setReg n v).done = s.done := rfl
@[simp] theorem setReg_err (s : State) (n v : Nat) : (s.setReg n v).err = s.err := rfl
@[simp] theorem setReg_absent (s : State) (n v : Nat) : (s.setReg n v).absent = s.absent := rfl
@[simp] theorem setReg_boolRes (s : State) (n v : Nat) : (s.setReg n v).boolRes = s.boolRes := rfl
@[simp] theorem setReg_errCode (s : State) (n v : Nat) : (s.setReg n v).errCode = s.errCode := rfl
@[simp] theorem setReg_inbox (s : State) (n v : Nat) : (s.setReg n v).inbox = s.inbox := rfl
@[simp] theorem setReg_replies (s : State) (n v : Nat) : (s.setReg n v).replies = s.replies := rfl

/-! ### `finish` -/

@[simp] theorem finish_cfg (s : State) (a b : Bool) : (finish s a b).cfg = s.cfg := rfl
@[simp] theorem finish_regs (s : State) (a b : Bool) : (finish s a b).regs = s.regs := rfl
@[simp] theorem finish_buf (s : State) (a b : Bool) : (finish s a b).buf = s.buf := rfl
@[simp] theorem finish_cmd (s : State) (a b : Bool) : (finish s a b).cmd = s.cmd := rfl
@[simp] theorem finish_busy (s : State) (a b : Bool) : (finish s a b).busy = false := rfl
@[simp] theorem finish_done (s : State) (a b : Bool) : (finish s a b).done = true := rfl
@[simp] theorem finish_err (s : State) (a b : Bool) : (finish s a b).err = s.err := rfl
@[simp] theorem finish_absent (s : State) (a b : Bool) : (finish s a b).absent = a := rfl
@[simp] theorem finish_boolRes (s : State) (a b : Bool) : (finish s a b).boolRes = b := rfl
@[simp] theorem finish_errCode (s : State) (a b : Bool) : (finish s a b).errCode = s.errCode := rfl
@[simp] theorem finish_inbox (s : State) (a b : Bool) : (finish s a b).inbox = s.inbox := rfl
@[simp] theorem finish_replies (s : State) (a b : Bool) : (finish s a b).replies = s.replies := rfl

/-! ### `raiseError` -/

@[simp] theorem raiseError_cfg (e : ErrKind) (s : State) : (raiseError e s).cfg = s.cfg := rfl
@[simp] theorem raiseError_regs (e : ErrKind) (s : State) : (raiseError e s).regs = s.regs := rfl
@[simp] theorem raiseError_buf (e : ErrKind) (s : State) : (raiseError e s).buf = s.buf := rfl
@[simp] theorem raiseError_cmd (e : ErrKind) (s : State) : (raiseError e s).cmd = s.cmd := rfl
@[simp] theorem raiseError_busy (e : ErrKind) (s : State) : (raiseError e s).busy = false := rfl
@[simp] theorem raiseError_done (e : ErrKind) (s : State) : (raiseError e s).done = true := rfl
@[simp] theorem raiseError_err (e : ErrKind) (s : State) : (raiseError e s).err = true := rfl
@[simp] theorem raiseError_absent (e : ErrKind) (s : State) : (raiseError e s).absent = false := rfl
@[simp] theorem raiseError_boolRes (e : ErrKind) (s : State) : (raiseError e s).boolRes = false := rfl
@[simp] theorem raiseError_errCode (e : ErrKind) (s : State) : (raiseError e s).errCode = e.code := rfl
@[simp] theorem raiseError_inbox (e : ErrKind) (s : State) : (raiseError e s).inbox = s.inbox := rfl
@[simp] theorem raiseError_replies (e : ErrKind) (s : State) : (raiseError e s).replies = s.replies := rfl

/-! ### `accept` -/

@[simp] theorem accept_cfg (s : State) (w : Word) : (accept s w).cfg = s.cfg := rfl
@[simp] theorem accept_regs (s : State) (w : Word) : (accept s w).regs = s.regs := rfl
@[simp] theorem accept_buf (s : State) (w : Word) : (accept s w).buf = s.buf := rfl
@[simp] theorem accept_cmd (s : State) (w : Word) : (accept s w).cmd = w := rfl
@[simp] theorem accept_busy (s : State) (w : Word) : (accept s w).busy = true := rfl
@[simp] theorem accept_done (s : State) (w : Word) : (accept s w).done = false := rfl
@[simp] theorem accept_err (s : State) (w : Word) : (accept s w).err = s.err := rfl
@[simp] theorem accept_absent (s : State) (w : Word) : (accept s w).absent = false := rfl
@[simp] theorem accept_boolRes (s : State) (w : Word) : (accept s w).boolRes = false := rfl
@[simp] theorem accept_errCode (s : State) (w : Word) : (accept s w).errCode = s.errCode := rfl
@[simp] theorem accept_inbox (s : State) (w : Word) : (accept s w).inbox = s.inbox := rfl
@[simp] theorem accept_replies (s : State) (w : Word) : (accept s w).replies = s.replies := rfl

/-! ### `resetCore` -/

@[simp] theorem resetCore_cfg (s : State) : (resetCore s).cfg = s.cfg := rfl
@[simp] theorem resetCore_regs (s : State) : (resetCore s).regs = Vector.replicate 16 0 := rfl
@[simp] theorem resetCore_buf (s : State) : (resetCore s).buf = [] := rfl
@[simp] theorem resetCore_cmd (s : State) : (resetCore s).cmd = 0 := rfl
@[simp] theorem resetCore_busy (s : State) : (resetCore s).busy = false := rfl
@[simp] theorem resetCore_done (s : State) : (resetCore s).done = false := rfl
@[simp] theorem resetCore_err (s : State) : (resetCore s).err = !constructOk s.cfg := rfl
@[simp] theorem resetCore_absent (s : State) : (resetCore s).absent = false := rfl
@[simp] theorem resetCore_boolRes (s : State) : (resetCore s).boolRes = false := rfl
@[simp] theorem resetCore_errCode (s : State) : (resetCore s).errCode = if constructOk s.cfg then 0x00 else 0x03 := rfl
@[simp] theorem resetCore_inbox (s : State) : (resetCore s).inbox = s.inbox := rfl
@[simp] theorem resetCore_replies (s : State) : (resetCore s).replies = s.replies := rfl

/-! ### `State.resetOf` -/

@[simp] theorem resetOf_cfg (c : Cfg) : (State.resetOf c).cfg = c := rfl
@[simp] theorem resetOf_regs (c : Cfg) : (State.resetOf c).regs = Vector.replicate 16 0 := rfl
@[simp] theorem resetOf_buf (c : Cfg) : (State.resetOf c).buf = [] := rfl
@[simp] theorem resetOf_cmd (c : Cfg) : (State.resetOf c).cmd = 0 := rfl
@[simp] theorem resetOf_busy (c : Cfg) : (State.resetOf c).busy = false := rfl
@[simp] theorem resetOf_done (c : Cfg) : (State.resetOf c).done = false := rfl
@[simp] theorem resetOf_err (c : Cfg) : (State.resetOf c).err = !constructOk c := rfl
@[simp] theorem resetOf_absent (c : Cfg) : (State.resetOf c).absent = false := rfl
@[simp] theorem resetOf_boolRes (c : Cfg) : (State.resetOf c).boolRes = false := rfl
@[simp] theorem resetOf_errCode (c : Cfg) : (State.resetOf c).errCode = if constructOk c then 0x00 else 0x03 := rfl
@[simp] theorem resetOf_inbox (c : Cfg) : (State.resetOf c).inbox = [] := rfl
@[simp] theorem resetOf_replies (c : Cfg) : (State.resetOf c).replies = [] := rfl

/-! ### The literal updates of a field -/

@[simp] theorem buf_update_cfg (s : State) (m : Memory) : ({ s with buf := m }).cfg = s.cfg := rfl
@[simp] theorem buf_update_regs (s : State) (m : Memory) : ({ s with buf := m }).regs = s.regs := rfl
@[simp] theorem buf_update_buf (s : State) (m : Memory) : ({ s with buf := m }).buf = m := rfl
@[simp] theorem buf_update_cmd (s : State) (m : Memory) : ({ s with buf := m }).cmd = s.cmd := rfl
@[simp] theorem buf_update_busy (s : State) (m : Memory) : ({ s with buf := m }).busy = s.busy := rfl
@[simp] theorem buf_update_done (s : State) (m : Memory) : ({ s with buf := m }).done = s.done := rfl
@[simp] theorem buf_update_err (s : State) (m : Memory) : ({ s with buf := m }).err = s.err := rfl
@[simp] theorem buf_update_absent (s : State) (m : Memory) : ({ s with buf := m }).absent = s.absent := rfl
@[simp] theorem buf_update_boolRes (s : State) (m : Memory) : ({ s with buf := m }).boolRes = s.boolRes := rfl
@[simp] theorem buf_update_errCode (s : State) (m : Memory) : ({ s with buf := m }).errCode = s.errCode := rfl
@[simp] theorem buf_update_inbox (s : State) (m : Memory) : ({ s with buf := m }).inbox = s.inbox := rfl
@[simp] theorem buf_update_replies (s : State) (m : Memory) : ({ s with buf := m }).replies = s.replies := rfl

@[simp] theorem inbox_update_cfg (s : State) (l : List Arrival) : ({ s with inbox := l }).cfg = s.cfg := rfl
@[simp] theorem inbox_update_regs (s : State) (l : List Arrival) : ({ s with inbox := l }).regs = s.regs := rfl
@[simp] theorem inbox_update_buf (s : State) (l : List Arrival) : ({ s with inbox := l }).buf = s.buf := rfl
@[simp] theorem inbox_update_cmd (s : State) (l : List Arrival) : ({ s with inbox := l }).cmd = s.cmd := rfl
@[simp] theorem inbox_update_busy (s : State) (l : List Arrival) : ({ s with inbox := l }).busy = s.busy := rfl
@[simp] theorem inbox_update_done (s : State) (l : List Arrival) : ({ s with inbox := l }).done = s.done := rfl
@[simp] theorem inbox_update_err (s : State) (l : List Arrival) : ({ s with inbox := l }).err = s.err := rfl
@[simp] theorem inbox_update_absent (s : State) (l : List Arrival) : ({ s with inbox := l }).absent = s.absent := rfl
@[simp] theorem inbox_update_boolRes (s : State) (l : List Arrival) : ({ s with inbox := l }).boolRes = s.boolRes := rfl
@[simp] theorem inbox_update_errCode (s : State) (l : List Arrival) : ({ s with inbox := l }).errCode = s.errCode := rfl
@[simp] theorem inbox_update_inbox (s : State) (l : List Arrival) : ({ s with inbox := l }).inbox = l := rfl
@[simp] theorem inbox_update_replies (s : State) (l : List Arrival) : ({ s with inbox := l }).replies = s.replies := rfl

@[simp] theorem replies_update_cfg (s : State) (l : List Word) : ({ s with replies := l }).cfg = s.cfg := rfl
@[simp] theorem replies_update_regs (s : State) (l : List Word) : ({ s with replies := l }).regs = s.regs := rfl
@[simp] theorem replies_update_buf (s : State) (l : List Word) : ({ s with replies := l }).buf = s.buf := rfl
@[simp] theorem replies_update_cmd (s : State) (l : List Word) : ({ s with replies := l }).cmd = s.cmd := rfl
@[simp] theorem replies_update_busy (s : State) (l : List Word) : ({ s with replies := l }).busy = s.busy := rfl
@[simp] theorem replies_update_done (s : State) (l : List Word) : ({ s with replies := l }).done = s.done := rfl
@[simp] theorem replies_update_err (s : State) (l : List Word) : ({ s with replies := l }).err = s.err := rfl
@[simp] theorem replies_update_absent (s : State) (l : List Word) : ({ s with replies := l }).absent = s.absent := rfl
@[simp] theorem replies_update_boolRes (s : State) (l : List Word) : ({ s with replies := l }).boolRes = s.boolRes := rfl
@[simp] theorem replies_update_errCode (s : State) (l : List Word) : ({ s with replies := l }).errCode = s.errCode := rfl
@[simp] theorem replies_update_inbox (s : State) (l : List Word) : ({ s with replies := l }).inbox = s.inbox := rfl
@[simp] theorem replies_update_replies (s : State) (l : List Word) : ({ s with replies := l }).replies = l := rfl

@[simp] theorem latch_update_cfg (s : State) (b : Bool) (c : BitVec 8) : ({ s with err := b, errCode := c }).cfg = s.cfg := rfl
@[simp] theorem latch_update_regs (s : State) (b : Bool) (c : BitVec 8) : ({ s with err := b, errCode := c }).regs = s.regs := rfl
@[simp] theorem latch_update_buf (s : State) (b : Bool) (c : BitVec 8) : ({ s with err := b, errCode := c }).buf = s.buf := rfl
@[simp] theorem latch_update_cmd (s : State) (b : Bool) (c : BitVec 8) : ({ s with err := b, errCode := c }).cmd = s.cmd := rfl
@[simp] theorem latch_update_busy (s : State) (b : Bool) (c : BitVec 8) : ({ s with err := b, errCode := c }).busy = s.busy := rfl
@[simp] theorem latch_update_done (s : State) (b : Bool) (c : BitVec 8) : ({ s with err := b, errCode := c }).done = s.done := rfl
@[simp] theorem latch_update_err (s : State) (b : Bool) (c : BitVec 8) : ({ s with err := b, errCode := c }).err = b := rfl
@[simp] theorem latch_update_absent (s : State) (b : Bool) (c : BitVec 8) : ({ s with err := b, errCode := c }).absent = s.absent := rfl
@[simp] theorem latch_update_boolRes (s : State) (b : Bool) (c : BitVec 8) : ({ s with err := b, errCode := c }).boolRes = s.boolRes := rfl
@[simp] theorem latch_update_errCode (s : State) (b : Bool) (c : BitVec 8) : ({ s with err := b, errCode := c }).errCode = c := rfl
@[simp] theorem latch_update_inbox (s : State) (b : Bool) (c : BitVec 8) : ({ s with err := b, errCode := c }).inbox = s.inbox := rfl
@[simp] theorem latch_update_replies (s : State) (b : Bool) (c : BitVec 8) : ({ s with err := b, errCode := c }).replies = s.replies := rfl

@[simp] theorem clear_update_cfg (s : State) (r : Vector Nat 16) (m : Memory) : ({ s with regs := r, buf := m }).cfg = s.cfg := rfl
@[simp] theorem clear_update_regs (s : State) (r : Vector Nat 16) (m : Memory) : ({ s with regs := r, buf := m }).regs = r := rfl
@[simp] theorem clear_update_buf (s : State) (r : Vector Nat 16) (m : Memory) : ({ s with regs := r, buf := m }).buf = m := rfl
@[simp] theorem clear_update_cmd (s : State) (r : Vector Nat 16) (m : Memory) : ({ s with regs := r, buf := m }).cmd = s.cmd := rfl
@[simp] theorem clear_update_busy (s : State) (r : Vector Nat 16) (m : Memory) : ({ s with regs := r, buf := m }).busy = s.busy := rfl
@[simp] theorem clear_update_done (s : State) (r : Vector Nat 16) (m : Memory) : ({ s with regs := r, buf := m }).done = s.done := rfl
@[simp] theorem clear_update_err (s : State) (r : Vector Nat 16) (m : Memory) : ({ s with regs := r, buf := m }).err = s.err := rfl
@[simp] theorem clear_update_absent (s : State) (r : Vector Nat 16) (m : Memory) : ({ s with regs := r, buf := m }).absent = s.absent := rfl
@[simp] theorem clear_update_boolRes (s : State) (r : Vector Nat 16) (m : Memory) : ({ s with regs := r, buf := m }).boolRes = s.boolRes := rfl
@[simp] theorem clear_update_errCode (s : State) (r : Vector Nat 16) (m : Memory) : ({ s with regs := r, buf := m }).errCode = s.errCode := rfl
@[simp] theorem clear_update_inbox (s : State) (r : Vector Nat 16) (m : Memory) : ({ s with regs := r, buf := m }).inbox = s.inbox := rfl
@[simp] theorem clear_update_replies (s : State) (r : Vector Nat 16) (m : Memory) : ({ s with regs := r, buf := m }).replies = s.replies := rfl

/-! ### `State.reg` and `State.modulus` see one field each -/

@[simp] theorem finish_reg (s : State) (a b : Bool) (n : Nat) : State.reg (finish s a b) n = s.reg n := rfl
@[simp] theorem raiseError_reg (e : ErrKind) (s : State) (n : Nat) : State.reg (raiseError e s) n = s.reg n := rfl
@[simp] theorem accept_reg (s : State) (w : Word) (n : Nat) : State.reg (accept s w) n = s.reg n := rfl
@[simp] theorem buf_update_reg (s : State) (m : Memory) (n : Nat) : State.reg ({ s with buf := m : State }) n = s.reg n := rfl
@[simp] theorem inbox_update_reg (s : State) (l : List Arrival) (n : Nat) : State.reg ({ s with inbox := l : State }) n = s.reg n := rfl
@[simp] theorem replies_update_reg (s : State) (l : List Word) (n : Nat) : State.reg ({ s with replies := l : State }) n = s.reg n := rfl
@[simp] theorem latch_update_reg (s : State) (b : Bool) (c : BitVec 8) (n : Nat) : State.reg ({ s with err := b, errCode := c : State }) n = s.reg n := rfl

@[simp] theorem resetCore_reg (s : State) (n : Nat) : (resetCore s).reg n = 0 := by
  simp [State.reg, Vector.getElem?_replicate]; split <;> rfl

@[simp] theorem resetOf_reg (c : Cfg) (n : Nat) : (State.resetOf c).reg n = 0 := by
  simp [State.reg, Vector.getElem?_replicate]; split <;> rfl

@[simp] theorem clear_update_reg (s : State) (m : Memory) (n : Nat) :
    State.reg { s with regs := Vector.replicate 16 0, buf := m } n = 0 := by
  simp [State.reg, Vector.getElem?_replicate]; split <;> rfl

/-! ### Reading after `setReg` (10_state.md R21) -/

theorem setReg_reg (s : State) (n v m : Nat) (hn : n < 16) :
    (s.setReg n v).reg m = if m = n then v else s.reg m := by
  unfold State.reg
  simp only [setReg_regs, Vector.getElem?_setIfInBounds]
  split
  · next h => subst h; simp
  · next h => simp [Ne.symm h]

@[simp] theorem setReg_reg_same (s : State) (n v : Nat) (hn : n < 16) : (s.setReg n v).reg n = v := by
  simp [setReg_reg s n v n hn]

theorem setReg_reg_other (s : State) (n v m : Nat) (hn : n < 16) (h : m ≠ n) :
    (s.setReg n v).reg m = s.reg m := by simp [setReg_reg s n v m hn, h]

theorem reg_ext (s t : State) (h : ∀ n, n < 16 → t.reg n = s.reg n) : t.regs = s.regs := by
  ext i hi
  have := h i hi
  simpa [State.reg, hi] using this

end Sys2Proof.Machine
end

