-- ==== Sys2Proof/Laws/Memory.lean ====
section
/-! SUPPORT. The laws of the operand buffer (10_state.md R32): a read after a write, the canonical form kept
by every operation, and the byte strings of 00_scope.md R13. -/

namespace Sys2Proof.Machine

/-! ### Reading after writing -/

@[simp] theorem Memory.read_nil (a : Nat) : Memory.read [] a = 0 := rfl

theorem Memory.read_of_forall_lt (m : Memory) (a : Nat) (h : ∀ c ∈ m, a < c.1) : m.read a = 0 := by
  induction m with
  | nil => rfl
  | cons c rest ih =>
    have hc := h c (by simp)
    simp only [Memory.read, if_neg (Nat.ne_of_gt hc)]
    exact ih fun d hd => h d (by simp [hd])

/-- A write is read back where it was made and nowhere else. -/
theorem Memory.read_write (m : Memory) (hm : m.Pairwise fun x y => x.1 < y.1) (a b : Nat) (v : Byte) :
    (m.write a v).read b = if b = a then v else m.read b := by
  induction m with
  | nil =>
    by_cases hv : v = Memory.unlisted
    · simp [Memory.write, hv, Memory.read, Memory.unlisted]
    · by_cases hb : b = a
      · simp [Memory.write, hv, Memory.read, hb]
      · simp [Memory.write, hv, Memory.read, hb, Ne.symm hb]
  | cons c rest ih =>
    obtain ⟨k, u⟩ := c
    rw [List.pairwise_cons] at hm
    obtain ⟨hk, hrest⟩ := hm
    simp only [Memory.write]
    split
    · next hak =>
      have hlt : ∀ c ∈ (k, u) :: rest, a < c.1 := by
        intro c hc
        rcases List.mem_cons.1 hc with rfl | hc
        · exact hak
        · exact Nat.lt_trans hak (hk c hc)
      have h0 := Memory.read_of_forall_lt ((k, u) :: rest) a hlt
      split
      · next hv =>
        by_cases hb : b = a
        · subst hb; simp [h0, hv, Memory.unlisted]
        · simp [hb]
      · by_cases hb : b = a
        · subst hb; simp [Memory.read]
        · rw [Memory.read, if_neg (Ne.symm hb), if_neg hb]
    · next hak =>
      split
      · next hak' =>
        subst hak'
        split
        · next hv =>
          by_cases hb : b = a
          · subst hb
            simpa [hv, Memory.unlisted] using Memory.read_of_forall_lt rest b hk
          · simp [hb, Memory.read, Ne.symm hb]
        · by_cases hb : b = a
          · subst hb; simp [Memory.read]
          · simp [hb, Memory.read, Ne.symm hb]
      · next hne =>
        by_cases hb : k = b
        · subst hb; simp [Memory.read, Ne.symm hne]
        · simp [Memory.read, hb, ih hrest]

/-! ### The canonical form -/

theorem Memory.wf_nil : Memory.wf [] := ⟨List.Pairwise.nil, by simp⟩

theorem Memory.mem_write (m : Memory) (a : Nat) (v : Byte) (c : Host.Cell) (h : c ∈ m.write a v) :
    c ∈ m ∨ (c = (a, v) ∧ v ≠ Memory.unlisted) := by
  induction m with
  | nil => simp only [Memory.write] at h; split at h <;> simp_all
  | cons d rest ih =>
    obtain ⟨k, u⟩ := d
    simp only [Memory.write] at h
    split at h
    · split at h
      · exact .inl h
      · rcases List.mem_cons.1 h with h | h
        · exact .inr ⟨h, ‹_›⟩
        · exact .inl h
    · split at h
      · split at h
        · exact .inl (by simp [h])
        · rcases List.mem_cons.1 h with h | h
          · exact .inr ⟨h, ‹_›⟩
          · exact .inl (by simp [h])
      · rcases List.mem_cons.1 h with h | h
        · exact .inl (by simp [h])
        · rcases ih h with h | h
          · exact .inl (by simp [h])
          · exact .inr h

theorem Memory.pairwise_write (m : Memory) (hm : m.Pairwise fun x y => x.1 < y.1) (a : Nat) (v : Byte) :
    (m.write a v).Pairwise fun x y => x.1 < y.1 := by
  induction m with
  | nil => simp only [Memory.write]; split <;> simp
  | cons c rest ih =>
    obtain ⟨k, u⟩ := c
    have hm' := hm
    rw [List.pairwise_cons] at hm
    obtain ⟨hk, hrest⟩ := hm
    simp only [Memory.write]
    split
    · next hak =>
      split
      · exact hm'
      · refine List.pairwise_cons.2 ⟨?_, hm'⟩
        intro c hc
        rcases List.mem_cons.1 hc with rfl | hc
        · exact hak
        · exact Nat.lt_trans hak (hk c hc)
    · next hak =>
      split
      · next hak' =>
        subst hak'
        split
        · exact hrest
        · exact List.pairwise_cons.2 ⟨hk, hrest⟩
      · next hne =>
        refine List.pairwise_cons.2 ⟨?_, ih hrest⟩
        intro c hc
        rcases Memory.mem_write rest a v c hc with hc | ⟨rfl, -⟩
        · exact hk c hc
        · exact Nat.lt_of_le_of_ne (Nat.le_of_not_lt hak) (Ne.symm hne)

theorem Memory.wf_write (m : Memory) (hm : m.wf) (a : Nat) (v : Byte) (ha : a < 256) :
    (m.write a v).wf := by
  refine ⟨Memory.pairwise_write m hm.1 a v, fun c hc => ?_⟩
  rcases Memory.mem_write m a v c hc with hc | ⟨rfl, hv⟩
  · exact hm.2 c hc
  · exact ⟨ha, hv⟩

theorem Memory.wf_writeBytes (m : Memory) (hm : m.wf) (a : Nat) (bs : List Byte)
    (h : a + bs.length ≤ 256) : (m.writeBytes a bs).wf := by
  induction bs generalizing m a with
  | nil => exact hm
  | cons b bs ih =>
    simp only [List.length_cons] at h
    exact ih _ (Memory.wf_write m hm a b (by omega)) (a + 1) (by omega)

theorem Memory.pairwise_writeBytes (m : Memory) (hm : m.Pairwise fun x y => x.1 < y.1) (a : Nat)
    (bs : List Byte) : (m.writeBytes a bs).Pairwise fun x y => x.1 < y.1 := by
  induction bs generalizing m a with
  | nil => exact hm
  | cons b bs ih => exact ih _ (Memory.pairwise_write m hm a b) (a + 1)

theorem Memory.wf_writeLanes (m : Memory) (hm : m.wf) (w : Nat) (hw : w < 64) (data : Word)
    (strb : BitVec 4) : (writeLanes m w data strb).wf := by
  unfold writeLanes
  have key : ∀ (l : List Nat) (m : Memory), (∀ j ∈ l, j < 4) → m.wf →
      (l.foldl (fun m j => if strb.getLsbD j then m.write (4 * w + j) (lane data j) else m) m).wf := by
    intro l
    induction l with
    | nil => intro m _ hm; exact hm
    | cons j l ih =>
      intro m hl hm
      simp only [List.foldl_cons]
      refine ih _ (fun i hi => hl i (by simp [hi])) ?_
      have hj := hl j (by simp)
      split
      · exact Memory.wf_write m hm _ _ (by omega)
      · exact hm
  exact key _ m (by simp) hm

/-! ### Byte strings (00_scope.md R13) -/

/-- `MemWrite` stores byte `j` at `a + j` and keeps every other byte. -/
theorem Memory.read_writeBytes (m : Memory) (hm : m.Pairwise fun x y => x.1 < y.1) (a : Nat)
    (bs : List Byte) (b : Nat) :
    (m.writeBytes a bs).read b =
      if a ≤ b ∧ b < a + bs.length then bs[b - a]?.getD 0 else m.read b := by
  induction bs generalizing m a with
  | nil => simp [Memory.writeBytes]
  | cons v bs ih =>
    rw [Memory.writeBytes, ih _ (Memory.pairwise_write m hm a v), Memory.read_write m hm]
    simp only [List.length_cons]
    by_cases h1 : a + 1 ≤ b ∧ b < a + 1 + bs.length
    · have h2 : a ≤ b ∧ b < a + (bs.length + 1) := by omega
      have h3 : b - a = (b - (a + 1)) + 1 := by omega
      simp [h1, h2, h3]
    · rw [if_neg h1]
      by_cases h2 : b = a
      · subst h2; simp
      · have h3 : ¬ (a ≤ b ∧ b < a + (bs.length + 1)) := by omega
        rw [if_neg h2, if_neg h3]

@[simp] theorem Memory.length_readBytes (m : Memory) (a n : Nat) : (m.readBytes a n).length = n := by
  simp [Memory.readBytes]

@[simp] theorem length_leBytes (v n : Nat) : (leBytes v n).length = n := by
  induction n generalizing v with
  | zero => rfl
  | succ n ih => simp [leBytes, ih]

/-- `le_int` undoes `le_bytes` on a value that fits. -/
theorem leInt_leBytes (v n : Nat) (h : v < 256 ^ n) : leInt (leBytes v n) = v := by
  induction n generalizing v with
  | zero => simp at h; simp [leBytes, leInt, h]
  | succ n ih =>
    have h' : v / 256 < 256 ^ n := by
      rw [Nat.pow_succ] at h
      exact Nat.div_lt_of_lt_mul (by omega)
    simp only [leBytes, leInt, BitVec.toNat_ofNat, ih _ h']
    omega

theorem leInt_lt (bs : List Byte) : leInt bs < 256 ^ bs.length := by
  induction bs with
  | nil => simp [leInt]
  | cons b bs ih =>
    have := b.isLt
    simp only [leInt, List.length_cons, Nat.pow_succ]
    omega

/-- Byte `j` of an encoding. -/
theorem getElem?_leBytes (v n j : Nat) (h : j < n) :
    (leBytes v n)[j]? = some (BitVec.ofNat 8 (v / 256 ^ j)) := by
  induction n generalizing v j with
  | zero => omega
  | succ n ih =>
    cases j with
    | zero => simp [leBytes]
    | succ j => simp [leBytes, ih (v / 256) j (by omega), Nat.pow_succ', Nat.div_div_eq_div_mul]

/-- `le_int` of a list of the bytes of a buffer run, as the sum that R13 writes. -/
theorem leInt_readBytes (m : Memory) (a n : Nat) :
    leInt (m.readBytes a n) = ∑ j ∈ Finset.range n, (m.read (a + j)).toNat * 256 ^ j := by
  induction n generalizing a with
  | zero => rfl
  | succ n ih =>
    have hcons : m.readBytes a (n + 1) = m.read a :: m.readBytes (a + 1) n := by
      simp only [Memory.readBytes, List.range_succ_eq_map, List.map_cons, List.map_map]
      congr 1
      apply List.map_congr_left
      intro j _
      simp [Nat.add_assoc, Nat.add_comm 1]
    rw [hcons, leInt, ih, Finset.sum_range_succ', Finset.mul_sum, Nat.add_comm]
    simp only [Nat.add_zero, pow_zero, mul_one]
    congr 1
    apply Finset.sum_congr rfl
    intro j _
    rw [show a + 1 + j = a + (j + 1) by omega, pow_succ]
    ring

/-- Reading back a byte string just written. -/
theorem Memory.readBytes_writeBytes (m : Memory) (hm : m.Pairwise fun x y => x.1 < y.1) (a : Nat)
    (bs : List Byte) : (m.writeBytes a bs).readBytes a bs.length = bs := by
  apply List.ext_getElem?
  intro j
  by_cases hj : j < bs.length
  · simp [Memory.readBytes, hj, Memory.read_writeBytes m hm]
  · simp [Memory.readBytes, hj]

end Sys2Proof.Machine
end

