-- ==== Sys2Proof/Laws/Host.lean ====
section
/-! SUPPORT. What a host access and a step can do, said once (20_memory.md R50 to R67, 30_encoding.md
R84). -/

namespace Sys2Proof.Machine

/-! ### The host address map (R51), target by target -/

theorem hostTarget_cmd {off : BitVec 10} (h : off.toNat / 4 = 0) : hostTarget off = .cmd := by
  simp [hostTarget, h]

theorem hostTarget_status {off : BitVec 10} (h : off.toNat / 4 = 1) : hostTarget off = .status := by
  simp [hostTarget, h]

theorem hostTarget_ctrl {off : BitVec 10} (h : off.toNat / 4 = 2) : hostTarget off = .ctrl := by
  simp [hostTarget, h]

theorem hostTarget_window {off : BitVec 10} (h1 : 64 ≤ off.toNat / 4) (h2 : off.toNat / 4 < 128) :
    hostTarget off = .window (off.toNat / 4 - 64) := by
  unfold hostTarget
  simp only
  rw [if_neg (by omega), if_neg (by omega), if_neg (by omega), if_pos ⟨h1, h2⟩]

theorem hostTarget_unmapped {off : BitVec 10}
    (h : 3 ≤ off.toNat / 4 ∧ off.toNat / 4 < 64 ∨ 128 ≤ off.toNat / 4) : hostTarget off = .unmapped := by
  unfold hostTarget
  simp only
  rw [if_neg (by omega), if_neg (by omega), if_neg (by omega), if_neg (by omega)]

theorem hostTarget_window_lt {off : BitVec 10} {w : Nat} (h : hostTarget off = .window w) : w < 64 := by
  unfold hostTarget at h
  simp only at h
  repeat' split at h
  all_goals cases h
  omega

/-! ### What a host write can do -/

/-- All that a host write can do: nothing, acceptance of a command, a soft reset, a clear of the latch, or
a write of bytes to a window word. -/
theorem hostWrite_cases (s : State) (off : BitVec 10) (data : Word) (strb : BitVec 4) :
    hostWrite s off data strb = s ∨
    (hostTarget off = .cmd ∧ strb = 0b1111 ∧ s.busy = false ∧ s.err = false ∧
      hostWrite s off data strb = accept s data) ∨
    (hostTarget off = .ctrl ∧ s.busy = false ∧ hostWrite s off data strb = resetCore s) ∨
    (hostTarget off = .ctrl ∧ s.busy = false ∧ s.err = true ∧ s.errCode ≠ ErrKind.code .construct ∧
      hostWrite s off data strb = { s with err := false, errCode := 0x00 }) ∨
    (∃ w, hostTarget off = .window w ∧ w < 64 ∧ s.busy = false ∧
      hostWrite s off data strb = { s with buf := writeLanes s.buf w data strb }) := by
  unfold hostWrite
  split
  · next ht =>
    unfold writeCmd
    split
    · next h => exact .inr (.inl ⟨ht, h.1, h.2.1, h.2.2, rfl⟩)
    · exact .inl rfl
  · exact .inl rfl
  · next ht =>
    unfold writeCtrl
    split
    · exact .inl rfl
    · next hb =>
      have hb : s.busy = false := by simp only [not_or, Bool.not_eq_true] at hb; exact hb.2
      split
      · exact .inr (.inr (.inl ⟨ht, hb, rfl⟩))
      · split
        · unfold clearError
          split
          · next h => exact .inr (.inr (.inr (.inl ⟨ht, hb, h.1, h.2, rfl⟩)))
          · exact .inl rfl
        · exact .inl rfl
  · next w ht =>
    unfold writeWindow
    split
    · exact .inl rfl
    · next hb => exact .inr (.inr (.inr (.inr ⟨w, ht, hostTarget_window_lt ht, by simpa using hb, rfl⟩)))
  · exact .inl rfl

/-! ### What a step can do -/

/-- All that a step can do when it answers a next state: wait, a host action, or an engine step. -/
theorem step_next {s t : State} (h : step s = .next t) :
    (s.inbox = [] ∧ s.busy = false ∧ t = s) ∨
    (∃ a rest, s.inbox = a :: rest ∧ (s.busy = false ∨ a.early = true) ∧
      t = hostAct { s with inbox := rest } a.act) ∨
    (s.busy = true ∧ engineStep s = .next t) := by
  unfold step at h
  split at h
  · next hi =>
    split at h
    · next hb => exact .inr (.inr ⟨hb, h⟩)
    · next hb => exact .inl ⟨hi, by simpa using hb, by simpa using h.symm⟩
  · next a rest hi =>
    split at h
    · next hb => exact .inr (.inr ⟨by simp at hb; exact hb.1, h⟩)
    · next hb =>
      refine .inr (.inl ⟨a, rest, hi, ?_, by simpa using h.symm⟩)
      cases hs : s.busy <;> simp_all

/-- All that the engine step can do: `E_ILLEGAL`, or the meaning of the decoded command. -/
theorem engineStep_next {s t : State} (h : engineStep s = .next t) :
    ((∃ e, decode s.cmd = .error e) ∧ t = raiseError .illegal s) ∨
      ∃ i, decode s.cmd = .ok i ∧ exec i s = .next t := by
  unfold engineStep at h
  split at h
  · next e he => exact .inl ⟨⟨e, he⟩, by simpa using h.symm⟩
  · next i hi => exact .inr ⟨i, hi, h⟩

/-- A run goes on from the state that its first step answers. -/
theorem core_run_succ {n : Nat} {s t : State} (h : Sys2Proof.Machine.step s = .next t) :
    Host.Core.run Sys2Proof.core (n + 1) s = Host.Core.run Sys2Proof.core n t := by
  simp only [Host.Core.run]
  have h' : Sys2Proof.core.step s = .next t := h
  rw [h']

end Sys2Proof.Machine
end

