-- ==== Sys2Proof/Laws/Operands.lean ====
section
/-! SUPPORT. What each operand form can answer, said once (30_encoding.md R87, 40_field_arith.md R110,
42_curve.md R160). -/

namespace Sys2Proof.Machine

@[simp] theorem needPoint_of_le (i : Idx) (h : i.val ≤ 14) : needPoint i = .ok () := if_pos h

@[simp] theorem needPoint_of_gt (i : Idx) (h : ¬ i.val ≤ 14) : needPoint i = .error .bounds := if_neg h

@[simp] theorem needRun_of_le (i n : Idx) (h : i.val + n.val ≤ 16) : needRun i n = .ok () := if_pos h

@[simp] theorem needRun_of_gt (i n : Idx) (h : ¬ i.val + n.val ≤ 16) : needRun i n = .error .bounds :=
  if_neg h

@[simp] theorem needBytes_of_le (off n : Nat) (h : off + n ≤ 256) : needBytes off n = .ok () := if_pos h

@[simp] theorem needBytes_of_gt (off n : Nat) (h : ¬ off + n ≤ 256) :
    needBytes off n = .error .bounds := if_neg h

@[simp] theorem needSameLength_self (n : Idx) : needSameLength n n = .ok () := if_pos rfl

@[simp] theorem needSameLength_of_ne (na nb : Idx) (h : na ≠ nb) :
    needSameLength na nb = .error .length := if_neg h

@[simp] theorem elem_of_lt (s : State) (f : FieldSel) (i : Idx) (h : s.reg i < s.modulus f) :
    elem s f i = .ok (s.reg i) := if_pos h

@[simp] theorem elem_of_ge (s : State) (f : FieldSel) (i : Idx) (h : ¬ s.reg i < s.modulus f) :
    elem s f i = .error .range := if_neg h

/-- Every element of a run is canonical. -/
def RunCanonical (s : State) (f : FieldSel) (i n : Idx) : Prop :=
  ∀ j, j < n.val → s.reg (i.val + j) < s.modulus f

theorem elemRun_of_canonical (s : State) (f : FieldSel) (i n : Idx) (h : RunCanonical s f i n) :
    elemRun s f i n = .ok (rawRun s i n) := by
  unfold elemRun rawRun
  rw [if_pos]
  simp only [List.all_map, List.all_eq_true, List.mem_range, Function.comp_apply, decide_eq_true_eq]
  exact h

theorem elemRun_of_not (s : State) (f : FieldSel) (i n : Idx) (h : ¬ RunCanonical s f i n) :
    elemRun s f i n = .error .range := by
  unfold elemRun rawRun
  rw [if_neg]
  simpa only [RunCanonical, List.all_map, List.all_eq_true, List.mem_range, Function.comp_apply,
    decide_eq_true_eq] using h

@[simp] theorem canonPoint_of_lt (s : State) (i : Idx)
    (h : s.reg i < s.cfg.bf.p ∧ s.reg (i.val + 1) < s.cfg.bf.p) :
    canonPoint s i = .ok ⟨s.reg i, s.reg (i.val + 1)⟩ := if_pos h

@[simp] theorem canonPoint_of_ge (s : State) (i : Idx)
    (h : ¬ (s.reg i < s.cfg.bf.p ∧ s.reg (i.val + 1) < s.cfg.bf.p)) :
    canonPoint s i = .error .range := if_neg h

/-- A static check answers, or raises its own error. -/
theorem needPoint_cases (i : Idx) :
    (i.val ≤ 14 ∧ needPoint i = .ok ()) ∨ (¬ i.val ≤ 14 ∧ needPoint i = .error .bounds) := by
  by_cases h : i.val ≤ 14
  · exact .inl ⟨h, if_pos h⟩
  · exact .inr ⟨h, if_neg h⟩

/-- A checked element read answers the register, or raises `E_RANGE`. -/
theorem elem_cases (s : State) (f : FieldSel) (i : Idx) :
    (s.reg i < s.modulus f ∧ elem s f i = .ok (s.reg i)) ∨
      (¬ s.reg i < s.modulus f ∧ elem s f i = .error .range) := by
  by_cases h : s.reg i < s.modulus f
  · exact .inl ⟨h, if_pos h⟩
  · exact .inr ⟨h, if_neg h⟩

end Sys2Proof.Machine
end

