-- ==== Sys2Proof/Laws/Ops.lean ====
section
/-! SUPPORT. What the shared end of every command can do, said once: the error entry
(60_exceptions.md R224), the commit and completion (30_encoding.md R84), and the whole of `conclude`. -/

namespace Sys2Proof.Machine

/-! ### Error entry and completion in the terms of Safety.lean -/

theorem raiseError_raised (e : ErrKind) (s : State) : Raised s (raiseError e s) e where
  frame := ⟨rfl, rfl, rfl, rfl⟩
  err := rfl
  errCode := rfl
  absent := rfl
  boolRes := rfl
  busy := rfl
  done := rfl
  regs := fun _ _ _ => rfl
  buf := fun _ => rfl

theorem finish_completes (s : State) (a b : Bool) : Completes s (finish s a b) a b :=
  ⟨⟨rfl, rfl, rfl, rfl⟩, rfl, rfl, rfl, rfl, rfl, rfl⟩

theorem finish_setReg_writesReg (s : State) (rd : Idx) (v : Nat) :
    WritesReg s (finish (s.setReg rd v) false false) rd v where
  completes := ⟨⟨rfl, rfl, rfl, rfl⟩, rfl, rfl, rfl, rfl, rfl, rfl⟩
  written := by simp
  regs := fun n hn h => by simpa using setReg_reg_other s rd v n rd.isLt (by simpa using h)
  buf := fun _ => rfl

theorem finish_setPoint_writesPoint (s : State) (d : Idx) (P : Point) (hd : d.val ≤ 14) :
    WritesPoint s (finish ((s.setReg d P.x).setReg (d.val + 1) P.y) false false) d P where
  completes := ⟨⟨rfl, rfl, rfl, rfl⟩, rfl, rfl, rfl, rfl, rfl, rfl⟩
  x := by
    simp only [finish_reg]
    rw [setReg_reg_other _ _ _ _ (by omega) (by omega)]
    simp
  y := by
    simp only [finish_reg]
    exact setReg_reg_same _ _ _ (by omega)
  regs := fun n hn h => by
    simp only [List.mem_cons, List.not_mem_nil, or_false, not_or] at h
    simp only [finish_reg]
    rw [setReg_reg_other _ _ _ _ (by omega) h.2, setReg_reg_other _ _ _ _ (by omega) h.1]
  buf := fun _ => rfl

/-! ### Commit -/

theorem fitsReg_iff (s : State) (v : Nat) : fitsReg s v = true ↔ v < 2 ^ s.cfg.regw := by
  simp [fitsReg]

theorem commit_reg (s : State) (rd : Idx) (v : Nat) (h : v < 2 ^ s.cfg.regw) :
    commit s (.reg rd v) = .next (finish (s.setReg rd v) false false) :=
  if_pos ((fitsReg_iff s v).2 h)

theorem commit_point (s : State) (d : Idx) (P : Point) (hx : P.x < 2 ^ s.cfg.regw)
    (hy : P.y < 2 ^ s.cfg.regw) :
    commit s (.point d P) = .next (finish ((s.setReg d P.x).setReg (d.val + 1) P.y) false false) :=
  if_pos (by simp [(fitsReg_iff s _).2 hx, (fitsReg_iff s _).2 hy])

/-- All that a commit can do when it answers a next state. -/
theorem commit_next (s t : State) (ef : Effect) (h : commit s ef = .next t) :
    (ef = .nothing ∧ t = finish s false false) ∨
    (∃ rd v, ef = .reg rd v ∧ v < 2 ^ s.cfg.regw ∧ t = finish (s.setReg rd v) false false) ∨
    (∃ d P, ef = .point d P ∧ P.x < 2 ^ s.cfg.regw ∧ P.y < 2 ^ s.cfg.regw ∧
      t = finish ((s.setReg d P.x).setReg (d.val + 1) P.y) false false) ∨
    (∃ off bs, ef = .bytes off bs ∧ t = finish { s with buf := s.buf.writeBytes off bs } false false) ∨
    (∃ b, ef = .bool b ∧ t = finish s false b) ∨
    (ef = .absent ∧ t = finish s true false) ∨
    (ef = .zeroize ∧ t = finish { s with regs := Vector.replicate 16 0, buf := [] } false false) := by
  cases ef with
  | nothing => exact .inl ⟨rfl, by simpa [commit] using h.symm⟩
  | reg rd v =>
    simp only [commit] at h
    split at h
    · next hf => exact .inr (.inl ⟨rd, v, rfl, (fitsReg_iff s v).1 hf, by simpa using h.symm⟩)
    · cases h
  | point d P =>
    simp only [commit] at h
    split at h
    · next hf =>
      rw [Bool.and_eq_true, fitsReg_iff, fitsReg_iff] at hf
      exact .inr (.inr (.inl ⟨d, P, rfl, hf.1, hf.2, by simpa using h.symm⟩))
    · cases h
  | bytes off bs => exact .inr (.inr (.inr (.inl ⟨off, bs, rfl, by simpa [commit] using h.symm⟩)))
  | bool b => exact .inr (.inr (.inr (.inr (.inl ⟨b, rfl, by simpa [commit] using h.symm⟩))))
  | absent => exact .inr (.inr (.inr (.inr (.inr (.inl ⟨rfl, by simpa [commit] using h.symm⟩)))))
  | zeroize => exact .inr (.inr (.inr (.inr (.inr (.inr ⟨rfl, by simpa [commit] using h.symm⟩)))))

/-! ### The end of a command, effect by effect, in the terms of Safety.lean -/

theorem conclude_error_raised (s : State) (e : ErrKind) :
    ∃ t, conclude s (.error e) = .next t ∧ Raised s t e := ⟨_, rfl, raiseError_raised e s⟩

theorem commit_reg_writes (s : State) (rd : Idx) (v : Nat) (h : v < 2 ^ s.cfg.regw) :
    ∃ t, commit s (.reg rd v) = .next t ∧ WritesReg s t rd v :=
  ⟨_, commit_reg s rd v h, finish_setReg_writesReg s rd v⟩

theorem commit_point_writes (s : State) (d : Idx) (P : Point) (hd : d.val ≤ 14)
    (hx : P.x < 2 ^ s.cfg.regw) (hy : P.y < 2 ^ s.cfg.regw) :
    ∃ t, commit s (.point d P) = .next t ∧ WritesPoint s t d P :=
  ⟨_, commit_point s d P hx hy, finish_setPoint_writesPoint s d P hd⟩

theorem commit_bool_writes (s : State) (b : Bool) :
    ∃ t, commit s (.bool b) = .next t ∧ WritesBool s t b :=
  ⟨_, rfl, ⟨finish_completes _ _ _, fun _ _ _ => rfl, fun _ => rfl⟩⟩

theorem commit_absent_ends (s : State) : ∃ t, commit s .absent = .next t ∧ EndsAbsent s t :=
  ⟨_, rfl, ⟨finish_completes _ _ _, fun _ _ _ => rfl, fun _ => rfl⟩⟩

theorem commit_bytes_completes (s : State) (hm : s.buf.wf) (off : Nat) (bs : List Byte) :
    ∃ t, commit s (.bytes off bs) = .next t ∧ Completes s t false false ∧ RegsKept s t [] ∧
      BufKeptOutside s t off bs.length ∧
      ∀ j, j < bs.length → t.buf.read (off + j) = bs[j]?.getD 0 := by
  refine ⟨_, rfl, ⟨⟨rfl, rfl, rfl, rfl⟩, rfl, rfl, rfl, rfl, rfl, rfl⟩, fun _ _ _ => rfl, ?_, ?_⟩
  · intro a ha
    simp only [finish_buf]
    rw [Memory.read_writeBytes _ hm.1, if_neg (by omega)]
  · intro j hj
    simp only [finish_buf]
    rw [Memory.read_writeBytes _ hm.1, if_pos (by omega), Nat.add_sub_cancel_left]

@[simp] theorem conclude_error (s : State) (e : ErrKind) : conclude s (.error e) = .next (raiseError e s) :=
  rfl

@[simp] theorem conclude_ok (s : State) (ef : Effect) : conclude s (.ok ef) = commit s ef := rfl

/-- All that the end of an engine step can do when it answers a next state. -/
theorem conclude_next (s t : State) (r : Except ErrKind Effect) (h : conclude s r = .next t) :
    (∃ e, r = .error e ∧ t = raiseError e s) ∨ (∃ ef, r = .ok ef ∧ commit s ef = .next t) := by
  cases r with
  | error e => exact .inl ⟨e, rfl, by simpa using h.symm⟩
  | ok ef => exact .inr ⟨ef, rfl, h⟩

/-- Binding after a raise raises the same error. -/
@[simp] theorem bind_error {α β : Type} (e : ErrKind) (k : α → Except ErrKind β) :
    (Except.error e >>= k) = .error e := rfl

@[simp] theorem bind_ok {α β : Type} (a : α) (k : α → Except ErrKind β) : (Except.ok a >>= k) = k a :=
  rfl

/-- A bind that answers got an answer first. -/
theorem bind_eq_ok {α β : Type} (x : Except ErrKind α) (k : α → Except ErrKind β) (b : β) :
    (x >>= k) = .ok b ↔ ∃ a, x = .ok a ∧ k a = .ok b := by
  cases x with
  | error e => simp
  | ok a => simp

/-- A bind that raises raised first, or answered and raised then. -/
theorem bind_eq_error {α β : Type} (x : Except ErrKind α) (k : α → Except ErrKind β) (e : ErrKind) :
    (x >>= k) = .error e ↔ x = .error e ∨ ∃ a, x = .ok a ∧ k a = .error e := by
  cases x with
  | error e' => simp
  | ok a => simp

/-! ### Commands that read one or two field elements first (40_field_arith.md R110) -/

theorem conclude_elem_of_lt (s : State) (f : FieldSel) (ra : Idx) (k : Nat → Except ErrKind Effect)
    (h : s.reg ra < s.modulus f) :
    conclude s (elem s f ra >>= k) = conclude s (k (s.reg ra)) := by rw [elem_of_lt _ _ _ h, bind_ok]

theorem conclude_elem_of_ge (s : State) (f : FieldSel) (ra : Idx) (k : Nat → Except ErrKind Effect)
    (h : ¬ s.reg ra < s.modulus f) :
    ∃ t, conclude s (elem s f ra >>= k) = .next t ∧ Raised s t .range := by
  rw [elem_of_ge _ _ _ h, bind_error]; exact conclude_error_raised s _

theorem conclude_elems_of_lt (s : State) (f : FieldSel) (ra rb : Idx)
    (k : Nat → Nat → Except ErrKind Effect) (h : s.reg ra < s.modulus f ∧ s.reg rb < s.modulus f) :
    conclude s (elem s f ra >>= fun a => elem s f rb >>= k a) =
      conclude s (k (s.reg ra) (s.reg rb)) := by
  rw [elem_of_lt _ _ _ h.1, bind_ok, elem_of_lt _ _ _ h.2, bind_ok]

theorem conclude_elems_of_ge (s : State) (f : FieldSel) (ra rb : Idx)
    (k : Nat → Nat → Except ErrKind Effect)
    (h : ¬ (s.reg ra < s.modulus f ∧ s.reg rb < s.modulus f)) :
    ∃ t, conclude s (elem s f ra >>= fun a => elem s f rb >>= k a) = .next t ∧ Raised s t .range := by
  by_cases h1 : s.reg ra < s.modulus f
  · rw [elem_of_lt _ _ _ h1, bind_ok]
    exact conclude_elem_of_ge s f rb _ fun h2 => h ⟨h1, h2⟩
  · exact conclude_elem_of_ge s f ra _ h1

end Sys2Proof.Machine
end

