-- ==== Sys2Proof/Laws/Meaning.lean ====
section
/-! SUPPORT. What a command can end with, said once for all of them (30_encoding.md R84, 60_exceptions.md
R221): the errors it can raise, and the shape of what it commits. -/

namespace Sys2Proof.Machine

/-! ### Each check raises its own error only -/

theorem needPoint_error {i : Idx} {e : ErrKind} (h : needPoint i = .error e) : e = .bounds := by
  unfold needPoint at h
  split at h <;> cases h
  rfl

theorem needPoint_ok {i : Idx} {u : Unit} (h : needPoint i = .ok u) : i.val ≤ 14 := by
  unfold needPoint at h
  split at h
  · assumption
  · cases h

theorem needRun_error {i n : Idx} {e : ErrKind} (h : needRun i n = .error e) : e = .bounds := by
  unfold needRun at h
  split at h <;> cases h
  rfl

theorem needBytes_error {off n : Nat} {e : ErrKind} (h : needBytes off n = .error e) : e = .bounds := by
  unfold needBytes at h
  split at h <;> cases h
  rfl

theorem needBytes_ok {off n : Nat} {u : Unit} (h : needBytes off n = .ok u) : off + n ≤ 256 := by
  unfold needBytes at h
  split at h
  · assumption
  · cases h

theorem needSameLength_error {na nb : Idx} {e : ErrKind} (h : needSameLength na nb = .error e) :
    e = .length := by
  unfold needSameLength at h
  split at h <;> cases h
  rfl

theorem elem_error {s : State} {f : FieldSel} {i : Idx} {e : ErrKind} (h : elem s f i = .error e) :
    e = .range := by
  unfold elem at h
  split at h <;> cases h
  rfl

theorem elem_ok {s : State} {f : FieldSel} {i : Idx} {v : Nat} (h : elem s f i = .ok v) :
    v < s.modulus f := by
  unfold elem at h
  split at h
  · cases h; assumption
  · cases h

theorem elemRun_error {s : State} {f : FieldSel} {i n : Idx} {e : ErrKind}
    (h : elemRun s f i n = .error e) : e = .range := by
  unfold elemRun at h
  split at h <;> cases h
  rfl

theorem canonPoint_error {s : State} {i : Idx} {e : ErrKind} (h : canonPoint s i = .error e) :
    e = .range := by
  unfold canonPoint at h
  split at h <;> cases h
  rfl

theorem canonPoint_ok {s : State} {i : Idx} {P : Point} (h : canonPoint s i = .ok P) :
    CanonPoint s.cfg P := by
  unfold canonPoint at h
  split at h
  · cases h; assumption
  · cases h

/-! ### Following a bind -/

/-- Every error that `x` can raise satisfies `p`. -/
def RaisesOnly {α : Type} (x : Except ErrKind α) (p : ErrKind → Prop) : Prop := ∀ e, x = .error e → p e

/-- Every answer that `x` can give satisfies `p`. -/
def AnswersOnly {α : Type} (x : Except ErrKind α) (p : α → Prop) : Prop := ∀ a, x = .ok a → p a

theorem RaisesOnly.bind {α β : Type} {x : Except ErrKind α} {k : α → Except ErrKind β}
    {p : ErrKind → Prop} (hx : RaisesOnly x p) (hk : ∀ a, RaisesOnly (k a) p) : RaisesOnly (x >>= k) p := by
  intro e he
  rcases (bind_eq_error _ _ _).1 he with he | ⟨a, -, he⟩
  · exact hx e he
  · exact hk a e he

theorem RaisesOnly.ok {α : Type} (a : α) {p : ErrKind → Prop} : RaisesOnly (.ok a) p := fun _ h => by
  cases h

theorem AnswersOnly.bind {α β : Type} {x : Except ErrKind α} {k : α → Except ErrKind β} {p : β → Prop}
    (h : ∀ a, x = .ok a → AnswersOnly (k a) p) : AnswersOnly (x >>= k) p := by
  intro b hb
  obtain ⟨a, ha, hb⟩ := (bind_eq_ok _ _ _).1 hb
  exact h a ha b hb

theorem AnswersOnly.ok {α : Type} {a : α} {p : α → Prop} (h : p a) : AnswersOnly (.ok a) p := fun _ hb => by
  cases hb
  exact h

theorem AnswersOnly.error {α : Type} {e : ErrKind} {p : α → Prop} : AnswersOnly (.error e) p := fun _ h => by
  cases h

/-! ### Every command -/

/-- The shape of what a command may commit: the absent result only from the three decoders and the square
root, a Boolean only from the two predicates, a point only to an index that has a partner, bytes only
inside the buffer. -/
def Effect.FitsCommand (i : Instr) : Effect → Prop
  | .absent =>
    (∃ f rd ra, i = .fsqrt f rd ra) ∨ (∃ f rd off len, i = .ffromb f rd off len) ∨
      (∃ d off len, i = .pfromb d off len)
  | .bool _ => (∃ a, i = .ponc a) ∨ (∃ a, i = .pinsg a)
  | .point d _ => d.val ≤ 14
  | .bytes off bs => off + bs.length ≤ 256
  | _ => True

/-- Every command ends by concluding one result, whose errors are those of 60_exceptions.md R221 and whose
effect has that command's shape. -/
theorem exec_concludes (i : Instr) (s : State) :
    ∃ r, exec i s = conclude s r ∧ RaisesOnly r (fun e => mayRaise i e = true) ∧
      AnswersOnly r (Effect.FitsCommand i) := by
  cases i <;>
    simp only [exec, execNop, execZeroize, execMov, execPmov, execLdc, execPldc, execFadd, execFsub,
      execFneg, execFmul, execFsqr, execFinv, execFinvz, execFdiv, execFdivz, execFpow, execFleg,
      execFsqrt, execFsum, execFprod, execFdot, execFfromb, execFtob, execFent, execPfromb, execPtob,
      execPadd, execPdbl, execPneg, execPonc, execPinsg, execSmul, execSmulvt] <;>
    refine ⟨_, rfl, ?_, ?_⟩
  all_goals
    repeat' (first
      | refine RaisesOnly.bind ?_ (fun _ => ?_)
      | refine AnswersOnly.bind (fun _ _ => ?_)
      | exact RaisesOnly.ok _)
  all_goals try refine AnswersOnly.ok ?_
  all_goals try trivial
  all_goals try (exact fun e h => by first
    | (have := needPoint_error h; subst this; rfl)
    | (have := needRun_error h; subst this; rfl)
    | (have := needBytes_error h; subst this; rfl)
    | (have := needSameLength_error h; subst this; rfl)
    | (have := elem_error h; subst this; rfl)
    | (have := elemRun_error h; subst this; rfl)
    | (have := canonPoint_error h; subst this; rfl)
    | (have := padd_error h; subst this; rfl)
    | (have := ladderCt_error h; subst this; rfl)
    | (have := ladderVt_error h; subst this; rfl)
    | (have := inSubgroup_error h; subst this; rfl)
    | (have := (finv_error h).2; subst this; rfl)
    | (have := fsqrt_error h; subst this; rfl))
  all_goals try (first | exact .inl ⟨_, rfl⟩ | exact .inr ⟨_, rfl⟩)
  all_goals try (simp only [Effect.FitsCommand]; apply needPoint_ok; assumption)
  case ldc.refine_1 =>
    split
    · exact RaisesOnly.ok _
    · intro e h; cases h; rfl
  case ldc.refine_2 =>
    split
    · exact AnswersOnly.ok trivial
    · exact AnswersOnly.error
  case fsqrt.refine_2 =>
    rename_i v _
    cases v
    · exact .inl ⟨_, _, _, rfl⟩
    · trivial
  case ffromb.refine_2 =>
    unfold fromBytesEffect
    simp only
    split
    · exact .inr (.inl ⟨_, _, _, _, rfl⟩)
    · split
      · trivial
      · exact .inr (.inl ⟨_, _, _, _, rfl⟩)
  case pfromb.refine_2 u hu _ _ =>
    unfold pointFromBytesEffect
    simp only
    repeat' split
    all_goals try (exact .inr (.inr ⟨_, _, _, rfl⟩))
    exact needPoint_ok hu
  case ftob.refine_2 h _ _ =>
    simp only [Effect.FitsCommand, length_leBytes]
    exact needBytes_ok h
  case ptob.refine_2 u hu _ h =>
    simp only [Effect.FitsCommand, List.length_append, length_leBytes, ← two_mul]
    exact needBytes_ok (by assumption)

end Sys2Proof.Machine
end

