-- ==== Sys2Proof/Laws/PerInstr.lean ====
section
/-! SUPPORT. Statements about every instruction, one lemma per constructor of `Instr`. -/

namespace Sys2Proof.Laws

/-- The opcode of each command (30_encoding.md R89). -/
def opcodeOf : Instr → Nat
  | .nop => 0x01
  | .zeroize => 0x02
  | .mov _ _ => 0x04
  | .pmov _ _ => 0x05
  | .ldc _ _ _ => 0x06
  | .pldc _ _ => 0x07
  | .fadd _ _ _ _ => 0x10
  | .fsub _ _ _ _ => 0x11
  | .fneg _ _ _ => 0x12
  | .fmul _ _ _ _ => 0x13
  | .fsqr _ _ _ => 0x14
  | .finv _ _ _ => 0x15
  | .finvz _ _ _ => 0x16
  | .fdiv _ _ _ _ => 0x17
  | .fdivz _ _ _ _ => 0x18
  | .fpow _ _ _ _ => 0x19
  | .fleg _ _ _ => 0x1A
  | .fsqrt _ _ _ => 0x1B
  | .fsum _ _ _ _ => 0x1C
  | .fprod _ _ _ _ => 0x1D
  | .fdot _ _ _ _ _ _ => 0x1E
  | .ffromb _ _ _ _ => 0x20
  | .ftob _ _ _ => 0x21
  | .fent _ _ _ _ => 0x22
  | .pfromb _ _ _ => 0x28
  | .ptob _ _ => 0x29
  | .padd _ _ _ => 0x30
  | .pdbl _ _ => 0x31
  | .pneg _ _ => 0x32
  | .ponc _ => 0x33
  | .pinsg _ => 0x34
  | .smul _ _ _ => 0x35
  | .smulvt _ _ _ => 0x36

/-- The word of a command has its opcode in `OP` and 0 in `RSV` (30_encoding.md R81, R89). -/
def EncodedWord.Statement (i : Instr) : Prop := opOf (encode i) = opcodeOf i ∧ rsvOf (encode i) = 0

theorem EncodedWord.of_mkWord {op f rd ra rb imm : Nat} (h : RegFields op f rd ra rb imm) :
    opOf (mkWord op f rd ra rb imm) = op ∧ rsvOf (mkWord op f rd ra rb imm) = 0 :=
  ⟨opOf_mkWord h, rsvOf_mkWord h⟩

theorem EncodedWord.of_mkWordB {op f rd off len : Nat} (h : BufFields op f rd off len) :
    opOf (mkWordB op f rd off len) = op ∧ rsvOf (mkWordB op f rd off len) = 0 :=
  ⟨opOf_mkWordB h, rsvOf_mkWordB h⟩

theorem EncodedWord.nop : EncodedWord.Statement (.nop) :=
  EncodedWord.of_mkWord ⟨by omega, by omega, by omega, by omega, by omega, by omega⟩

theorem EncodedWord.zeroize : EncodedWord.Statement (.zeroize) :=
  EncodedWord.of_mkWord ⟨by omega, by omega, by omega, by omega, by omega, by omega⟩

theorem EncodedWord.mov (rd : Idx) (ra : Idx) : EncodedWord.Statement (.mov rd ra) :=
  EncodedWord.of_mkWord ⟨by omega, by omega, by omega, by omega, by omega, by omega⟩

theorem EncodedWord.pmov (d : Idx) (a : Idx) : EncodedWord.Statement (.pmov d a) :=
  EncodedWord.of_mkWord ⟨by omega, by omega, by omega, by omega, by omega, by omega⟩

theorem EncodedWord.ldc (f : FieldSel) (rd : Idx) (cid : ConstId) : EncodedWord.Statement (.ldc f rd cid) :=
  EncodedWord.of_mkWord ⟨by omega, f.bit_lt, by omega, by omega, by omega, cid.cid_lt⟩

theorem EncodedWord.pldc (d : Idx) (cid : PointConstId) : EncodedWord.Statement (.pldc d cid) :=
  EncodedWord.of_mkWord ⟨by omega, by omega, by omega, by omega, by omega, cid.cid_lt⟩

theorem EncodedWord.fadd (f : FieldSel) (rd : Idx) (ra : Idx) (rb : Idx) : EncodedWord.Statement (.fadd f rd ra rb) :=
  EncodedWord.of_mkWord ⟨by omega, f.bit_lt, by omega, by omega, by omega, by omega⟩

theorem EncodedWord.fsub (f : FieldSel) (rd : Idx) (ra : Idx) (rb : Idx) : EncodedWord.Statement (.fsub f rd ra rb) :=
  EncodedWord.of_mkWord ⟨by omega, f.bit_lt, by omega, by omega, by omega, by omega⟩

theorem EncodedWord.fneg (f : FieldSel) (rd : Idx) (ra : Idx) : EncodedWord.Statement (.fneg f rd ra) :=
  EncodedWord.of_mkWord ⟨by omega, f.bit_lt, by omega, by omega, by omega, by omega⟩

theorem EncodedWord.fmul (f : FieldSel) (rd : Idx) (ra : Idx) (rb : Idx) : EncodedWord.Statement (.fmul f rd ra rb) :=
  EncodedWord.of_mkWord ⟨by omega, f.bit_lt, by omega, by omega, by omega, by omega⟩

theorem EncodedWord.fsqr (f : FieldSel) (rd : Idx) (ra : Idx) : EncodedWord.Statement (.fsqr f rd ra) :=
  EncodedWord.of_mkWord ⟨by omega, f.bit_lt, by omega, by omega, by omega, by omega⟩

theorem EncodedWord.finv (f : FieldSel) (rd : Idx) (ra : Idx) : EncodedWord.Statement (.finv f rd ra) :=
  EncodedWord.of_mkWord ⟨by omega, f.bit_lt, by omega, by omega, by omega, by omega⟩

theorem EncodedWord.finvz (f : FieldSel) (rd : Idx) (ra : Idx) : EncodedWord.Statement (.finvz f rd ra) :=
  EncodedWord.of_mkWord ⟨by omega, f.bit_lt, by omega, by omega, by omega, by omega⟩

theorem EncodedWord.fdiv (f : FieldSel) (rd : Idx) (ra : Idx) (rb : Idx) : EncodedWord.Statement (.fdiv f rd ra rb) :=
  EncodedWord.of_mkWord ⟨by omega, f.bit_lt, by omega, by omega, by omega, by omega⟩

theorem EncodedWord.fdivz (f : FieldSel) (rd : Idx) (ra : Idx) (rb : Idx) : EncodedWord.Statement (.fdivz f rd ra rb) :=
  EncodedWord.of_mkWord ⟨by omega, f.bit_lt, by omega, by omega, by omega, by omega⟩

theorem EncodedWord.fpow (f : FieldSel) (rd : Idx) (ra : Idx) (rb : Idx) : EncodedWord.Statement (.fpow f rd ra rb) :=
  EncodedWord.of_mkWord ⟨by omega, f.bit_lt, by omega, by omega, by omega, by omega⟩

theorem EncodedWord.fleg (f : FieldSel) (rd : Idx) (ra : Idx) : EncodedWord.Statement (.fleg f rd ra) :=
  EncodedWord.of_mkWord ⟨by omega, f.bit_lt, by omega, by omega, by omega, by omega⟩

theorem EncodedWord.fsqrt (f : FieldSel) (rd : Idx) (ra : Idx) : EncodedWord.Statement (.fsqrt f rd ra) :=
  EncodedWord.of_mkWord ⟨by omega, f.bit_lt, by omega, by omega, by omega, by omega⟩

theorem EncodedWord.fsum (f : FieldSel) (rd : Idx) (ra : Idx) (n : Idx) : EncodedWord.Statement (.fsum f rd ra n) :=
  EncodedWord.of_mkWord ⟨by omega, f.bit_lt, by omega, by omega, by omega, by omega⟩

theorem EncodedWord.fprod (f : FieldSel) (rd : Idx) (ra : Idx) (n : Idx) : EncodedWord.Statement (.fprod f rd ra n) :=
  EncodedWord.of_mkWord ⟨by omega, f.bit_lt, by omega, by omega, by omega, by omega⟩

theorem EncodedWord.fdot (f : FieldSel) (rd : Idx) (ra : Idx) (na : Idx) (rb : Idx) (nb : Idx) : EncodedWord.Statement (.fdot f rd ra na rb nb) :=
  EncodedWord.of_mkWord ⟨by omega, f.bit_lt, by omega, by omega, by omega, by omega⟩

theorem EncodedWord.ffromb (f : FieldSel) (rd : Idx) (off : BitVec 8) (len : BitVec 8) : EncodedWord.Statement (.ffromb f rd off len) :=
  EncodedWord.of_mkWordB ⟨by omega, f.bit_lt, rd.isLt, off.isLt, len.isLt⟩

theorem EncodedWord.ftob (f : FieldSel) (rs : Idx) (off : BitVec 8) : EncodedWord.Statement (.ftob f rs off) :=
  EncodedWord.of_mkWordB ⟨by omega, f.bit_lt, rs.isLt, off.isLt, by omega⟩

theorem EncodedWord.fent (f : FieldSel) (rd : Idx) (off : BitVec 8) (len : BitVec 8) : EncodedWord.Statement (.fent f rd off len) :=
  EncodedWord.of_mkWordB ⟨by omega, f.bit_lt, rd.isLt, off.isLt, len.isLt⟩

theorem EncodedWord.pfromb (d : Idx) (off : BitVec 8) (len : BitVec 8) : EncodedWord.Statement (.pfromb d off len) :=
  EncodedWord.of_mkWordB ⟨by omega, by omega, d.isLt, off.isLt, len.isLt⟩

theorem EncodedWord.ptob (src : Idx) (off : BitVec 8) : EncodedWord.Statement (.ptob src off) :=
  EncodedWord.of_mkWordB ⟨by omega, by omega, src.isLt, off.isLt, by omega⟩

theorem EncodedWord.padd (d : Idx) (a : Idx) (b : Idx) : EncodedWord.Statement (.padd d a b) :=
  EncodedWord.of_mkWord ⟨by omega, by omega, by omega, by omega, by omega, by omega⟩

theorem EncodedWord.pdbl (d : Idx) (a : Idx) : EncodedWord.Statement (.pdbl d a) :=
  EncodedWord.of_mkWord ⟨by omega, by omega, by omega, by omega, by omega, by omega⟩

theorem EncodedWord.pneg (d : Idx) (a : Idx) : EncodedWord.Statement (.pneg d a) :=
  EncodedWord.of_mkWord ⟨by omega, by omega, by omega, by omega, by omega, by omega⟩

theorem EncodedWord.ponc (a : Idx) : EncodedWord.Statement (.ponc a) :=
  EncodedWord.of_mkWord ⟨by omega, by omega, by omega, by omega, by omega, by omega⟩

theorem EncodedWord.pinsg (a : Idx) : EncodedWord.Statement (.pinsg a) :=
  EncodedWord.of_mkWord ⟨by omega, by omega, by omega, by omega, by omega, by omega⟩

theorem EncodedWord.smul (d : Idx) (a : Idx) (rb : Idx) : EncodedWord.Statement (.smul d a rb) :=
  EncodedWord.of_mkWord ⟨by omega, by omega, by omega, by omega, by omega, by omega⟩

theorem EncodedWord.smulvt (d : Idx) (a : Idx) (rb : Idx) : EncodedWord.Statement (.smulvt d a rb) :=
  EncodedWord.of_mkWord ⟨by omega, by omega, by omega, by omega, by omega, by omega⟩

end Sys2Proof.Laws
end

