-- ==== Sys2Proof/Tests/Slice0.lean ====
section
/-! SUPPORT. Tests of the model. Expected values are those of spec/95_test_vectors.md (the section is named
over each group), of the numbered rules, or computed by hand from them; none comes from this model. The
`witness` theorems show states and operands that meet the hypotheses of the statements in
Certificates/Slice0/Obligations.lean, clause by clause, at boundary values. -/

namespace Sys2Proof.Tests

open Sys2Proof Sys2Proof.Machine

-- The theorems of this file are checked one after another: each is one kernel evaluation.
set_option Elab.async false

/-! ### Helpers -/

/-- `CFG_TOY` after reset with some registers and buffer bytes set. -/
def st (rs : List (Nat × Nat)) (bs : List (Nat × Nat)) : State :=
  { rs.foldl (fun s p => s.setReg p.1 p.2) State.reset with
    buf := bs.foldl (fun m p => m.write p.1 (BitVec.ofNat 8 p.2)) [] }

/-- The state after one command word, run by `step` as the first command. -/
def after (s : State) (w : Word) : Option State :=
  match Sys2Proof.Machine.step (s.withFetchWord 32 w.toNat) with
  | .next t => some t
  | _ => none

/-- `STATUS` and one register after a command word. -/
def run1 (s : State) (w : Word) (n : Nat) : Option (Word × Nat) :=
  (after s w).map fun t => (t.statusWord, t.reg n)

/-- `STATUS` and the register pair at `n` after a command word. -/
def run2 (s : State) (w : Word) (n : Nat) : Option (Word × Nat × Nat) :=
  (after s w).map fun t => (t.statusWord, t.reg n, t.reg (n + 1))

/-- `STATUS` and four buffer bytes from `a` on after a command word. -/
def runB (s : State) (w : Word) (a : Nat) : Option (Word × List Nat) :=
  (after s w).map fun t => (t.statusWord, (t.buf.readBytes a 4).map BitVec.toNat)

/-- `CFG_TOY` with the residue 4 in place of the nonresidue (95_test_vectors.md 2.4). -/
def badNr : State := { State.reset with cfg := { Cfg.toy with bf := { p := 353, k := 5, nr := 4 } } }

/-- `CFG_TOY` with `Order = 327` (95_test_vectors.md, program 7), after reset. -/
def badOrder : State := State.resetOf { Cfg.toy with order := 327 }

/-- `CFG_TOY` with `D = 1`, a square, so that the curve has exceptional points. -/
def squareD (rs : List (Nat × Nat)) : State := { st rs [] with cfg := { Cfg.toy with curveD := 1 } }

/-! ### Well-formedness -/

theorem test_ill_formed_ldc_refused : Instr.wellFormed (.ldc .sf 3 .curveA) = false := by decide
theorem test_ill_formed_ldc_refused_cofactor : Instr.wellFormed (.ldc .sf 0 .cofactor) = false := by decide
theorem test_ldc_nonres_sf_well_formed : Instr.wellFormed (.ldc .sf 3 .nonres) = true := by decide
/-- Run as a term, the ill-formed command is `E_ILLEGAL` (log entry 13). -/
theorem test_ill_formed_ldc_runs_illegal :
    Sys2Proof.Machine.exec (.ldc .sf 3 .curveA) State.reset = .next (raiseError .illegal State.reset) := rfl

/-! ### Decoding: words written out from 30_encoding.md R81, R82, R89 (and 95_test_vectors.md) -/

theorem test_decode_nop : decode 0x01000000 = .ok (.nop) := by decide +kernel
theorem test_decode_zeroize : decode 0x02000000 = .ok (.zeroize) := by decide +kernel
theorem test_decode_mov : decode 0x04091000 = .ok (.mov 9 1) := by decide +kernel
theorem test_decode_pmov : decode 0x05010000 = .ok (.pmov 1 0) := by decide +kernel
theorem test_decode_ldc : decode 0x06800002 = .ok (.ldc .sf 0 .nonres) := by decide +kernel
theorem test_decode_pldc : decode 0x07020001 = .ok (.pldc 2 .gen) := by decide +kernel
theorem test_decode_fadd : decode 0x10831200 = .ok (.fadd .sf 3 1 2) := by decide +kernel
theorem test_decode_fsub : decode 0x11031200 = .ok (.fsub .bf 3 1 2) := by decide +kernel
theorem test_decode_fneg : decode 0x12831000 = .ok (.fneg .sf 3 1) := by decide +kernel
theorem test_decode_fmul : decode 0x13031200 = .ok (.fmul .bf 3 1 2) := by decide +kernel
theorem test_decode_fsqr : decode 0x14032000 = .ok (.fsqr .bf 3 2) := by decide +kernel
theorem test_decode_finv : decode 0x15054000 = .ok (.finv .bf 5 4) := by decide +kernel
theorem test_decode_finvz : decode 0x16054000 = .ok (.finvz .bf 5 4) := by decide +kernel
theorem test_decode_fdiv : decode 0x17831200 = .ok (.fdiv .sf 3 1 2) := by decide +kernel
theorem test_decode_fdivz : decode 0x18031200 = .ok (.fdivz .bf 3 1 2) := by decide +kernel
theorem test_decode_fpow : decode 0x19831200 = .ok (.fpow .sf 3 1 2) := by decide +kernel
theorem test_decode_fleg : decode 0x1A831000 = .ok (.fleg .sf 3 1) := by decide +kernel
theorem test_decode_fsqrt : decode 0x1B831000 = .ok (.fsqrt .sf 3 1) := by decide +kernel
theorem test_decode_fsum : decode 0x1C00E030 = .ok (.fsum .bf 0 14 3) := by decide +kernel
theorem test_decode_fprod : decode 0x1D0B4030 = .ok (.fprod .bf 11 4 3) := by decide +kernel
theorem test_decode_fdot : decode 0x1E0C0432 = .ok (.fdot .bf 12 0 3 4 2) := by decide +kernel
theorem test_decode_ffromb : decode 0x20820401 = .ok (.ffromb .sf 2 4 1) := by decide +kernel
theorem test_decode_ftob : decode 0x21872000 = .ok (.ftob .sf 7 0x20) := by decide +kernel
theorem test_decode_fent : decode 0x22800004 = .ok (.fent .sf 0 0 4) := by decide +kernel
theorem test_decode_pfromb : decode 0x28061004 = .ok (.pfromb 6 0x10 4) := by decide +kernel
theorem test_decode_ptob : decode 0x29043000 = .ok (.ptob 4 0x30) := by decide +kernel
theorem test_decode_padd : decode 0x300A8400 = .ok (.padd 10 8 4) := by decide +kernel
theorem test_decode_pdbl : decode 0x31084000 = .ok (.pdbl 8 4) := by decide +kernel
theorem test_decode_pneg : decode 0x32040000 = .ok (.pneg 4 0) := by decide +kernel
theorem test_decode_ponc : decode 0x3300F000 = .ok (.ponc 15) := by decide +kernel
theorem test_decode_pinsg : decode 0x34006000 = .ok (.pinsg 6) := by decide +kernel
theorem test_decode_smul : decode 0x35086000 = .ok (.smul 8 6 0) := by decide +kernel
theorem test_decode_smulvt : decode 0x36042000 = .ok (.smulvt 4 2 0) := by decide +kernel

theorem test_refuse_zero_word : decode 0x00000000 = .error .reservedOpcode := by decide +kernel
theorem test_refuse_reserved_op : decode 0x03000000 = .error .reservedOpcode := by decide +kernel
theorem test_refuse_all_ones : decode 0xFF000000 = .error .reservedOpcode := by decide +kernel
theorem test_refuse_rsv : decode 0x10131200 = .error .reservedBits := by decide +kernel
theorem test_refuse_nop_field : decode 0x01800000 = .error .fieldSelect := by decide +kernel
theorem test_refuse_padd_field : decode 0x30800000 = .error .fieldSelect := by decide +kernel
theorem test_refuse_imm8 : decode 0x10031201 = .error .unusedField := by decide +kernel
theorem test_refuse_ponc_rd : decode 0x33010000 = .error .unusedField := by decide +kernel
theorem test_refuse_ftob_len : decode 0x21070001 = .error .unusedField := by decide +kernel
theorem test_refuse_ldc_cid : decode 0x06000007 = .error .constantId := by decide +kernel
theorem test_refuse_ldc_sf_curve : decode 0x06800003 = .error .fieldSelect := by decide +kernel
theorem test_refuse_pldc_cid : decode 0x070F0003 = .error .constantId := by decide +kernel

/-- No word selects two rows of the opcode table (30_encoding.md R89): on the bits that both masks fix,
any two rows ask for different values. -/
theorem test_opcode_rows_disjoint :
    opcodeTable.Pairwise fun a b => a.2 &&& b.1 ≠ b.2 &&& a.1 := by decide +kernel

/-- There are 33 rows, and every row's `match` lies inside its `mask`. -/
theorem test_opcode_rows_consistent :
    opcodeTable.length = 33 ∧ (opcodeTable.all fun row => row.1 &&& row.2 == row.2) = true := by
  decide +kernel

theorem test_table_word : decodeTableWord 32 0x1E090433 = some (.fdot .bf 9 0 3 4 3) := by decide +kernel

/-! ### Field arithmetic (95_test_vectors.md 2.1 to 2.5) -/

theorem test_fadd_wraps : run1 (st [(1, 352), (2, 1)] []) 0x10031200 3 = some (0x00000002, 0) := by
  decide +kernel
theorem test_fadd_range_in_the_selected_field : run1 (st [(1, 41), (2, 1), (3, 77)] []) 0x10831200 3 = some (0x00001106, 77) := by
  decide +kernel
theorem test_fsub_wraps : run1 (st [(1, 5), (2, 7)] []) 0x11031200 3 = some (0x00000002, 351) := by
  decide +kernel
theorem test_fsub_destination_is_source : run1 (st [(1, 9), (2, 9)] []) 0x11011200 1 = some (0x00000002, 0) := by
  decide +kernel
theorem test_fneg_zero : run1 (st [(1, 0), (3, 7)] []) 0x12031000 3 = some (0x00000002, 0) := by
  decide +kernel
theorem test_fneg_sf : run1 (st [(1, 1)] []) 0x12831000 3 = some (0x00000002, 40) := by
  decide +kernel
theorem test_fmul_reduces : run1 (st [(1, 200), (2, 300)] []) 0x13031200 3 = some (0x00000002, 343) := by
  decide +kernel
theorem test_fsqr : run1 (st [(1, 19)] []) 0x14031000 3 = some (0x00000002, 8) := by
  decide +kernel
theorem test_finv : run1 (st [(1, 200)] []) 0x15031000 3 = some (0x00000002, 323) := by
  decide +kernel
theorem test_finv_zero : run1 (st [(1, 0), (3, 77)] []) 0x15031000 3 = some (0x00000106, 77) := by
  decide +kernel
theorem test_finvz_zero : run1 (st [(1, 0), (3, 77)] []) 0x16031000 3 = some (0x00000002, 0) := by
  decide +kernel
theorem test_finvz : run1 (st [(1, 2)] []) 0x16031000 3 = some (0x00000002, 177) := by
  decide +kernel
theorem test_fdiv : run1 (st [(1, 10), (2, 4)] []) 0x17031200 3 = some (0x00000002, 179) := by
  decide +kernel
theorem test_fdiv_range_before_zero : run1 (st [(1, 353), (2, 0), (3, 77)] []) 0x17031200 3 = some (0x00001106, 77) := by
  decide +kernel
theorem test_fdivz_zero : run1 (st [(1, 10), (2, 0), (3, 5)] []) 0x18031200 3 = some (0x00000002, 0) := by
  decide +kernel
theorem test_fdivz : run1 (st [(1, 10), (2, 4)] []) 0x18031200 3 = some (0x00000002, 179) := by
  decide +kernel
theorem test_fpow_raw_exponent : run1 (st [(1, 2), (2, 65535)] []) 0x19031200 3 = some (0x00000002, 270) := by
  decide +kernel
theorem test_fpow_zero_to_zero : run1 (st [(1, 0), (2, 0)] []) 0x19031200 3 = some (0x00000002, 1) := by
  decide +kernel
theorem test_fleg_nonresidue : run1 (st [(1, 3)] []) 0x1A031000 3 = some (0x00000002, 352) := by
  decide +kernel
theorem test_fleg_sf_residue : run1 (st [(1, 2)] []) 0x1A831000 3 = some (0x00000002, 1) := by
  decide +kernel
theorem test_fsqrt_root : run1 (st [(1, 4)] []) 0x1B031000 3 = some (0x00000002, 351) := by
  decide +kernel
theorem test_fsqrt_absent : run1 (st [(1, 3), (3, 77)] []) 0x1B031000 3 = some (0x0000000A, 77) := by
  decide +kernel
theorem test_fsum : run1 (st [(0, 300), (1, 200), (2, 100)] []) 0x1C050030 5 = some (0x00000002, 247) := by
  decide +kernel
theorem test_fsum_bounds : run1 (st [] []) 0x1C00E030 0 = some (0x00001206, 0) := by
  decide +kernel
theorem test_fprod : run1 (st [(0, 300), (1, 200), (2, 100)] []) 0x1D050030 5 = some (0x00000002, 59) := by
  decide +kernel
theorem test_fprod_empty : run1 (st [(3, 99), (15, 999)] []) 0x1D03F000 3 = some (0x00000002, 1) := by
  decide +kernel
theorem test_fdot : run1 (st [(0, 1), (1, 2), (2, 3), (4, 4), (5, 5), (6, 6)] []) 0x1E090433 9 = some (0x00000002, 32) := by
  decide +kernel
theorem test_fdot_length_before_bounds : run1 (st [] []) 0x1E00E032 0 = some (0x00000206, 0) := by
  decide +kernel

/-- `E_INTERNAL` in the misconfigured fields of 2.4 (R127). -/
theorem test_fsqrt_internal : fsqrt { p := 353, k := 5, nr := 4 } 2 = .error .internal := by decide +kernel
theorem test_fsqrt_internal_composite : fsqrt { p := 15, k := 1, nr := 2 } 2 = .error .internal := by
  decide +kernel

/-! ### Codecs (2.6, 2.7) -/

theorem test_ffromb : run1 (st [] [(0, 96), (1, 1)]) 0x20010002 1 = some (0x00000002, 352) := by
  decide +kernel
theorem test_ffromb_out_of_range_absent : run1 (st [(1, 7)] [(0, 97), (1, 1)]) 0x20010002 1 = some (0x0000000A, 7) := by
  decide +kernel
theorem test_ftob_at_the_end : runB (st [(7, 352)] []) 0x2107FE00 252 = some (0x00000002, [0, 0, 0x60, 1]) := by
  decide +kernel
theorem test_ftob_bounds_before_range : runB (st [(7, 353)] []) 0x2107FF00 252 = some (0x00001206, [0, 0, 0, 0]) := by
  decide +kernel
theorem test_fent : run1 (st [] [(0, 239), (1, 190), (2, 173), (3, 222)]) 0x22800004 0 = some (0x00000002, 31) := by
  decide +kernel
theorem test_fent_empty : run1 (st [(0, 7)] []) 0x22800000 0 = some (0x00000002, 0) := by
  decide +kernel
theorem test_pfromb : run2 (st [] [(16, 8), (17, 1), (18, 229)]) 0x28061004 6 = some (0x00000002, 264, 229) := by
  decide +kernel
theorem test_pfromb_off_curve_absent : run2 (st [(0, 134), (1, 49)] [(0, 1), (2, 1)]) 0x28000004 0 = some (0x0000000A, 134, 49) := by
  decide +kernel
theorem test_ptob : runB (st [(2, 157), (3, 22)] []) 0x29024000 64 = some (0x00000002, [0x9D, 0, 0x16, 0]) := by
  decide +kernel
theorem test_ptob_range : runB (st [(0, 353)] []) 0x29000000 0 = some (0x00001106, [0, 0, 0, 0]) := by
  decide +kernel

/-! ### Curve (2.8, 2.9) -/

theorem test_padd : run2 (st [(0, 4), (1, 143), (2, 157), (3, 22)] []) 0x30040200 4 = some (0x00000002, 47, 325) := by
  decide +kernel
theorem test_padd_overlap : run2 (st [(0, 157), (1, 22), (2, 1)] []) 0x30010100 1 = some (0x00000002, 140, 0) := by
  decide +kernel
theorem test_padd_divzero : run2 (st [(0, 1), (1, 1), (2, 1), (3, 141), (4, 7), (5, 8)] []) 0x30040200 4 = some (0x00000106, 7, 8) := by
  decide +kernel
theorem test_pdbl : run2 (st [(0, 157), (1, 22)] []) 0x31040000 4 = some (0x00000002, 225, 321) := by
  decide +kernel
theorem test_pneg : run2 (st [(0, 157), (1, 22)] []) 0x32040000 4 = some (0x00000002, 157, 331) := by
  decide +kernel
theorem test_pneg_is_not_the_group_inverse : run2 (st [(0, 157), (1, 22), (2, 157), (3, 331)] []) 0x30040200 4 = some (0x00000002, 0, 352) := by
  decide +kernel
theorem test_ponc_on : run1 (st [(0, 118), (1, 0)] []) 0x33000000 0 = some (0x00000012, 118) := by
  decide +kernel
theorem test_ponc_off : run1 (st [(0, 1), (1, 1)] []) 0x33000000 0 = some (0x00000002, 1) := by
  decide +kernel
theorem test_pinsg_in : run1 (st [(0, 157), (1, 22)] []) 0x34000000 0 = some (0x00000012, 157) := by
  decide +kernel
theorem test_pinsg_order_8 : run1 (st [(0, 134), (1, 49)] []) 0x34000000 0 = some (0x00000002, 134) := by
  decide +kernel
theorem test_smul_overwrites_its_scalar : run2 (st [(0, 157), (1, 22), (2, 3)] []) 0x35020200 2 = some (0x00000002, 153, 266) := by
  decide +kernel
theorem test_smul_off_curve_divzero : run2 (st [(0, 4), (1, 5), (2, 2), (4, 7), (5, 8)] []) 0x35040200 4 = some (0x00000106, 7, 8) := by
  decide +kernel
theorem test_smulvt_clears_the_cofactor : run2 (st [(0, 4), (1, 143), (2, 8)] []) 0x36040200 4 = some (0x00000002, 157, 22) := by
  decide +kernel
theorem test_smulvt_off_curve : run2 (st [(0, 4), (1, 5), (2, 2)] []) 0x36040200 4 = some (0x00000002, 60, 352) := by
  decide +kernel

/-! ### System commands (2.10) -/

theorem test_nop : run1 (st [(3, 9)] []) 0x01000000 3 = some (0x00000002, 9) := by
  decide +kernel
theorem test_zeroize : run2 (st [(1, 5), (2, 6)] []) 0x02000000 1 = some (0x00000002, 0, 0) := by
  decide +kernel
theorem test_zeroize_buffer : runB (st [] [(9, 170)]) 0x02000000 8 = some (0x00000002, [0, 0, 0, 0]) := by
  decide +kernel
theorem test_mov_raw : run1 (st [(1, 65535)] []) 0x04091000 9 = some (0x00000002, 65535) := by
  decide +kernel
theorem test_pmov_overlap : run2 (st [(0, 7), (1, 8)] []) 0x05010000 1 = some (0x00000002, 7, 8) := by
  decide +kernel
theorem test_pmov_bounds : run2 (st [(0, 7), (15, 8)] []) 0x050F0000 15 = some (0x00001206, 8, 0) := by
  decide +kernel
theorem test_ldc_suborder : run1 (st [] []) 0x06010005 1 = some (0x00000002, 41) := by
  decide +kernel
theorem test_ldc_curve_d : run1 (st [] []) 0x06000004 0 = some (0x00000002, 5) := by
  decide +kernel
theorem test_pldc_neutral : run2 (st [(4, 9), (5, 9)] []) 0x07040000 4 = some (0x00000002, 0, 1) := by
  decide +kernel
theorem test_pldc_illegal_before_bounds : run2 (st [] []) 0x070F0003 14 = some (0x00001006, 0, 0) := by
  decide +kernel

/-! ### Host interface, errors, reset (2.11 and program 7) -/

theorem test_window_lanes :
    (hostWrite (st [] [(0, 0x11), (1, 0x22), (2, 0x33), (3, 0x44)]) 0x100 0xAABBCCDD 0b0100).buf =
      [(0, 0x11), (1, 0x22), (2, 0xBB), (3, 0x44)] := by decide +kernel
theorem test_window_read :
    hostRead (st [] [(0, 0x11), (1, 0x22), (2, 0xBB), (3, 0x44)]) 0x100 = 0x44BB2211 := by decide +kernel
theorem test_window_zero_removes_entry :
    (hostWrite (st [] [(0, 0x11)]) 0x100 0 0b1111).buf = [] := by decide +kernel
theorem test_cmd_needs_all_strobes : hostWrite State.reset 0x000 0x01000000 0b0111 = State.reset := by
  decide +kernel
theorem test_busy_status :
    hostRead (hostWrite State.reset 0x000 0x01000000 0b1111) 0x004 = 0x00000001 := by decide +kernel
theorem test_busy_hides_buffer :
    hostRead (accept (st [] [(0, 0x11)]) 0x01000000) 0x100 = 0 := by decide +kernel
theorem test_unmapped : hostRead (st [] [(0, 0x11)]) 0x200 = 0 ∧ hostRead (st [] [(0, 0x11)]) 0x0FC = 0 := by
  decide +kernel
theorem test_latched_error_discards :
    hostWrite (raiseError .illegal State.reset) 0x000 0x01000000 0b1111 = raiseError .illegal State.reset := by
  decide +kernel
theorem test_clear_error :
    (hostWrite (raiseError .illegal State.reset) 0x008 0x2 0b0001).statusWord = 0x00000002 := by
  decide +kernel
theorem test_soft_reset :
    hostWrite (raiseError .range (st [(3, 9)] [(9, 1)])) 0x008 0x3 0b0001 = State.reset := by decide +kernel
theorem test_construct_latched : badOrder.statusWord = 0x00000304 := by decide +kernel
theorem test_construct_not_clearable : hostWrite badOrder 0x008 0x2 0b0001 = badOrder := by decide +kernel
theorem test_construct_soft_reset : hostWrite badOrder 0x008 0x1 0b0001 = badOrder := by decide +kernel
theorem test_construct_discards : hostWrite badOrder 0x000 0x01000000 0b1111 = badOrder := by decide +kernel

/-! ### `CFG_BJJ` at full width (95_test_vectors.md section 4) -/

theorem test_bjj_inverse : finv Cfg.bjj.bf.p 2 =
    .ok 10944121435919637611123202872628637544274182200208017171849102093287904247809 := by decide +kernel
theorem test_bjj_double : pdbl Cfg.bjj Cfg.bjj.base =
    .ok ⟨10031262171927540148667355526369034398030886437092045105752248699557385197826,
      633281375905621697187330766174974863687049529291089048651929454608812697683⟩ := by decide +kernel


/-! ### Witnesses: `CFG_TOY` meets `CfgOK`; sound states -/

theorem toy_bf_ok : FieldOk Cfg.toy.bf where
  prime := by norm_num [Cfg.toy]
  odd := by decide
  one_le_k := by decide
  dvd := by decide +kernel
  exact := by decide +kernel
  nr_lt := by decide
  nonresidue := by decide +kernel

theorem toy_sf_ok : FieldOk Cfg.toy.sf where
  prime := by norm_num [Cfg.toy]
  odd := by decide
  one_le_k := by decide
  dvd := by decide +kernel
  exact := by decide +kernel
  nr_lt := by decide
  nonresidue := by decide +kernel

/-- The example configuration of 00_scope.md R9 meets `CfgOK` (R7). -/
theorem toy_ok : CfgOk Cfg.toy where
  bfOk := toy_bf_ok
  sfOk := toy_sf_ok
  a_lt := by decide
  d_lt := by decide
  gen_lt := by decide
  base_lt := by decide
  gen_on := by decide +kernel
  base_on := by decide +kernel
  base_eq := by decide +kernel
  subOrder_prime := by norm_num [Cfg.toy]
  base_order := by decide +kernel
  sizes := ⟨by decide +kernel, by decide +kernel, by decide +kernel, by decide +kernel, by decide +kernel,
    by decide +kernel⟩

theorem badOrder_construct : badOrder.cfg.cofactor * badOrder.cfg.subOrder ≠ badOrder.cfg.order := by
  decide

/-- The states `st` builds are states of `CFG_TOY`. -/
theorem st_cfg (rs bs : List (Nat × Nat)) : (st rs bs).cfg = Cfg.toy := by
  have h : ∀ (l : List (Nat × Nat)) (s : State),
      (l.foldl (fun s p => s.setReg p.1 p.2) s).cfg = s.cfg := by
    intro l
    induction l with
    | nil => intro s; rfl
    | cons p l ih => intro s; exact ih _
  exact h rs State.reset

theorem st_ok (rs bs : List (Nat × Nat)) : CfgOk (st rs bs).cfg := (st_cfg rs bs).symm ▸ toy_ok

/-- A state that is idle after reset with a canonical buffer and registers in range is sound. -/
theorem stateOk_of_idle {s : State}
    (h : (s.buf.wf ∧ ∀ n, n < 16 → s.reg n < 2 ^ s.cfg.regw) ∧ s.err = false ∧ s.errCode = 0 ∧
      constructOk s.cfg = true ∧ s.busy = false ∧ s.absent = false ∧ s.boolRes = false ∧ s.cmd = 0) :
    StateOk s := by
  obtain ⟨⟨h1, h2⟩, h3, h4, h5, h6, h7, h8, h9⟩ := h
  exact ⟨h1, h2, by simp [h6], by simp [h3, h4], .inl h4, by rw [h4, h5]; decide, by simp [h3, h7],
    by simp [h7, h8, h9]⟩

/-- A state with `E_RANGE` latched after a command. -/
def latched : State :=
  { State.reset with
    cmd := 0x10831200
    done := true
    err := true
    errCode := 0x11
    inbox := [⟨.write 3 0x01000000 0b1111, true⟩, ⟨.write 0 0x02000000 0b0001, false⟩] }

theorem latched_ok : StateOk latched :=
  ⟨by decide +kernel, by decide +kernel, by decide, by decide, .inr ⟨.range, rfl⟩, by decide, by decide,
    by decide⟩

theorem badOrder_ok : StateOk badOrder :=
  ⟨by decide +kernel, by decide +kernel, by decide, by decide, .inr ⟨.construct, rfl⟩, by decide, by decide,
    by decide⟩

/-- A command pending in a sound state. -/
def busy (w : Word) : State := accept State.reset w

theorem busy_ok (w : Word) : StateOk (busy w) where
  buf_wf := by show Memory.wf []; decide
  regs_fit := by show ∀ n, n < 16 → State.reset.reg n < 2 ^ State.reset.cfg.regw; decide +kernel
  busy_clean := fun _ => ⟨rfl, rfl, rfl, rfl⟩
  err_code := by show false = false ↔ (0 : BitVec 8) = 0; decide
  code_known := .inl rfl
  construct_code := by show (0 : BitVec 8) = ErrKind.code .construct ↔ constructOk Cfg.toy = false; decide
  flags_apart := ⟨rfl, rfl⟩
  idle_fresh := fun h => by cases h

/-! ### Witnesses: encoding and the step -/

theorem witness_DecodeOfEncode : Instr.wellFormed (.ldc .sf 15 .nonres) = true ∧
    Instr.wellFormed (.ldc .bf 0 .cofactor) = true ∧ Instr.wellFormed (.fdot .sf 15 15 15 15 15) = true := by
  decide

theorem witness_EncodeOfDecode : decode 0x1EFFFFFF = .error .reservedBits ∧
    decode 0x1E8FFFFF = .ok (.fdot .sf 15 15 15 15 15) := by decide +kernel

theorem legal_iff (w : Word) : LegalWord w ↔
    ((opcodeTable.any fun row => w &&& row.1 == row.2) = true ∧ cidOk w) := by
  simp [LegalWord, List.any_eq_true]

theorem witness_DecodeAgreesWithOpcodeTable_legal : LegalWord 0x1E8FFFFF := by
  rw [legal_iff]; unfold cidOk; decide +kernel

theorem witness_DecodeAgreesWithOpcodeTable_illegal : ¬ LegalWord 0x06800003 := by
  rw [legal_iff]; unfold cidOk; decide +kernel

theorem witness_IllegalWordRaisesIllegal : EngineTurn (busy 0x10131200) ∧ ¬ LegalWord (busy 0x10131200).cmd :=
  ⟨⟨rfl, .inl rfl⟩, by rw [legal_iff]; unfold cidOk; decide +kernel⟩

theorem witness_StepRunsDecodedCommand_engine :
    EngineTurn (busy 0x10131200) ∧ EngineTurn { busy 0x01000000 with inbox := [⟨.read 4, false⟩] } ∧
      decode ({ busy 0x01000000 with inbox := [⟨.read 4, false⟩] } : State).cmd = .ok .nop :=
  ⟨⟨rfl, .inl rfl⟩, ⟨rfl, .inr ⟨_, _, rfl, rfl⟩⟩, by decide +kernel⟩

theorem witness_StepRunsDecodedCommand_host :
    ({ State.reset with inbox := [⟨.hardReset, false⟩] } : State).busy = false ∧
      ({ busy 0x01000000 with inbox := [⟨.read 4, true⟩] } : State).inbox = [⟨.read 4, true⟩] := by decide

theorem witness_StepRunsDecodedCommand_idle : State.reset.inbox = [] ∧ State.reset.busy = false := by decide

theorem witness_EveryCommandCompletesOrRaises :
    Sys2Proof.Machine.exec .nop State.reset = .next (finish State.reset false false) ∧
      Sys2Proof.Machine.exec (.pmov 15 0) State.reset = .next (raiseError .bounds State.reset) := ⟨rfl, rfl⟩

theorem witness_AbsentOnlyFromThreeCommands :
    Sys2Proof.Machine.exec (.ffromb .bf 1 0 1) State.reset = .next (finish State.reset true false) ∧
      (finish State.reset true false).absent = true := ⟨rfl, rfl⟩

theorem witness_BoolOnlyFromPredicates :
    Sys2Proof.Machine.exec (.ponc 0) (st [(1, 1)] []) = .next (finish (st [(1, 1)] []) false true) ∧
      (finish (st [(1, 1)] []) false true).boolRes = true := ⟨rfl, rfl⟩

/-! ### Witnesses: invariants and host accesses -/

theorem witness_StepKeepsInvariant : StateOk latched ∧
    Sys2Proof.Machine.step latched = .next { latched with inbox := latched.inbox.tail } := ⟨latched_ok, rfl⟩

theorem witness_StepKeepsInvariant_engine : StateOk (busy 0x01000000) ∧
    Sys2Proof.Machine.step (busy 0x01000000) = .next (finish (busy 0x01000000) false false) :=
  ⟨busy_ok _, rfl⟩

theorem witness_NoStopUnderCfgOk : CfgOk (busy 0x35042000).cfg ∧ StateOk (busy 0x35042000) :=
  ⟨toy_ok, busy_ok _⟩

theorem witness_BadBuildNeverAccepts : StateOk badOrder ∧
    badOrder.cfg.cofactor * badOrder.cfg.subOrder ≠ badOrder.cfg.order ∧
    Sys2Proof.Machine.step badOrder = .next badOrder ∧
    ({ Cfg.toy with order := 327 } : Cfg).cofactor * ({ Cfg.toy with order := 327 } : Cfg).subOrder ≠ 327 :=
  ⟨badOrder_ok, badOrder_construct, rfl, by decide⟩

theorem witness_LatchedErrorFailsFast : StateOk latched ∧ latched.err = true ∧
    (∀ a ∈ latched.inbox, ∃ off data strb, a.act = .write off data strb ∧ off.toNat < 4) ∧
    Host.Core.run Sys2Proof.core 2 latched = .next { latched with inbox := [] } := by
  refine ⟨latched_ok, rfl, ?_, rfl⟩
  intro a ha
  simp only [latched, List.mem_cons, List.not_mem_nil, or_false] at ha
  rcases ha with rfl | rfl
  · exact ⟨_, _, _, rfl, by decide⟩
  · exact ⟨_, _, _, rfl, by decide⟩

theorem witness_ResetsLeaveResetValues :
    (8 : BitVec 10).toNat / 4 = 2 ∧ (11 : BitVec 10).toNat / 4 = 2 ∧ latched.busy = false ∧
      (0b0001 : BitVec 4).getLsbD 0 = true ∧ (0x3 : Word).getLsbD 0 = true := by decide

theorem witness_CmdWriteAcceptsOrIsLost :
    (3 : BitVec 10).toNat < 4 ∧ (State.reset.busy = false ∧ State.reset.err = false) ∧
      ¬ (latched.busy = false ∧ latched.err = false ∧ (0b1111 : BitVec 4) = 0b1111) ∧
      ¬ ((busy 0).busy = false) := by decide

theorem witness_CtrlWriteResetsOrClearsLatch :
    (11 : BitVec 10).toNat / 4 = 2 ∧ (busy 0).busy = true ∧ (0b1110 : BitVec 4).getLsbD 0 = false ∧
      latched.busy = false ∧ (0x2 : Word).getLsbD 0 = false ∧ (0x2 : Word).getLsbD 1 = true ∧
      (latched.err = true ∧ latched.errCode ≠ 0x03) ∧ ¬ (badOrder.err = true ∧ badOrder.errCode ≠ 0x03) ∧
      ¬ (State.reset.err = true ∧ State.reset.errCode ≠ 0x03) ∧
      (0xFFFFFFFC : Word).getLsbD 0 = false ∧ (0xFFFFFFFC : Word).getLsbD 1 = false := by decide

theorem witness_WindowAccess :
    64 ≤ (0x100 : BitVec 10).toNat / 4 ∧ (0x1FF : BitVec 10).toNat / 4 < 128 ∧
      (st [] [(0, 1), (255, 2)]).buf.wf ∧ (st [] [(0, 1), (255, 2)]).busy = false ∧
      (busy 0).buf.wf ∧ (busy 0).busy = true := by decide +kernel

theorem witness_StatusReadBits : (4 : BitVec 10).toNat / 4 = 1 ∧ (7 : BitVec 10).toNat / 4 = 1 ∧
    StateOk (busy 0) ∧ (busy 0).busy = true := ⟨by decide, by decide, busy_ok _, rfl⟩

theorem witness_ReadsAndIgnoredWrites :
    (3 : BitVec 10).toNat / 4 = 0 ∧ (11 : BitVec 10).toNat / 4 = 2 ∧
      3 ≤ (12 : BitVec 10).toNat / 4 ∧ (255 : BitVec 10).toNat / 4 < 64 ∧
      128 ≤ (512 : BitVec 10).toNat / 4 ∧ 128 ≤ (1023 : BitVec 10).toNat / 4 ∧
      (7 : BitVec 10).toNat / 4 = 1 ∧ (7 : BitVec 10).toNat / 4 = (4 : BitVec 10).toNat / 4 := by decide

theorem witness_BusyHidesBufferAndRegisters : (busy 0x01000000).busy = true := rfl

/-! ### Witnesses: field and curve mathematics -/

theorem witness_InverseIsTheInverse : Nat.Prime 353 ∧ 0 < 1 ∧ 1 < 353 ∧ 0 < 352 ∧ 352 < 353 := by norm_num

theorem witness_PowerScanIsPower : 1 < 2 := by decide

theorem witness_SquareRootIsCorrect_root :
    FieldOk Cfg.toy.bf ∧ 352 < Cfg.toy.bf.p ∧ (∃ y, y * y % Cfg.toy.bf.p = 352) ∧
      ∃ y, y * y % Cfg.toy.bf.p = 0 := ⟨toy_bf_ok, by decide, ⟨42, by decide +kernel⟩, ⟨0, by decide⟩⟩

theorem witness_SquareRootIsCorrect_absent :
    FieldOk Cfg.toy.sf ∧ 3 < Cfg.toy.sf.p ∧ ∀ y, y * y % Cfg.toy.sf.p ≠ 3 := by
  refine ⟨toy_sf_ok, by decide, fun y h => ?_⟩
  have key : ∀ z, z < 41 → z * z % 41 ≠ 3 := by decide +kernel
  apply key (y % 41) (Nat.mod_lt _ (by decide))
  rw [← Nat.mul_mod]
  exact h

theorem witness_FieldProperties : FieldOk Cfg.toy.sf ∧ 40 < Cfg.toy.sf.p ∧ 40 ≠ 0 :=
  ⟨toy_sf_ok, by decide, by decide⟩

theorem witness_AdditionLaw_zero : CfgOk Cfg.toy ∧ DenominatorZero Cfg.toy ⟨1, 1⟩ ⟨1, 141⟩ ∧
    DenominatorZero Cfg.toy ⟨60, 352⟩ ⟨4, 5⟩ := by
  refine ⟨toy_ok, ?_, ?_⟩ <;> unfold DenominatorZero <;> decide +kernel

theorem witness_AdditionLaw : CfgOk Cfg.toy ∧ ¬ DenominatorZero Cfg.toy ⟨352, 352⟩ ⟨157, 22⟩ := by
  refine ⟨toy_ok, ?_⟩
  unfold DenominatorZero
  decide +kernel

theorem witness_NegationIsNotTheGroupInverse : CfgOk Cfg.toy ∧ oncurve Cfg.toy ⟨157, 22⟩ = true ∧
    padd Cfg.toy ⟨157, 22⟩ (pneg Cfg.toy ⟨157, 22⟩) = .ok ⟨0, 352⟩ :=
  ⟨toy_ok, by decide +kernel, by decide +kernel⟩

theorem witness_LadderLeadingZerosChangeNothing :
    CfgOk Cfg.toy ∧ 352 < Cfg.toy.bf.p ∧ 65535 < 2 ^ Cfg.toy.regw := ⟨toy_ok, by decide, by decide +kernel⟩

theorem witness_LaddersAgree : CfgOk Cfg.toy ∧ 65535 < 2 ^ Cfg.toy.regw ∧
    ladderCt Cfg.toy ⟨157, 22⟩ 65535 = .ok ⟨15, 237⟩ := ⟨toy_ok, by decide +kernel, by decide +kernel⟩

/-! ### Witnesses: commands, clause by clause -/

theorem witness_MovCopiesRawRegister : StateOk (st [(15, 65535)] []) := stateOk_of_idle (by decide +kernel)

theorem witness_PmovCopiesRawPair : StateOk (st [(14, 65535), (15, 65535)] []) ∧ (14 : Idx).val ≤ 14 ∧
    ¬ (15 : Idx).val ≤ 14 := ⟨stateOk_of_idle (by decide +kernel), by decide, by decide⟩

theorem witness_NopChangesNothing :
    (0x01000001 : Word).extractLsb' 24 8 = 0x01 ∧ (0x01000001 : Word) ≠ 0x01000000 := by decide +kernel

theorem witness_LdcLoadsConstant : CfgOk (st [] []).cfg ∧
    ((0x06000007 : Word).extractLsb' 24 8 = 0x06 ∧ 6 < ((0x06000007 : Word).extractLsb' 0 8).toNat) ∧
    ((0x06800003 : Word).extractLsb' 24 8 = 0x06 ∧ (0x06800003 : Word).getLsbD 23 = true ∧
      2 < ((0x06800003 : Word).extractLsb' 0 8).toNat) := ⟨st_ok _ _, by decide +kernel⟩

theorem witness_PldcLoadsPoint : CfgOk (st [] []).cfg ∧ (14 : Idx).val ≤ 14 ∧ ¬ (15 : Idx).val ≤ 14 ∧
    (0x070F0003 : Word).extractLsb' 24 8 = 0x07 ∧ 2 < ((0x070F0003 : Word).extractLsb' 0 8).toNat :=
  ⟨st_ok _ _, by decide +kernel⟩

/-- Both operands canonical at the top of the base field, the divisor not 0: the result clauses of
`FaddAddsModP`, `FsubSubtractsModP`, `FnegNegatesModP`, `FmulAndFsqrMultiplyModP`, `FinvAndFinvzInvert`,
`FdivAndFdivzDivide`, `FpowAndFlegRaisePowers`. -/
theorem witness_elements : CfgOk (st [(1, 352), (2, 352)] []).cfg ∧
    (st [(1, 352), (2, 352)] []).reg (1 : Idx) < (st [(1, 352), (2, 352)] []).modulus .bf ∧
    0 < (st [(1, 352), (2, 352)] []).reg (2 : Idx) ∧
    (st [(1, 352), (2, 352)] []).reg (2 : Idx) < (st [(1, 352), (2, 352)] []).modulus .bf :=
  ⟨st_ok _ _, by decide +kernel⟩

/-- The same clauses at the top of the scalar field. -/
theorem witness_elements_sf : CfgOk (st [(1, 40), (2, 40)] []).cfg ∧
    (st [(1, 40), (2, 40)] []).reg (1 : Idx) < (st [(1, 40), (2, 40)] []).modulus .sf ∧
    0 < (st [(1, 40), (2, 40)] []).reg (2 : Idx) ∧
    (st [(1, 40), (2, 40)] []).reg (2 : Idx) < (st [(1, 40), (2, 40)] []).modulus .sf :=
  ⟨st_ok _ _, by decide +kernel⟩

/-- An operand that is not canonical: the `E_RANGE` clauses of the seven statements above and of
`FsqrtCommitsRootOrAbsent`. -/
theorem witness_elements_range :
    ¬ (st [(1, 353)] []).reg (1 : Idx) < (st [(1, 353)] []).modulus .bf ∧
    ¬ ((st [(1, 41)] []).reg (1 : Idx) < (st [(1, 41)] []).modulus .sf ∧
      (st [(1, 41)] []).reg (2 : Idx) < (st [(1, 41)] []).modulus .sf) := by decide +kernel

/-- A zero divisor: the zero clauses of `FinvAndFinvzInvert`, `FdivAndFdivzDivide` and
`FsqrtCommitsRootOrAbsent`. -/
theorem witness_elements_zero : CfgOk (st [(1, 352)] []).cfg ∧
    (st [(1, 352)] []).reg (1 : Idx) < (st [(1, 352)] []).modulus .bf ∧
    (st [(1, 352)] []).reg (2 : Idx) = 0 := ⟨st_ok _ _, by decide +kernel⟩

theorem witness_FsqrtCommitsRootOrAbsent_root : CfgOk (st [(1, 352)] []).cfg ∧
    (st [(1, 352)] []).reg (1 : Idx) < (st [(1, 352)] []).modulus .bf ∧
    fsqrt ((st [(1, 352)] []).cfg.field .bf) ((st [(1, 352)] []).reg (1 : Idx)) = .ok (some 311) :=
  ⟨st_ok _ _, by decide +kernel⟩

theorem witness_FsqrtCommitsRootOrAbsent_absent :
    (st [(1, 3)] []).reg (1 : Idx) < (st [(1, 3)] []).modulus .sf ∧
    fsqrt ((st [(1, 3)] []).cfg.field .sf) ((st [(1, 3)] []).reg (1 : Idx)) = .ok none := by decide +kernel

theorem witness_FsqrtCommitsRootOrAbsent_error :
    (badNr.setReg 1 2).reg (1 : Idx) < (badNr.setReg 1 2).modulus .bf ∧
    fsqrt ((badNr.setReg 1 2).cfg.field .bf) ((badNr.setReg 1 2).reg (1 : Idx)) = .error .internal := by
  decide +kernel

/-- A run that ends with the last register, an empty run at the last register, a run with a non-canonical
element, and a run that is one too long (`FSUM`, `FPROD`). -/
theorem witness_FsumAndFprodFoldRuns : CfgOk (st [(15, 352)] []).cfg ∧
    ((1 : Idx).val + (15 : Idx).val ≤ 16 ∧
      ∀ j, j < (15 : Idx).val → (st [(15, 352)] []).reg ((1 : Idx).val + j) < (st [(15, 352)] []).modulus .bf) ∧
    ((15 : Idx).val + (0 : Idx).val ≤ 16) ∧
    (¬ ∀ j, j < (1 : Idx).val → (st [(15, 353)] []).reg ((15 : Idx).val + j) < (st [(15, 353)] []).modulus .bf) ∧
    ¬ (15 : Idx).val + (2 : Idx).val ≤ 16 := ⟨st_ok _ _, by decide +kernel⟩

/-- The same for the two runs of `FDOT`, and two lengths that differ. -/
theorem witness_FdotMultipliesRuns : CfgOk (st [(15, 352)] []).cfg ∧
    ((1 : Idx) ≠ (2 : Idx)) ∧
    ((1 : Idx).val + (15 : Idx).val ≤ 16 ∧ (0 : Idx).val + (15 : Idx).val ≤ 16 ∧
      ∀ j, j < (15 : Idx).val →
        (st [(15, 352)] []).reg ((1 : Idx).val + j) < (st [(15, 352)] []).modulus .bf ∧
        (st [(15, 352)] []).reg ((0 : Idx).val + j) < (st [(15, 352)] []).modulus .bf) ∧
    (¬ ∀ j, j < (1 : Idx).val →
        (st [(15, 353)] []).reg ((0 : Idx).val + j) < (st [(15, 353)] []).modulus .bf ∧
        (st [(15, 353)] []).reg ((15 : Idx).val + j) < (st [(15, 353)] []).modulus .bf) ∧
    ¬ ((0 : Idx).val + (2 : Idx).val ≤ 16 ∧ (15 : Idx).val + (2 : Idx).val ≤ 16) := ⟨st_ok _ _, by decide +kernel⟩

/-- `FFROMB`: an encoding in the last two bytes; out of bounds by one; the value `p`; a wrong length. -/
theorem witness_FfrombDecodes : CfgOk (st [] [(254, 0x60), (255, 1)]).cfg ∧
    ((254#8).toNat + (2#8).toNat ≤ 256 ∧
      (2#8).toNat = ((st [] [(254, 0x60), (255, 1)]).cfg.field .bf).byteLen ∧
      ∑ j ∈ Finset.range (2#8).toNat,
        ((st [] [(254, 0x60), (255, 1)]).buf.read ((254#8).toNat + j)).toNat * 256 ^ j <
          (st [] [(254, 0x60), (255, 1)]).modulus .bf) ∧
    ¬ (255#8).toNat + (2#8).toNat ≤ 256 ∧
    ¬ (∑ j ∈ Finset.range (2#8).toNat,
        ((st [] [(254, 0x61), (255, 1)]).buf.read ((254#8).toNat + j)).toNat * 256 ^ j <
          (st [] [(254, 0x61), (255, 1)]).modulus .bf) ∧
    (1#8).toNat ≠ ((st [] []).cfg.field .bf).byteLen := ⟨st_ok _ _, by decide +kernel⟩

/-- `FTOB` and the field round trip: the last offset that fits, the first that does not, `E_RANGE`. -/
theorem witness_FtobEncodes : StateOk (st [(7, 352)] [(253, 9)]) ∧ CfgOk (st [(7, 352)] [(253, 9)]).cfg ∧
    ((254#8).toNat + ((st [(7, 352)] [(253, 9)]).cfg.field .bf).byteLen ≤ 256 ∧
      (st [(7, 352)] [(253, 9)]).reg (7 : Idx) < (st [(7, 352)] [(253, 9)]).modulus .bf) ∧
    (¬ (255#8).toNat + ((st [(7, 352)] [(253, 9)]).cfg.field .bf).byteLen ≤ 256) ∧
    (2#8).toNat = ((st [(7, 352)] [(253, 9)]).cfg.field .bf).byteLen :=
  ⟨stateOk_of_idle (by decide +kernel), st_ok _ _, by decide +kernel⟩

theorem witness_FtobEncodes_range : StateOk (st [(7, 353)] []) ∧
    ¬ (st [(7, 353)] []).reg (7 : Idx) < (st [(7, 353)] []).modulus .bf :=
  ⟨stateOk_of_idle (by decide +kernel), by decide +kernel⟩

theorem witness_FieldCodecRoundTrip : ∃ t, Sys2Proof.Machine.exec (.ftob .bf 7 254) (st [(7, 352)] []) = .next t :=
  ⟨_, rfl⟩

theorem witness_FentReduces : CfgOk (st [] []).cfg ∧ (255#8).toNat + (1#8).toNat ≤ 256 ∧
    (255#8).toNat + (0#8).toNat ≤ 256 ∧ (1#8).toNat + (255#8).toNat ≤ 256 ∧
    ¬ (255#8).toNat + (2#8).toNat ≤ 256 := ⟨st_ok _ _, by decide⟩

/-- `PFROMB`: `Base` in the last four bytes, to the last point index; the bounds; an off-curve pair. -/
theorem witness_PfrombDecodes : CfgOk (st [] [(252, 157), (254, 22)]).cfg ∧
    ((14 : Idx).val ≤ 14 ∧ (252#8).toNat + (4#8).toNat ≤ 256 ∧
      (4#8).toNat = (st [] [(252, 157), (254, 22)]).cfg.pointLen ∧
      ∑ j ∈ Finset.range (st [] [(252, 157), (254, 22)]).cfg.bf.byteLen,
        ((st [] [(252, 157), (254, 22)]).buf.read ((252#8).toNat + j)).toNat * 256 ^ j = 157 ∧
      ∑ j ∈ Finset.range (st [] [(252, 157), (254, 22)]).cfg.bf.byteLen,
        ((st [] [(252, 157), (254, 22)]).buf.read ((252#8).toNat +
          (st [] [(252, 157), (254, 22)]).cfg.bf.byteLen + j)).toNat * 256 ^ j = 22 ∧
      oncurve (st [] [(252, 157), (254, 22)]).cfg ⟨157, 22⟩ = true) ∧
    (¬ (15 : Idx).val ≤ 14 ∧ ¬ (253#8).toNat + (4#8).toNat ≤ 256) ∧
    oncurve (st [] []).cfg ⟨0, 0⟩ = false ∧ (3#8).toNat ≠ (st [] []).cfg.pointLen :=
  ⟨st_ok _ _, by decide +kernel⟩

/-- `PTOB` and the point round trip: `Base` at the last offset that fits; out of bounds; `E_RANGE`. -/
theorem witness_PtobEncodes : StateOk (st [(14, 157), (15, 22)] [(251, 9)]) ∧
    CfgOk (st [(14, 157), (15, 22)] [(251, 9)]).cfg ∧
    ((14 : Idx).val ≤ 14 ∧ (252#8).toNat + (st [(14, 157), (15, 22)] [(251, 9)]).cfg.pointLen ≤ 256 ∧
      (st [(14, 157), (15, 22)] [(251, 9)]).reg (14 : Idx) < (st [(14, 157), (15, 22)] [(251, 9)]).cfg.bf.p ∧
      (st [(14, 157), (15, 22)] [(251, 9)]).reg ((14 : Idx).val + 1) <
        (st [(14, 157), (15, 22)] [(251, 9)]).cfg.bf.p ∧
      oncurve (st [(14, 157), (15, 22)] [(251, 9)]).cfg ⟨157, 22⟩ = true) ∧
    (¬ (253#8).toNat + (st [(14, 157), (15, 22)] [(251, 9)]).cfg.pointLen ≤ 256) ∧
    ¬ (15 : Idx).val ≤ 14 :=
  ⟨stateOk_of_idle (by decide +kernel), st_ok _ _, by decide +kernel⟩

theorem witness_PtobEncodes_range : StateOk (st [(0, 353)] []) ∧
    ¬ ((st [(0, 353)] []).reg (0 : Idx) < (st [(0, 353)] []).cfg.bf.p ∧
      (st [(0, 353)] []).reg ((0 : Idx).val + 1) < (st [(0, 353)] []).cfg.bf.p) :=
  ⟨stateOk_of_idle (by decide +kernel), by decide +kernel⟩

theorem witness_PointCodecRoundTrip :
    (∃ t, Sys2Proof.Machine.exec (.ptob 14 252) (st [(14, 157), (15, 22)] []) = .next t) ∧
    (5#8).toNat ≠ (st [] []).cfg.pointLen ∧ (14 : Idx).val ≤ 14 ∧
    (251#8).toNat + (5#8).toNat ≤ 256 ∧ ¬ (252#8).toNat + (5#8).toNat ≤ 256 :=
  ⟨⟨_, rfl⟩, by decide +kernel⟩

/-- Canonical points at the last point index: the completing clauses of `PaddAddsPoints`, `PdblDoublesPoint`,
`PnegNegatesY`, `PoncTestsCurveEquation`, and the scalars 0 and 1 of `SmulRunsConstantTimeLadder` and
`SmulvtRunsVariableTimeLadder`; index 15 is the `E_BOUNDS` clause of all of them and of
`PinsgTestsSubgroup`. -/
theorem witness_points : CfgOk (st [(14, 157), (15, 22), (1, 1)] []).cfg ∧
    ((14 : Idx).val ≤ 14 ∧ ¬ (15 : Idx).val ≤ 14) ∧
    ((st [(14, 157), (15, 22), (1, 1)] []).reg (14 : Idx) < (st [(14, 157), (15, 22), (1, 1)] []).cfg.bf.p ∧
      (st [(14, 157), (15, 22), (1, 1)] []).reg ((14 : Idx).val + 1) <
        (st [(14, 157), (15, 22), (1, 1)] []).cfg.bf.p) ∧
    ((st [(14, 157), (15, 22), (1, 1)] []).reg (0 : Idx) = 0 ∧
      (st [(14, 157), (15, 22), (1, 1)] []).reg (1 : Idx) = 1) ∧
    ¬ DenominatorZero (st [(14, 157), (15, 22), (1, 1)] []).cfg ⟨157, 22⟩ ⟨157, 22⟩ ∧
    ¬ DenominatorZero (st [(14, 157), (15, 22), (1, 1)] []).cfg ⟨157, 22⟩ ⟨0, 1⟩ := by
  refine ⟨st_ok _ _, by decide, by decide +kernel, by decide +kernel, ?_, ?_⟩ <;> unfold DenominatorZero <;>
    decide +kernel

/-- A coordinate that is not canonical: the `E_RANGE` clause of the seven curve statements. -/
theorem witness_points_range :
    ¬ ((st [(0, 352), (1, 353)] []).reg (0 : Idx) < (st [(0, 352), (1, 353)] []).cfg.bf.p ∧
      (st [(0, 352), (1, 353)] []).reg ((0 : Idx).val + 1) < (st [(0, 352), (1, 353)] []).cfg.bf.p) := by
  decide +kernel

theorem witness_PaddAddsPoints_divzero :
    (st [(0, 1), (1, 1), (2, 1), (3, 141)] []).reg (3 : Idx) < Cfg.toy.bf.p ∧
    DenominatorZero (st [(0, 1), (1, 1), (2, 1), (3, 141)] []).cfg ⟨1, 1⟩ ⟨1, 141⟩ := by
  refine ⟨by decide +kernel, ?_⟩
  unfold DenominatorZero
  decide +kernel

theorem witness_PdblDoublesPoint_divzero :
    ((squareD [(0, 48), (1, 125)]).reg (0 : Idx) < (squareD [(0, 48), (1, 125)]).cfg.bf.p ∧
      (squareD [(0, 48), (1, 125)]).reg ((0 : Idx).val + 1) < (squareD [(0, 48), (1, 125)]).cfg.bf.p) ∧
    DenominatorZero (squareD [(0, 48), (1, 125)]).cfg ⟨48, 125⟩ ⟨48, 125⟩ := by
  refine ⟨by decide +kernel, ?_⟩
  unfold DenominatorZero
  decide +kernel

theorem witness_PinsgTestsSubgroup :
    oncurve (st [(0, 157), (1, 22)] []).cfg ⟨157, 22⟩ = true ∧
    ladderCt (st [(0, 157), (1, 22)] []).cfg ⟨157, 22⟩ (st [(0, 157), (1, 22)] []).cfg.subOrder = .ok ⟨0, 1⟩ ∧
    oncurve (st [(0, 1), (1, 1)] []).cfg ⟨1, 1⟩ = false := by decide +kernel

theorem witness_PinsgTestsSubgroup_divzero :
    oncurve (squareD [(0, 18), (1, 124)]).cfg ⟨18, 124⟩ = true ∧
    ladderCt (squareD [(0, 18), (1, 124)]).cfg ⟨18, 124⟩ (squareD [(0, 18), (1, 124)]).cfg.subOrder =
      .error .divZero := by decide +kernel

theorem witness_SmulRunsConstantTimeLadder :
    CfgOk (st [(0, 157), (1, 22), (2, 65535)] []).cfg ∧
    ladderCt (st [(0, 157), (1, 22), (2, 65535)] []).cfg ⟨157, 22⟩ 65535 = .ok ⟨15, 237⟩ ∧
    ladderCt (st [(0, 4), (1, 5), (2, 2)] []).cfg ⟨4, 5⟩ 2 = .error .divZero := ⟨st_ok _ _, by decide +kernel⟩

theorem witness_SmulvtRunsVariableTimeLadder :
    CfgOk (st [(0, 4), (1, 5), (2, 2)] []).cfg ∧
    ladderVt (st [(0, 4), (1, 5), (2, 2)] []).cfg ⟨4, 5⟩ 2 = .ok ⟨60, 352⟩ ∧
    ladderVt (st [(0, 1), (1, 55), (2, 3)] []).cfg ⟨1, 55⟩ 3 = .error .divZero := ⟨st_ok _ _, by decide +kernel⟩

end Sys2Proof.Tests
end

