-- ==== Sys2Proof/Proofs/Progress.lean ====
section
/-! PROOF. Under `CfgOK` and the invariant every step answers a next state (00_scope.md R7, R13,
30_encoding.md R84). The one stop of the model is a register write of `2^REGW` or more (log entry 5), so
the content is the range of every result that a command commits. -/

namespace Sys2Proof.Machine

/-! ### Which effects a commit accepts -/

/-- Every value that the effect writes to an element register is below `2^REGW` (00_scope.md R13). -/
def Effect.FitsRegs (c : Cfg) : Effect → Prop
  | .reg _ v => v < 2 ^ c.regw
  | .point _ P => P.x < 2 ^ c.regw ∧ P.y < 2 ^ c.regw
  | .nothing | .bytes _ _ | .bool _ | .absent | .zeroize => True

theorem commit_answers {s : State} {ef : Effect} (h : ef.FitsRegs s.cfg) :
    ∃ t, commit s ef = .next t := by
  cases ef with
  | reg rd v => exact ⟨_, commit_reg s rd v h⟩
  | point d P => exact ⟨_, commit_point s d P h.1 h.2⟩
  | nothing | bytes _ _ | bool _ | absent | zeroize => exact ⟨_, rfl⟩

theorem conclude_answers {s : State} {r : Except ErrKind Effect}
    (h : AnswersOnly r (Effect.FitsRegs s.cfg)) : ∃ t, conclude s r = .next t := by
  cases r with
  | error e => exact ⟨_, conclude_error s e⟩
  | ok ef => exact commit_answers (h ef rfl)

/-! ### What the checked reads pass on -/

theorem elem_bind_answersOnly {s : State} {f : FieldSel} {i : Idx} {k : Nat → Except ErrKind Effect}
    {p : Effect → Prop} (h : ∀ a, a < s.modulus f → AnswersOnly (k a) p) :
    AnswersOnly (elem s f i >>= k) p :=
  .bind fun a ha => h a (elem_ok ha)

theorem elems_bind_answersOnly {s : State} {f : FieldSel} {i j : Idx}
    {k : Nat → Nat → Except ErrKind Effect} {p : Effect → Prop}
    (h : ∀ a b, a < s.modulus f → b < s.modulus f → AnswersOnly (k a b) p) :
    AnswersOnly (elem s f i >>= fun a => elem s f j >>= k a) p :=
  elem_bind_answersOnly fun a ha => elem_bind_answersOnly fun b hb => h a b ha hb

/-! ### Ranges of the results that have no lemma under Laws -/

theorem addOnce_lt {p a b : Nat} (ha : a < p) (hb : b < p) : addOnce p a b < p := by
  rw [addOnce_eq ha hb]
  exact Nat.mod_lt _ (Nat.zero_lt_of_lt ha)

theorem subOnce_lt {p a b : Nat} (ha : a < p) (hb : b < p) : subOnce p a b < p := by
  unfold subOnce
  split <;> omega

theorem negOnce_lt {p a : Nat} (ha : a < p) : negOnce p a < p := by
  rw [negOnce_eq ha]
  exact Nat.mod_lt _ (Nat.zero_lt_of_lt ha)

theorem finv_lt {p a v : Nat} (hp : 0 < p) (h : finv p a = .ok v) : v < p := by
  obtain ⟨-, rfl⟩ := finv_ok h
  exact invValue_lt hp a

theorem pneg_canon {c : Cfg} {P : Point} (h : CanonPoint c P) : CanonPoint c (pneg c P) :=
  ⟨h.1, fneg_lt (Nat.zero_lt_of_lt h.2) P.y⟩

/-! ### `CfgOK`: the moduli, the constants, the canonical values -/

theorem CfgOk.one_lt_modulus {s : State} (hc : CfgOk s.cfg) (f : FieldSel) : 1 < s.modulus f :=
  (hc.fieldOk f).prime.one_lt

theorem CfgOk.modulus_pos {s : State} (hc : CfgOk s.cfg) (f : FieldSel) : 0 < s.modulus f :=
  (hc.fieldOk f).prime.pos

theorem CfgOk.point_fits {c : Cfg} (hc : CfgOk c) {P : Point} (h : CanonPoint c P) (d : Idx) :
    (Effect.point d P).FitsRegs c :=
  ⟨hc.fits .bf h.1, hc.fits .bf h.2⟩

/-- Clauses 3, 4 and 6 of R7 bound every constant of `LDC` (44_system.md R204). -/
theorem CfgOk.constValue_fits {c : Cfg} (hc : CfgOk c) (f : FieldSel) (cid : ConstId) :
    constValue c f cid < 2 ^ c.regw := by
  cases cid with
  | zero => exact hc.fits f (hc.fieldOk f).prime.pos
  | one => exact hc.fits f (hc.fieldOk f).prime.one_lt
  | nonres => exact hc.fits f (hc.fieldOk f).nr_lt
  | curveA => exact hc.fits .bf hc.a_lt
  | curveD => exact hc.fits .bf hc.d_lt
  | subOrder => exact hc.sizes.subOrder_fits
  | cofactor => exact hc.sizes.cofactor_fits

/-- Clause 4 of R7 makes every point of `PLDC` canonical (44_system.md R205). -/
theorem CfgOk.pointConstValue_canon {c : Cfg} (hc : CfgOk c) (cid : PointConstId) :
    CanonPoint c (pointConstValue c cid) := by
  cases cid with
  | neutral => exact neutral_canon hc.bfOk.prime.one_lt
  | gen => exact hc.gen_lt
  | base => exact hc.base_lt

/-! ### The effects of the square root and of the decoders -/

theorem sqrtEffect_fits {s : State} (hc : CfgOk s.cfg) {f : FieldSel} (rd : Idx) {x : Nat}
    {v : Option Nat} (h : fsqrt (s.cfg.field f) x = .ok v) : (sqrtEffect rd v).FitsRegs s.cfg := by
  cases v with
  | none => trivial
  | some v =>
    rcases fsqrt_cases (hc.fieldOk f).prime.one_lt x with ⟨w, hw, hlt⟩ | habsent | herror
    · obtain rfl : v = w := by simpa [h] using hw
      exact hc.fits f hlt
    · simp [h] at habsent
    · simp [h] at herror

theorem fromBytesEffect_fits {s : State} (hc : CfgOk s.cfg) (f : FieldSel) (rd : Idx) (off len : Nat) :
    (fromBytesEffect s f rd off len).FitsRegs s.cfg := by
  unfold fromBytesEffect
  dsimp only
  split
  · trivial
  · split
    · next hv => exact hc.fits f hv
    · trivial

theorem pointFromBytesEffect_fits {s : State} (hc : CfgOk s.cfg) (d : Idx) (off len : Nat) :
    (pointFromBytesEffect s d off len).FitsRegs s.cfg := by
  unfold pointFromBytesEffect
  dsimp only
  split
  · trivial
  · split
    · trivial
    · next hxy =>
      simp only [not_or, Nat.not_le] at hxy
      split
      · exact hc.point_fits ⟨hxy.1, hxy.2⟩ d
      · trivial

/-- A raw register fits, since the invariant bounds every register (10_state.md R21). -/
theorem rawReg_fits {s : State} (hs : StateOk s) (rd ra : Idx) :
    (Effect.reg rd (rawReg s ra)).FitsRegs s.cfg :=
  hs.regs_fit ra ra.isLt

/-- A raw pair fits because each of its registers does (10_state.md R21); index 15 has no partner. -/
theorem rawPoint_fits {s : State} (hs : StateOk s) (d : Idx) {a : Idx} (ha : a.val ≤ 14) :
    (Effect.point d (rawPoint s a)).FitsRegs s.cfg :=
  ⟨hs.regs_fit a a.isLt, hs.regs_fit (a.val + 1) (by omega)⟩

/-! ### Every command, every step -/

/-- R13, R84: every command answers a next state, since every value it can commit is a canonical
element, a register's own value, or a constant of the build. -/
theorem exec_answers {s : State} (hc : CfgOk s.cfg) (hs : StateOk s) (i : Instr) :
    ∃ t, exec i s = .next t := by
  have pos := hc.modulus_pos
  have one_lt := hc.one_lt_modulus
  cases i with
  -- 44_system.md
  | nop => exact ⟨_, rfl⟩
  | zeroize => exact ⟨_, rfl⟩
  | mov rd ra => exact conclude_answers (.ok (rawReg_fits hs rd ra))
  | pmov d a =>
    exact conclude_answers (.bind fun _ _ => .bind fun _ ha => .ok (rawPoint_fits hs d (needPoint_ok ha)))
  | ldc f rd cid =>
    refine conclude_answers ?_
    split
    · exact .ok (hc.constValue_fits f cid)
    · exact .error
  | pldc d cid =>
    exact conclude_answers (.bind fun _ _ => .ok (hc.point_fits (hc.pointConstValue_canon cid) d))
  -- 40_field_arith.md
  | fadd f rd ra rb =>
    exact conclude_answers (elems_bind_answersOnly fun _ _ ha hb => .ok (hc.fits f (addOnce_lt ha hb)))
  | fsub f rd ra rb =>
    exact conclude_answers (elems_bind_answersOnly fun _ _ ha hb => .ok (hc.fits f (subOnce_lt ha hb)))
  | fneg f rd ra => exact conclude_answers (elem_bind_answersOnly fun _ ha => .ok (hc.fits f (negOnce_lt ha)))
  | fmul f rd ra rb =>
    exact conclude_answers (elems_bind_answersOnly fun a b _ _ => .ok (hc.fits f (fmul_lt (pos f) a b)))
  | fsqr f rd ra =>
    exact conclude_answers (elem_bind_answersOnly fun a _ => .ok (hc.fits f (fsqr_lt (pos f) a)))
  | finv f rd ra =>
    exact conclude_answers (elem_bind_answersOnly fun _ _ => .bind fun _ hv =>
      .ok (hc.fits f (finv_lt (pos f) hv)))
  | finvz f rd ra =>
    exact conclude_answers (elem_bind_answersOnly fun a _ => .ok (hc.fits f (finvz_lt (pos f) a)))
  | fdiv f rd ra rb =>
    exact conclude_answers (elems_bind_answersOnly fun a _ _ _ => .bind fun v _ =>
      .ok (hc.fits f (fmul_lt (pos f) a v)))
  | fdivz f rd ra rb =>
    exact conclude_answers (elems_bind_answersOnly fun a _ _ _ => .ok (hc.fits f (fmul_lt (pos f) a _)))
  | fpow f rd ra rb =>
    exact conclude_answers (elem_bind_answersOnly fun b _ => .ok (hc.fits f (fpow_lt (one_lt f) b _)))
  | fleg f rd ra =>
    exact conclude_answers (elem_bind_answersOnly fun x _ => .ok (hc.fits f (fleg_lt (one_lt f) x)))
  | fsqrt f rd ra =>
    exact conclude_answers (elem_bind_answersOnly fun _ _ => .bind fun _ hv => .ok (sqrtEffect_fits hc rd hv))
  | fsum f rd ra n =>
    exact conclude_answers (.bind fun _ _ => .bind fun v _ => .ok (hc.fits f (fsum_lt (pos f) v)))
  | fprod f rd ra n =>
    exact conclude_answers (.bind fun _ _ => .bind fun v _ => .ok (hc.fits f (fprod_lt (one_lt f) v)))
  | fdot f rd ra na rb nb =>
    exact conclude_answers (.bind fun _ _ => .bind fun _ _ => .bind fun _ _ => .bind fun u _ =>
      .bind fun v _ => .ok (hc.fits f (fdot_lt (pos f) u v)))
  -- 41_field_codec.md
  | ffromb f rd off len =>
    exact conclude_answers (.bind fun _ _ => .ok (fromBytesEffect_fits hc f rd _ _))
  | ftob f rs off => exact conclude_answers (.bind fun _ _ => .bind fun _ _ => .ok trivial)
  | fent f rd off len =>
    exact conclude_answers (.bind fun _ _ => .ok (hc.fits f (Nat.mod_lt _ (pos f))))
  -- 43_curve_codec.md
  | pfromb d off len =>
    exact conclude_answers (.bind fun _ _ => .bind fun _ _ => .ok (pointFromBytesEffect_fits hc d _ _))
  | ptob src off =>
    exact conclude_answers (.bind fun _ _ => .bind fun _ _ => .bind fun _ _ => .ok trivial)
  -- 42_curve.md
  | padd d a b =>
    exact conclude_answers (.bind fun _ _ => .bind fun _ _ => .bind fun _ _ => .bind fun _ _ =>
      .bind fun _ _ => .bind fun _ hR => .ok (hc.point_fits (padd_canon (pos .bf) hR) d))
  | pdbl d a =>
    exact conclude_answers (.bind fun _ _ => .bind fun _ _ => .bind fun _ _ =>
      .bind fun _ hR => .ok (hc.point_fits (padd_canon (pos .bf) hR) d))
  | pneg d a =>
    exact conclude_answers (.bind fun _ _ => .bind fun _ _ => .bind fun _ hP =>
      .ok (hc.point_fits (pneg_canon (canonPoint_ok hP)) d))
  | ponc a => exact conclude_answers (.bind fun _ _ => .bind fun _ _ => .ok trivial)
  | pinsg a => exact conclude_answers (.bind fun _ _ => .bind fun _ _ => .bind fun _ _ => .ok trivial)
  | smul d a rb =>
    exact conclude_answers (.bind fun _ _ => .bind fun _ _ => .bind fun _ _ =>
      .bind fun _ hR => .ok (hc.point_fits (ladderCt_canon (one_lt .bf) hR) d))
  | smulvt d a rb =>
    exact conclude_answers (.bind fun _ _ => .bind fun _ _ => .bind fun _ _ =>
      .bind fun _ hR => .ok (hc.point_fits (ladderVt_canon (one_lt .bf) hR) d))

/-- R84 step 1, R90: an illegal word ends in `E_ILLEGAL`, every other word runs its command. -/
theorem engineStep_answers {s : State} (hc : CfgOk s.cfg) (hs : StateOk s) :
    ∃ t, engineStep s = .next t := by
  unfold engineStep
  split
  · exact ⟨_, rfl⟩
  · exact exec_answers hc hs _

/-- 20_memory.md R67: only the engine can stop a step; a host action and waiting always answer. -/
theorem step_answers {s : State} (h : ∃ t, engineStep s = .next t) : ∃ t, step s = .next t := by
  unfold step
  split <;> split
  · exact h
  · exact ⟨_, rfl⟩
  · exact h
  · exact ⟨_, rfl⟩

/-- Settles O12: a step stops only where the engine does, and under `CfgOK` every value that a command
commits fits its register. -/
theorem noStopUnderCfgOk : Obligations.NoStopUnderCfgOk := by
  unfold Obligations.NoStopUnderCfgOk
  intro s hc hs
  exact step_answers (engineStep_answers hc hs)

end Sys2Proof.Machine
end

section
/-! PROOF. The state (10_state.md): the invariant holds after reset and every step keeps it, which
commands leave a result flag, and what the host's accesses reach. Every claim about a command goes
through `exec_next`, every claim about a host write through `hostWrite_cases`. -/

namespace Sys2Proof.Machine

/-! ### What a command can end with (30_encoding.md R84) -/

/-- All that a command can do when it answers a next state: enter an error that R221 lists for it, or
commit an effect of its shape. -/
theorem exec_next {i : Instr} {s t : State} (h : exec i s = .next t) :
    (∃ e, mayRaise i e = true ∧ t = raiseError e s) ∨
      ∃ ef : Effect, ef.FitsCommand i ∧ commit s ef = .next t := by
  obtain ⟨r, hr, hraises, hanswers⟩ := exec_concludes i s
  rcases conclude_next s t r (hr ▸ h) with ⟨e, he, ht⟩ | ⟨ef, hef, hc⟩
  · exact .inl ⟨e, hraises e he, ht⟩
  · exact .inr ⟨ef, hanswers ef hef, hc⟩

theorem commit_frame {s t : State} {ef : Effect} (h : commit s ef = .next t) : EngineFrame s t := by
  rcases commit_next s t ef h with ⟨-, rfl⟩ | ⟨_, _, -, -, rfl⟩ | ⟨_, _, -, -, -, rfl⟩ |
    ⟨_, _, -, rfl⟩ | ⟨_, -, rfl⟩ | ⟨-, rfl⟩ | ⟨-, rfl⟩ <;> exact ⟨rfl, rfl, rfl, rfl⟩

theorem exec_frame {i : Instr} {s t : State} (h : exec i s = .next t) : EngineFrame s t := by
  rcases exec_next h with ⟨e, -, rfl⟩ | ⟨ef, -, hc⟩
  · exact (raiseError_raised e s).frame
  · exact commit_frame hc

theorem engineStep_frame {s t : State} (h : engineStep s = .next t) : EngineFrame s t := by
  rcases engineStep_next h with ⟨-, rfl⟩ | ⟨i, -, hi⟩
  · exact (raiseError_raised .illegal s).frame
  · exact exec_frame hi

/-! ### The result flags (10_state.md R28, R29) -/

/-- R28: `ABSENT = 1` comes from the absent result alone. -/
theorem commit_absent_iff {s t : State} {ef : Effect} (h : commit s ef = .next t) :
    t.absent = true ↔ ef = .absent := by
  rcases commit_next s t ef h with ⟨rfl, rfl⟩ | ⟨_, _, rfl, -, rfl⟩ | ⟨_, _, rfl, -, -, rfl⟩ |
    ⟨_, _, rfl, rfl⟩ | ⟨_, rfl, rfl⟩ | ⟨rfl, rfl⟩ | ⟨rfl, rfl⟩ <;> simp

/-- R29: `BOOL = 1` comes from a Boolean result that is true alone. -/
theorem commit_boolRes_iff {s t : State} {ef : Effect} (h : commit s ef = .next t) :
    t.boolRes = true ↔ ef = .bool true := by
  rcases commit_next s t ef h with ⟨rfl, rfl⟩ | ⟨_, _, rfl, -, rfl⟩ | ⟨_, _, rfl, -, -, rfl⟩ |
    ⟨_, _, rfl, rfl⟩ | ⟨_, rfl, rfl⟩ | ⟨rfl, rfl⟩ | ⟨rfl, rfl⟩ <;> simp

/-- Settles O8: an error entry clears `ABSENT`, and of the effects only the absent result sets it. -/
theorem absentOnlyFromThreeCommands : Obligations.AbsentOnlyFromThreeCommands := by
  unfold Obligations.AbsentOnlyFromThreeCommands
  intro i s t h habsent
  rcases exec_next h with ⟨e, -, rfl⟩ | ⟨ef, hfit, hc⟩
  · simp at habsent
  · obtain rfl := (commit_absent_iff hc).1 habsent
    obtain ⟨u, hu, hends⟩ := commit_absent_ends s
    obtain rfl : u = t := by simpa [hu] using hc
    exact ⟨hends, hfit⟩

/-- Settles O9: an error entry clears `BOOL`, and of the effects only a Boolean result sets it. -/
theorem boolOnlyFromPredicates : Obligations.BoolOnlyFromPredicates := by
  unfold Obligations.BoolOnlyFromPredicates
  intro i s t h hbool
  rcases exec_next h with ⟨e, -, rfl⟩ | ⟨ef, hfit, hc⟩
  · simp at hbool
  · obtain rfl := (commit_boolRes_iff hc).1 hbool
    obtain ⟨u, hu, hwrites⟩ := commit_bool_writes s true
    obtain rfl : u = t := by simpa [hu] using hc
    exact ⟨hwrites, hfit⟩

/-! ### The invariant in the reset state (10_state.md R35, 70_reset_and_hazards.md R262) -/

theorem ErrKind.code_ne_zero (e : ErrKind) : e.code ≠ 0#8 := by cases e <;> decide

theorem ErrKind.code_eq_construct_iff (e : ErrKind) : e.code = ErrKind.code .construct ↔ e = .construct := by
  cases e <;> decide

/-- Both outcomes of the construction check meet the invariant: no latch, or `E_CONSTRUCT`. -/
theorem resetOf_stateOk (c : Cfg) : StateOk (State.resetOf c) where
  buf_wf := Memory.wf_nil
  regs_fit n _ := by simp
  busy_clean h := by simp at h
  err_code := by cases h : constructOk c <;> simp [h]
  code_known := by
    cases h : constructOk c
    · exact .inr ⟨.construct, by simp [h, ErrKind.code]⟩
    · exact .inl (by simp [h])
  construct_code := by cases h : constructOk c <;> simp [h, ErrKind.code]
  flags_apart := by simp
  idle_fresh _ _ := by simp

/-- Settles O10: the two outcomes of the construction check. -/
theorem resetMeetsInvariant : Obligations.ResetMeetsInvariant := resetOf_stateOk

/-! ### The invariant under each state operation -/

namespace StateOk

variable {s : State} (hs : StateOk s)
include hs

/-- R21: a register write that fits keeps the invariant. -/
theorem setReg {n v : Nat} (hn : n < 16) (hv : v < 2 ^ s.cfg.regw) : StateOk (s.setReg n v) :=
  { hs with
    regs_fit := fun m hm => by
      rw [setReg_reg s n v m hn]
      split
      · exact hv
      · exact hs.regs_fit m hm }

theorem withBuf {m : Memory} (hm : m.wf) : StateOk { s with buf := m } := { hs with buf_wf := hm }

/-- 44_system.md R201: `ZEROIZE` leaves zeros, which fit, and the empty buffer. -/
theorem cleared : StateOk { s with regs := Vector.replicate 16 0, buf := [] } :=
  { hs with
    buf_wf := Memory.wf_nil
    regs_fit := fun n _ => by simp }

theorem withInbox (l : List Arrival) : StateOk { s with inbox := l } := { hs with }

theorem withReplies (l : List Word) : StateOk { s with replies := l } := { hs with }

/-- R234: a latch without `E_CONSTRUCT` says that the construction check has passed. -/
theorem constructOk_of_errCode (hcode : s.errCode ≠ ErrKind.code .construct) :
    constructOk s.cfg = true := by
  simpa using mt hs.construct_code.2 hcode

/-- R234, R30: without a latched error the construction check has passed. -/
theorem constructOk_of_err_false (herr : s.err = false) : constructOk s.cfg = true := by
  refine hs.constructOk_of_errCode ?_
  rw [hs.err_code.1 herr]
  exact (ErrKind.code_ne_zero .construct).symm

theorem err_false_of_busy (hb : s.busy = true) : s.err = false := (hs.busy_clean hb).2.2.2

/-- R84 step 7: a pending command found no error latched, so a result flag meets none. -/
theorem finish (hb : s.busy = true) {a b : Bool} (hab : (a && b) = false) : StateOk (finish s a b) :=
  { hs with
    busy_clean := fun h => by simp at h
    flags_apart := by simp [hab, hs.err_false_of_busy hb]
    idle_fresh := fun _ h => by simp at h }

/-- R224, R234: the engine runs only where the construction check has passed, so its own error is the one
that the latch shows. -/
theorem raiseError (hb : s.busy = true) {e : ErrKind} (he : e ≠ .construct) : StateOk (raiseError e s) :=
  { hs with
    busy_clean := fun h => by simp at h
    err_code := by simp [ErrKind.code_ne_zero]
    code_known := .inr ⟨e, rfl⟩
    construct_code := by
      simp [ErrKind.code_eq_construct_iff, he, hs.constructOk_of_err_false (hs.err_false_of_busy hb)]
    flags_apart := by simp
    idle_fresh := fun _ h => by simp at h }

/-- 20_memory.md R58: acceptance needs `ERR = 0` and clears the flags. -/
theorem accept (herr : s.err = false) (w : Word) : StateOk (accept s w) :=
  { hs with
    busy_clean := fun _ => ⟨rfl, rfl, rfl, herr⟩
    flags_apart := by simp
    idle_fresh := fun h => by simp at h }

/-- 60_exceptions.md R228: a clear of the latch, which the host can do only to an idle CORE. -/
theorem clearLatch (hb : s.busy = false) (hcode : s.errCode ≠ ErrKind.code .construct) :
    StateOk { s with err := false, errCode := 0x00 } :=
  { hs with
    busy_clean := fun h => by simp [hb] at h
    err_code := by simp
    code_known := .inl rfl
    construct_code := by simp [hs.constructOk_of_errCode hcode, (ErrKind.code_ne_zero .construct).symm]
    flags_apart := ⟨hs.flags_apart.1, by simp⟩ }

end StateOk

theorem resetCore_stateOk (s : State) : StateOk (resetCore s) :=
  ((resetOf_stateOk s.cfg).withInbox s.inbox).withReplies s.replies

/-! ### The invariant under an engine step -/

/-- R84 steps 6 and 7: what is committed fits, by the commit's own check for registers and by the
command's static checks for the places written. -/
theorem commit_stateOk {i : Instr} {s t : State} {ef : Effect} (hs : StateOk s) (hb : s.busy = true)
    (hfit : ef.FitsCommand i) (h : commit s ef = .next t) : StateOk t := by
  rcases commit_next s t ef h with ⟨-, rfl⟩ | ⟨rd, v, -, hv, rfl⟩ | ⟨d, P, rfl, hx, hy, rfl⟩ |
    ⟨off, bs, rfl, rfl⟩ | ⟨b, -, rfl⟩ | ⟨-, rfl⟩ | ⟨-, rfl⟩
  · exact hs.finish hb rfl
  · exact (hs.setReg rd.isLt hv).finish hb rfl
  · have hd : d.val ≤ 14 := hfit
    exact ((hs.setReg d.isLt hx).setReg (by omega) hy).finish hb rfl
  · exact (hs.withBuf (Memory.wf_writeBytes s.buf hs.buf_wf off bs hfit)).finish hb rfl
  · exact hs.finish hb rfl
  · exact hs.finish hb rfl
  · exact hs.cleared.finish hb rfl

theorem exec_stateOk {i : Instr} {s t : State} (hs : StateOk s) (hb : s.busy = true)
    (h : exec i s = .next t) : StateOk t := by
  rcases exec_next h with ⟨e, hmay, rfl⟩ | ⟨ef, hfit, hc⟩
  · have he : e ≠ .construct := by
      rintro rfl
      simp [mayRaise] at hmay
    exact hs.raiseError hb he
  · exact commit_stateOk hs hb hfit hc

theorem engineStep_stateOk {s t : State} (hs : StateOk s) (hb : s.busy = true)
    (h : engineStep s = .next t) : StateOk t := by
  rcases engineStep_next h with ⟨-, rfl⟩ | ⟨i, -, hi⟩
  · exact hs.raiseError hb (by decide)
  · exact exec_stateOk hs hb hi

/-! ### The invariant under a host action -/

theorem hostWrite_stateOk {s : State} (hs : StateOk s) (off : BitVec 10) (data : Word) (strb : BitVec 4) :
    StateOk (hostWrite s off data strb) := by
  rcases hostWrite_cases s off data strb with h | ⟨-, -, -, herr, h⟩ | ⟨-, -, h⟩ |
    ⟨-, hb, -, hcode, h⟩ | ⟨w, -, hw, -, h⟩ <;> rw [h]
  · exact hs
  · exact hs.accept herr data
  · exact resetCore_stateOk s
  · exact hs.clearLatch hb hcode
  · exact hs.withBuf (Memory.wf_writeLanes s.buf hs.buf_wf w hw data strb)

theorem hostAct_stateOk {s : State} (hs : StateOk s) (a : HostAct) : StateOk (hostAct s a) := by
  cases a with
  | read off => exact hs.withReplies _
  | write off data strb => exact hostWrite_stateOk hs off data strb
  | hardReset => exact resetCore_stateOk s

theorem hostWrite_cfg (s : State) (off : BitVec 10) (data : Word) (strb : BitVec 4) :
    (hostWrite s off data strb).cfg = s.cfg := by
  rcases hostWrite_cases s off data strb with h | ⟨-, -, -, -, h⟩ | ⟨-, -, h⟩ | ⟨-, -, -, -, h⟩ |
    ⟨_, -, -, -, h⟩ <;> rw [h] <;> rfl

/-- R20: no host action changes the build. -/
theorem hostAct_cfg (s : State) (a : HostAct) : (hostAct s a).cfg = s.cfg := by
  cases a with
  | read off => rfl
  | write off data strb => exact hostWrite_cfg s off data strb
  | hardReset => rfl

/-- Settles O11: waiting, the host's action and the engine step each keep the invariant and the build. -/
theorem stepKeepsInvariant : Obligations.StepKeepsInvariant := by
  unfold Obligations.StepKeepsInvariant
  intro s t hs h
  rcases step_next h with ⟨-, -, rfl⟩ | ⟨a, rest, -, -, rfl⟩ | ⟨hb, he⟩
  · exact ⟨hs, rfl⟩
  · exact ⟨hostAct_stateOk (hs.withInbox rest) a.act, hostAct_cfg _ a.act⟩
  · exact ⟨engineStep_stateOk hs hb he, (engineStep_frame he).cfg⟩

/-! ### Host accesses by the target they name (20_memory.md R51, R52, R56, R57) -/

/-- R56: the two low address bits are not decoded. -/
theorem hostTarget_congr {off off' : BitVec 10} (h : off'.toNat / 4 = off.toNat / 4) :
    hostTarget off' = hostTarget off := by
  simp [hostTarget, h]

section
variable (s : State) {off : BitVec 10}

theorem hostRead_cmd (h : hostTarget off = .cmd) : hostRead s off = s.cmd := by simp [hostRead, h]

theorem hostRead_ctrl (h : hostTarget off = .ctrl) : hostRead s off = 0 := by simp [hostRead, h]

theorem hostRead_unmapped (h : hostTarget off = .unmapped) : hostRead s off = 0 := by simp [hostRead, h]

theorem hostWrite_status (h : hostTarget off = .status) (data : Word) (strb : BitVec 4) :
    hostWrite s off data strb = s := by simp [hostWrite, h]

theorem hostWrite_unmapped (h : hostTarget off = .unmapped) (data : Word) (strb : BitVec 4) :
    hostWrite s off data strb = s := by simp [hostWrite, h]

/-- A read sees an address through its target only. -/
theorem hostRead_congr {off' : BitVec 10} (h : hostTarget off' = hostTarget off) :
    hostRead s off' = hostRead s off := by simp [hostRead, h]

/-- A write sees an address through its target only. -/
theorem hostWrite_congr {off' : BitVec 10} (h : hostTarget off' = hostTarget off) (data : Word)
    (strb : BitVec 4) : hostWrite s off' data strb = hostWrite s off data strb := by simp [hostWrite, h]

end

/-- Settles O20: each clause names its target by the address map. -/
theorem readsAndIgnoredWrites : Obligations.ReadsAndIgnoredWrites := by
  unfold Obligations.ReadsAndIgnoredWrites
  intro s off data strb
  refine ⟨?cmd, ?ctrl, ?unmapped, ?status, ?lowBits, rfl⟩
  case cmd => exact fun h => hostRead_cmd s (hostTarget_cmd h)
  case ctrl => exact fun h => hostRead_ctrl s (hostTarget_ctrl h)
  case unmapped =>
    intro h
    have ht := hostTarget_unmapped h
    exact ⟨hostRead_unmapped s ht, hostWrite_unmapped s ht data strb⟩
  case status => exact fun h => hostWrite_status s (hostTarget_status h) data strb
  case lowBits =>
    intro off' h
    have ht := hostTarget_congr h
    exact ⟨hostRead_congr s ht, hostWrite_congr s ht data strb⟩

/-! ### The host and the element registers (10_state.md R21) -/

theorem constructOk_iff (c : Cfg) : constructOk c = true ↔ c.cofactor * c.subOrder = c.order := by
  simp [constructOk]

/-- R35, R261, R262: the values after a reset. -/
theorem resetCore_isResetState (s : State) : IsResetState (resetCore s) where
  regs n _ := resetCore_reg s n
  buf _ := rfl
  cmd := rfl
  busy := rfl
  done := rfl
  absent := rfl
  boolRes := rfl
  err := by simp [← constructOk_iff]
  errCode := by simp [← constructOk_iff]

theorem hostWrite_regsKept_or_reset (s : State) (off : BitVec 10) (data : Word) (strb : BitVec 4) :
    RegsKept s (hostWrite s off data strb) [] ∨ IsResetState (hostWrite s off data strb) := by
  rcases hostWrite_cases s off data strb with h | ⟨-, -, -, -, h⟩ | ⟨-, -, h⟩ | ⟨-, -, -, -, h⟩ |
    ⟨_, -, -, -, h⟩ <;> rw [h]
  · exact .inl fun _ _ _ => rfl
  · exact .inl fun _ _ _ => rfl
  · exact .inr (resetCore_isResetState s)
  · exact .inl fun _ _ _ => rfl
  · exact .inl fun _ _ _ => rfl

theorem hostAct_regsKept_or_reset (s : State) (a : HostAct) :
    RegsKept s (hostAct s a) [] ∨ IsResetState (hostAct s a) := by
  cases a with
  | read off => exact .inl fun _ _ _ => rfl
  | write off data strb => exact hostWrite_regsKept_or_reset s off data strb
  | hardReset => exact .inr (resetCore_isResetState s)

/-- Target by target, a read uses `CMD`, the flags or the buffer. -/
theorem hostRead_regs_update (s : State) (r : Vector Nat 16) (off : BitVec 10) :
    hostRead { s with regs := r } off = hostRead s off := by
  unfold hostRead
  cases hostTarget off <;> rfl

/-- Settles O21: of the host's actions only a reset reaches a register, and no read uses one. -/
theorem hostCannotReachRegisters : Obligations.HostCannotReachRegisters := by
  unfold Obligations.HostCannotReachRegisters
  exact fun s a => ⟨hostAct_regsKept_or_reset s a, hostRead_regs_update s⟩

end Sys2Proof.Machine
end

section
/-! PROOF. The host accesses (20_memory.md): `CMD` and `CTRL` writes, the bits of `STATUS`, the buffer window,
and what a read hides while the CORE is busy. Each register's access is reduced to its own function by
the address map; the window rests on two facts of the buffer, the lanes of a word read and a byte read
after a lane write. -/

namespace Sys2Proof.Machine

/-! ### Accesses by target, the remaining ones (R51, R52, R57) -/

section
variable (s : State) {off : BitVec 10}

theorem hostRead_status (h : hostTarget off = .status) : hostRead s off = s.statusWord := by
  simp [hostRead, h]

theorem hostRead_window_busy {w : Nat} (h : hostTarget off = .window w) (hb : s.busy = true) :
    hostRead s off = 0 := by simp [hostRead, h, hb]

theorem hostRead_window_idle {w : Nat} (h : hostTarget off = .window w) (hb : s.busy = false) :
    hostRead s off = windowWord s.buf w := by simp [hostRead, h, hb]

variable (data : Word) (strb : BitVec 4)

theorem hostWrite_cmd (h : hostTarget off = .cmd) : hostWrite s off data strb = writeCmd s data strb := by
  simp [hostWrite, h]

theorem hostWrite_ctrl (h : hostTarget off = .ctrl) :
    hostWrite s off data strb = writeCtrl s data strb := by simp [hostWrite, h]

theorem hostWrite_window_busy {w : Nat} (h : hostTarget off = .window w) (hb : s.busy = true) :
    hostWrite s off data strb = s := by simp [hostWrite, h, writeWindow, hb]

theorem hostWrite_window_idle {w : Nat} (h : hostTarget off = .window w) (hb : s.busy = false) :
    hostWrite s off data strb = { s with buf := writeLanes s.buf w data strb } := by
  simp [hostWrite, h, writeWindow, hb]

end

/-! ### `CMD` writes (R58) -/

section
variable {s : State} (data : Word) {strb : BitVec 4}

theorem writeCmd_accepted (h : s.busy = false ∧ s.err = false ∧ strb = 0b1111) :
    writeCmd s data strb = accept s data := by
  obtain ⟨hbusy, herr, hstrb⟩ := h
  exact if_pos ⟨hstrb, hbusy, herr⟩

theorem writeCmd_lost (h : ¬ (s.busy = false ∧ s.err = false ∧ strb = 0b1111)) :
    writeCmd s data strb = s :=
  if_neg fun ⟨hstrb, hbusy, herr⟩ => h ⟨hbusy, herr, hstrb⟩

end

/-- Settles O16: the two outcomes of a `CMD` write. -/
theorem cmdWriteAcceptsOrIsLost : Obligations.CmdWriteAcceptsOrIsLost := by
  unfold Obligations.CmdWriteAcceptsOrIsLost
  intro s off data strb hoff
  rw [hostWrite_cmd s data strb (hostTarget_cmd (Nat.div_eq_of_lt hoff))]
  exact ⟨writeCmd_accepted data, writeCmd_lost data⟩

/-! ### `CTRL` writes (R61, 60_exceptions.md R228) -/

/-- R228, R234: a clear takes away any latched error but `E_CONSTRUCT`. -/
theorem clearError_latched {s : State} (h : s.err = true ∧ s.errCode ≠ 0x03) :
    clearError s = { s with err := false, errCode := 0x00 } := if_pos h

theorem clearError_kept {s : State} (h : ¬ (s.err = true ∧ s.errCode ≠ 0x03)) : clearError s = s :=
  if_neg h

section
variable {s : State} {data : Word} {strb : BitVec 4}

theorem writeCtrl_lost (h : s.busy = true ∨ strb.getLsbD 0 = false) : writeCtrl s data strb = s :=
  if_pos h.symm

variable (hb : s.busy = false) (hstrb : strb.getLsbD 0 = true)
include hb hstrb

/-- R61: `SRST` decides before `CLRERR`. -/
theorem writeCtrl_srst (h0 : data.getLsbD 0 = true) : writeCtrl s data strb = resetCore s := by
  simp only [writeCtrl, hb, hstrb, h0, reduceCtorEq, or_self, reduceIte]

theorem writeCtrl_clrerr (h0 : data.getLsbD 0 = false) (h1 : data.getLsbD 1 = true) :
    writeCtrl s data strb = clearError s := by
  simp only [writeCtrl, hb, hstrb, h0, h1, reduceCtorEq, or_self, reduceIte]

theorem writeCtrl_neither (h0 : data.getLsbD 0 = false) (h1 : data.getLsbD 1 = false) :
    writeCtrl s data strb = s := by
  simp only [writeCtrl, hb, hstrb, h0, h1, reduceCtorEq, or_self, reduceIte]

end

/-- Settles O17: the outcomes of a `CTRL` write, with the soft reset's values from
`resetCore_isResetState`. -/
theorem ctrlWriteResetsOrClearsLatch : Obligations.CtrlWriteResetsOrClearsLatch := by
  unfold Obligations.CtrlWriteResetsOrClearsLatch
  intro s off data strb hoff
  rw [hostWrite_ctrl s data strb (hostTarget_ctrl hoff)]
  refine ⟨writeCtrl_lost, fun hb hstrb => ⟨fun h0 => ?srst, fun h0 h1 => ?clrerr, ?neither⟩⟩
  case srst =>
    rw [writeCtrl_srst hb hstrb h0]
    exact ⟨resetCore_isResetState s, rfl, rfl, rfl⟩
  case clrerr =>
    rw [writeCtrl_clrerr hb hstrb h0 h1]
    exact ⟨clearError_latched, clearError_kept⟩
  case neither => exact writeCtrl_neither hb hstrb

/-! ### Fields of a word by arithmetic -/

theorem getLsbD_eq_of_div_mod {n : Nat} {w : BitVec n} {i : Nat} {b : Bool}
    (h : w.toNat / 2 ^ i % 2 = b.toNat) : w.getLsbD i = b := by
  rw [BitVec.getLsbD, Nat.testBit_eq_decide_div_mod_eq, h]
  cases b <;> rfl

theorem extractLsb'_eq_of_div_mod {n : Nat} {w : BitVec n} {i len : Nat} {v : BitVec len}
    (h : w.toNat / 2 ^ i % 2 ^ len = v.toNat) : w.extractLsb' i len = v := by
  apply BitVec.eq_of_toNat_eq
  rw [BitVec.extractLsb'_toNat, Nat.shiftRight_eq_div_pow, h]

/-! ### The bits of `STATUS` (R60, 10_state.md R26) -/

/-- The flags and the code do not reach beyond bit 15, so no part of the sum is cut off. -/
theorem statusWord_toNat (s : State) :
    s.statusWord.toNat = s.busy.toNat + 2 * s.done.toNat + 4 * s.err.toNat + 8 * s.absent.toNat +
      16 * s.boolRes.toNat + 256 * s.errCode.toNat := by
  have := s.busy.toNat_lt
  have := s.done.toNat_lt
  have := s.err.toNat_lt
  have := s.absent.toNat_lt
  have := s.boolRes.toNat_lt
  have := s.errCode.isLt
  simp only [State.statusWord, flagAt, BitVec.toNat_ofNat]
  omega

/-- R27, R58: acceptance leaves `BUSY` as the one bit of `STATUS`. -/
theorem statusWord_busy {s : State} (hs : StateOk s) (hb : s.busy = true) : s.statusWord = 0x00000001 := by
  obtain ⟨hdone, habsent, hbool, herr⟩ := hs.busy_clean hb
  have hcode := hs.err_code.1 herr
  simp [State.statusWord, flagAt, hb, hdone, habsent, hbool, herr, hcode]

/-- Settles O19: each field is cut out of the sum of `statusWord_toNat`. -/
theorem statusReadBits : Obligations.StatusReadBits := by
  unfold Obligations.StatusReadBits
  intro s off hoff
  rw [hostRead_status s (hostTarget_status hoff)]
  have hword := statusWord_toNat s
  have hbusy := s.busy.toNat_lt
  have hdone := s.done.toNat_lt
  have herr := s.err.toNat_lt
  have habsent := s.absent.toNat_lt
  have hbool := s.boolRes.toNat_lt
  have hcode := s.errCode.isLt
  exact ⟨getLsbD_eq_of_div_mod (by omega), getLsbD_eq_of_div_mod (by omega),
    getLsbD_eq_of_div_mod (by omega), getLsbD_eq_of_div_mod (by omega),
    getLsbD_eq_of_div_mod (by omega), extractLsb'_eq_of_div_mod (by change _ = 0; omega),
    extractLsb'_eq_of_div_mod (by omega), extractLsb'_eq_of_div_mod (by change _ = 0; omega),
    statusWord_busy⟩

/-! ### Reading a window word (R53, R55) -/

/-- `le_bytes` undoes `le_int`. -/
theorem leBytes_leInt (bs : List Byte) : leBytes (leInt bs) bs.length = bs := by
  induction bs with
  | nil => rfl
  | cons b bs ih =>
    have hb := b.isLt
    have hlow : BitVec.ofNat 8 (leInt (b :: bs)) = b := by
      apply BitVec.eq_of_toNat_eq
      simp only [leInt, BitVec.toNat_ofNat]
      omega
    have hhigh : leInt (b :: bs) / 256 = leInt bs := by
      simp only [leInt]
      omega
    rw [List.length_cons, leBytes, hlow, hhigh, ih]

/-- Byte `j` of `le_int`, by arithmetic. -/
theorem ofNat_leInt_div (bs : List Byte) {j : Nat} (hj : j < bs.length) :
    BitVec.ofNat 8 (leInt bs / 256 ^ j) = bs[j] := by
  have h := getElem?_leBytes (leInt bs) bs.length j hj
  rw [leBytes_leInt, List.getElem?_eq_getElem hj] at h
  exact (Option.some.inj h).symm

/-- R55: lane `j` of a window word is byte `4*w + j`. -/
theorem extractLsb'_windowWord (m : Memory) (w : Nat) {j : Nat} (hj : j < 4) :
    (windowWord m w).extractLsb' (8 * j) 8 = m.read (4 * w + j) := by
  have hbyte := ofNat_leInt_div (m.readBytes (4 * w) 4) (j := j) (by simpa using hj)
  have hread : (m.readBytes (4 * w) 4)[j]'(by simpa using hj) = m.read (4 * w + j) := by
    simp [Memory.readBytes]
  have hlt : leInt (m.readBytes (4 * w) 4) < 2 ^ 32 := by
    simpa using leInt_lt (m.readBytes (4 * w) 4)
  rw [← hread, ← hbyte]
  apply extractLsb'_eq_of_div_mod
  rw [windowWord, BitVec.toNat_ofNat, BitVec.toNat_ofNat, Nat.mod_eq_of_lt hlt, Nat.pow_mul]

/-! ### Writing a window word (R57, R63) -/

/-- The write of one byte lane, if its strobe is 1: a round of `writeLanes`. -/
def writeLane (w : Nat) (data : Word) (strb : BitVec 4) (m : Memory) (j : Nat) : Memory :=
  if strb.getLsbD j then m.write (4 * w + j) (lane data j) else m

theorem writeLanes_eq_foldl (m : Memory) (w : Nat) (data : Word) (strb : BitVec 4) :
    writeLanes m w data strb = (List.range 4).foldl (writeLane w data strb) m := rfl

section
variable (w : Nat) (data : Word) (strb : BitVec 4) {m : Memory}

theorem Memory.pairwise_writeLane (hm : m.Pairwise fun x y => x.1 < y.1) (j : Nat) :
    (writeLane w data strb m j).Pairwise fun x y => x.1 < y.1 := by
  unfold writeLane
  split
  · exact Memory.pairwise_write m hm _ _
  · exact hm

theorem Memory.read_writeLane (hm : m.Pairwise fun x y => x.1 < y.1) {j : Nat} (hj : j < 4) (a : Nat) :
    (writeLane w data strb m j).read a =
      if a / 4 = w ∧ a % 4 = j ∧ strb.getLsbD (a % 4) = true then lane data (a % 4) else m.read a := by
  have haddr : a = 4 * w + j ↔ a / 4 = w ∧ a % 4 = j := by omega
  by_cases hs : strb.getLsbD j = true
  · rw [writeLane, if_pos hs, Memory.read_write m hm]
    by_cases ha : a = 4 * w + j
    · obtain ⟨hw, hl⟩ := haddr.1 ha
      rw [if_pos ha, if_pos ⟨hw, hl, hl ▸ hs⟩, hl]
    · rw [if_neg ha, if_neg fun ⟨hw, hl, _⟩ => ha (haddr.2 ⟨hw, hl⟩)]
  · rw [writeLane, if_neg hs, if_neg fun ⟨_, hl, h⟩ => hs (hl ▸ h)]

/-- The lanes of a list, written one after the other: an address names at most one lane, so its byte is
that lane's wherever the lane stands in the list. -/
theorem Memory.read_foldl_writeLane (hm : m.Pairwise fun x y => x.1 < y.1) (js : List Nat)
    (hjs : ∀ j ∈ js, j < 4) (a : Nat) :
    (js.foldl (writeLane w data strb) m).read a =
      if a / 4 = w ∧ a % 4 ∈ js ∧ strb.getLsbD (a % 4) = true then lane data (a % 4) else m.read a := by
  induction js generalizing m with
  | nil => simp
  | cons j js ih =>
    obtain ⟨hj, hrest⟩ := List.forall_mem_cons.1 hjs
    rw [List.foldl_cons, ih (Memory.pairwise_writeLane w data strb hm j) hrest,
      Memory.read_writeLane w data strb hm hj, ← ite_or]
    exact if_congr (by rw [List.mem_cons]; tauto) rfl rfl

/-- R63: a window write stores exactly the strobed bytes. -/
theorem Memory.read_writeLanes (hm : m.Pairwise fun x y => x.1 < y.1) (a : Nat) :
    (writeLanes m w data strb).read a =
      if a / 4 = w ∧ strb.getLsbD (a % 4) = true then lane data (a % 4) else m.read a := by
  rw [writeLanes_eq_foldl, Memory.read_foldl_writeLane w data strb hm _ fun j => List.mem_range.1]
  have hmem : a % 4 ∈ List.range 4 := List.mem_range.2 (Nat.mod_lt a (by decide))
  simp only [hmem, true_and]

end

/-- Settles O18: while busy both accesses are void; otherwise `extractLsb'_windowWord` and
`Memory.read_writeLanes`. -/
theorem windowAccess : Obligations.WindowAccess := by
  unfold Obligations.WindowAccess
  intro s off data strb hwf hlo hhi
  have ht := hostTarget_window hlo hhi
  refine ⟨fun hb => ⟨hostRead_window_busy s ht hb, hostWrite_window_busy s data strb ht hb⟩,
    fun hb => ⟨fun j hj => ?read, _, hostWrite_window_idle s data strb ht hb, fun a => ?write⟩⟩
  case read => rw [hostRead_window_idle s ht hb, extractLsb'_windowWord s.buf _ hj]
  case write => exact Memory.read_writeLanes _ data strb hwf.1 a

/-! ### What a busy CORE hides (R62, R64) -/

/-- Settles O22: only a window read uses the buffer, and it gives 0 while busy. -/
theorem busyHidesBufferAndRegisters : Obligations.BusyHidesBufferAndRegisters := by
  unfold Obligations.BusyHidesBufferAndRegisters
  intro s r m off hb
  have hbusy : ({ s with regs := r, buf := m } : State).busy = true := hb
  cases ht : hostTarget off with
  | cmd => rw [hostRead_cmd _ ht, hostRead_cmd _ ht]
  | status => rw [hostRead_status _ ht, hostRead_status _ ht]; rfl
  | ctrl => rw [hostRead_ctrl _ ht, hostRead_ctrl _ ht]
  | window w => rw [hostRead_window_busy _ ht hbusy, hostRead_window_busy s ht hb]
  | unmapped => rw [hostRead_unmapped _ ht, hostRead_unmapped _ ht]

end Sys2Proof.Machine
end

section
/-! PROOF. The command word (30_encoding.md R80 to R93): decode and encode undo each other, and the words
that decode are those the opcode table admits. The decoder's opcode map, the encoder and the table are
each read off one list of the formats of the 33 commands, `formatTable`, so that a claim about every
word is a case split over the formats of R82. -/

namespace Sys2Proof.Machine

/-! ### The formats of R82 and the list of R89 -/

/-- A format of 30_encoding.md R82 with the command it makes of its operands. A `P` in the name marks the
formats that take no field select (R83). -/
inductive WordFormat where
  | z (i : Instr)
  | r3 (mk : FieldSel → Idx → Idx → Idx → Instr)
  | r3P (mk : Idx → Idx → Idx → Instr)
  | r2 (mk : FieldSel → Idx → Idx → Instr)
  | r2P (mk : Idx → Idx → Instr)
  | r1 (mk : Idx → Instr)
  | v1 (mk : FieldSel → Idx → Idx → Idx → Instr)
  | v2 (mk : FieldSel → Idx → Idx → Idx → Idx → Idx → Instr)
  | bl (mk : FieldSel → Idx → BitVec 8 → BitVec 8 → Instr)
  | blP (mk : Idx → BitVec 8 → BitVec 8 → Instr)
  | bs (mk : FieldSel → Idx → BitVec 8 → Instr)
  | bsP (mk : Idx → BitVec 8 → Instr)
  | ldc
  | pldc

/-- The opcode and the format of each command (R89), in the order of `opcodeTable`. -/
def formatTable : List (Nat × WordFormat) :=
  [(0x01, .z .nop), (0x02, .z .zeroize), (0x04, .r2P .mov), (0x05, .r2P .pmov), (0x06, .ldc),
   (0x07, .pldc), (0x10, .r3 .fadd), (0x11, .r3 .fsub), (0x12, .r2 .fneg), (0x13, .r3 .fmul),
   (0x14, .r2 .fsqr), (0x15, .r2 .finv), (0x16, .r2 .finvz), (0x17, .r3 .fdiv), (0x18, .r3 .fdivz),
   (0x19, .r3 .fpow), (0x1A, .r2 .fleg), (0x1B, .r2 .fsqrt), (0x1C, .v1 .fsum), (0x1D, .v1 .fprod),
   (0x1E, .v2 .fdot), (0x20, .bl .ffromb), (0x21, .bs .ftob), (0x22, .bl .fent), (0x28, .blP .pfromb),
   (0x29, .bsP .ptob), (0x30, .r3P .padd), (0x31, .r2P .pdbl), (0x32, .r2P .pneg), (0x33, .r1 .ponc),
   (0x34, .r1 .pinsg), (0x35, .r3P .smul), (0x36, .r3P .smulvt)]

theorem formatTable_op_lt : ∀ r ∈ formatTable, r.1 < 256 := by decide

/-- The two formats with a `CID` belong to `LDC` and `PLDC` alone. -/
theorem formatTable_cid_rows :
    ∀ r ∈ formatTable, (r.1 = 0x06 ↔ r.2 = .ldc) ∧ (r.1 = 0x07 ↔ r.2 = .pldc) := by
  simp [formatTable]

/-! ### The decoder's opcode map is the list -/

/-- How the decoder reads a word of a format. -/
def WordFormat.decode (w : Word) : WordFormat → Except DecodeError Instr
  | .z i => fmtZ w i
  | .r3 mk => fmtR3 w mk
  | .r3P mk => fmtR3P w mk
  | .r2 mk => fmtR2 w mk
  | .r2P mk => fmtR2P w mk
  | .r1 mk => fmtR1 w mk
  | .v1 mk => fmtV1 w mk
  | .v2 mk => fmtV2 w mk
  | .bl mk => fmtBL w mk
  | .blP mk => fmtBLP w mk
  | .bs mk => fmtBS w mk
  | .bsP mk => fmtBSP w mk
  | .ldc => fmtLdc w
  | .pldc => fmtPldc w

theorem decodeOp_of_mem (w : Word) : ∀ r ∈ formatTable, decodeOp w r.1 = r.2.decode w :=
  List.map_inj_left.1 rfl

theorem decodeOp_of_not_mem (w : Word) {op : Nat} (h : op ∉ formatTable.map Prod.fst) :
    decodeOp w op = .error .reservedOpcode := by
  unfold decodeOp
  split
  case h_34 => rfl
  all_goals exact absurd (by decide) h

/-- R89: a word decodes through the row of its `OP` and never with a nonzero `RSV`. -/
theorem decode_eq_ok_iff_format {w : Word} {i : Instr} :
    decode w = .ok i ↔
      rsvOf w = 0 ∧ ∃ fmt, (opOf w, fmt) ∈ formatTable ∧ fmt.decode w = .ok i := by
  unfold Sys2Proof.decode
  by_cases hrsv : rsvOf w = 0
  · simp only [hrsv, if_true, true_and]
    constructor
    · intro h
      by_cases hop : opOf w ∈ formatTable.map Prod.fst
      · obtain ⟨⟨op, fmt⟩, hr, hfst⟩ := List.mem_map.1 hop
        obtain rfl : op = opOf w := hfst
        exact ⟨fmt, hr, (decodeOp_of_mem w _ hr).symm.trans h⟩
      · simp [decodeOp_of_not_mem w hop] at h
    · rintro ⟨fmt, hr, h⟩
      exact (decodeOp_of_mem w _ hr).trans h
  · simp [hrsv]

/-! ### What a format takes: its must-be-zero fields and the command it makes of the others -/

/-- The fields that a format asks to be 0, as lowest bit and length (R82, R83). -/
def WordFormat.zeroFields : WordFormat → List (Nat × Nat)
  | .z _ => [(0, 20), (23, 1)]
  | .r3 _ => [(0, 8)]
  | .r3P _ => [(0, 8), (23, 1)]
  | .r2 _ => [(0, 12)]
  | .r2P _ => [(0, 12), (23, 1)]
  | .r1 _ => [(0, 12), (16, 4), (23, 1)]
  | .v1 _ => [(8, 4), (0, 4)]
  | .v2 _ | .bl _ => []
  | .blP _ => [(23, 1)]
  | .bs _ => [(0, 8)]
  | .bsP _ => [(0, 8), (23, 1)]
  | .ldc => [(8, 8)]
  | .pldc => [(8, 8), (23, 1)]

/-- The command that a format makes of the other fields; none where the `CID` is not legal. -/
def WordFormat.build (w : Word) : WordFormat → Option Instr
  | .z i => some i
  | .r3 mk => some (mk (fieldOf w) (rdOf w) (raOf w) (rbOf w))
  | .r3P mk => some (mk (rdOf w) (raOf w) (rbOf w))
  | .r2 mk => some (mk (fieldOf w) (rdOf w) (raOf w))
  | .r2P mk => some (mk (rdOf w) (raOf w))
  | .r1 mk => some (mk (raOf w))
  | .v1 mk => some (mk (fieldOf w) (rdOf w) (raOf w) (naOf w))
  | .v2 mk => some (mk (fieldOf w) (rdOf w) (raOf w) (naOf w) (rbOf w) (nbOf w))
  | .bl mk => some (mk (fieldOf w) (rdOf w) (off8Of w) (len8Of w))
  | .blP mk => some (mk (rdOf w) (off8Of w) (len8Of w))
  | .bs mk => some (mk (fieldOf w) (rdOf w) (off8Of w))
  | .bsP mk => some (mk (rdOf w) (off8Of w))
  | .ldc =>
    (constOfCid (imm8Of w)).bind fun cid =>
      if cid.allows (fieldOf w) then some (.ldc (fieldOf w) (rdOf w) cid) else none
  | .pldc => (pointConstOfCid (imm8Of w)).map fun cid => .pldc (rdOf w) cid

theorem needF0_eq_ok_iff {w : Word} {i j : Instr} : needF0 w i = .ok j ↔ fBitOf w = 0 ∧ i = j := by
  unfold needF0
  split <;> simp [*]

theorem ite_unusedField_eq_ok_iff {p : Prop} [Decidable p] {r : Except DecodeError Instr} {i : Instr} :
    (if p then r else .error .unusedField) = .ok i ↔ p ∧ r = .ok i := by
  split <;> simp [*]

theorem fmtLdc_eq_ok_iff {w : Word} {i : Instr} :
    fmtLdc w = .ok i ↔ bits w 8 8 = 0 ∧ WordFormat.build w .ldc = some i := by
  unfold fmtLdc WordFormat.build
  rw [ite_unusedField_eq_ok_iff]
  cases constOfCid (imm8Of w) with
  | none => simp
  | some cid => cases hf : cid.allows (fieldOf w) <;> simp [hf]

theorem fmtPldc_eq_ok_iff {w : Word} {i : Instr} :
    fmtPldc w = .ok i ↔ bits w 8 8 = 0 ∧ fBitOf w = 0 ∧ WordFormat.build w .pldc = some i := by
  unfold fmtPldc WordFormat.build
  rw [ite_unusedField_eq_ok_iff]
  cases pointConstOfCid (imm8Of w) with
  | none => simp
  | some cid => simp [needF0_eq_ok_iff]

/-- R82: a word of a format decodes exactly when the fields that the format does not use are 0. -/
theorem WordFormat.decode_eq_ok_iff {fmt : WordFormat} {w : Word} {i : Instr} :
    fmt.decode w = .ok i ↔
      (∀ z ∈ fmt.zeroFields, bits w z.1 z.2 = 0) ∧ fmt.build w = some i := by
  have hf : fBitOf w = bits w 23 1 := rfl
  have himm : imm8Of w = bits w 0 8 := rfl
  cases fmt with
  | r3 _ | r2 _ | v1 _ | v2 _ | bl _ | bs _ =>
    simp [WordFormat.decode, fmtR3, fmtR2, fmtV1, fmtV2, fmtBL, fmtBS, zeroFields, build, himm,
      ite_unusedField_eq_ok_iff]
  | z _ | r3P _ | r2P _ | r1 _ | blP _ | bsP _ =>
    simp [WordFormat.decode, fmtZ, fmtR3P, fmtR2P, fmtR1, fmtBLP, fmtBSP, zeroFields, build, himm, hf,
      ite_unusedField_eq_ok_iff, needF0_eq_ok_iff, and_assoc]
  | ldc => simp [WordFormat.decode, fmtLdc_eq_ok_iff, zeroFields]
  | pldc => simp [WordFormat.decode, fmtPldc_eq_ok_iff, zeroFields, hf, and_assoc]

/-! ### The words of a format and the commands they encode (R81, R82) -/

/-- `Words op fmt i w`: in the format `fmt` under the opcode `op`, `w` is the word of the command `i`, with
every operand at some value. -/
inductive WordFormat.Words (op : Nat) : WordFormat → Instr → Word → Prop
  | z (i) : Words op (.z i) i (mkWord op 0 0 0 0 0)
  | r3 (mk) (f : FieldSel) (rd ra rb : Idx) : Words op (.r3 mk) (mk f rd ra rb) (mkWord op f.bit rd ra rb 0)
  | r3P (mk) (rd ra rb : Idx) : Words op (.r3P mk) (mk rd ra rb) (mkWord op 0 rd ra rb 0)
  | r2 (mk) (f : FieldSel) (rd ra : Idx) : Words op (.r2 mk) (mk f rd ra) (mkWord op f.bit rd ra 0 0)
  | r2P (mk) (rd ra : Idx) : Words op (.r2P mk) (mk rd ra) (mkWord op 0 rd ra 0 0)
  | r1 (mk) (ra : Idx) : Words op (.r1 mk) (mk ra) (mkWord op 0 0 ra 0 0)
  | v1 (mk) (f : FieldSel) (rd ra n : Idx) :
    Words op (.v1 mk) (mk f rd ra n) (mkWord op f.bit rd ra 0 (n.val * 16))
  | v2 (mk) (f : FieldSel) (rd ra na rb nb : Idx) :
    Words op (.v2 mk) (mk f rd ra na rb nb) (mkWord op f.bit rd ra rb (na.val * 16 + nb.val))
  | bl (mk) (f : FieldSel) (rd : Idx) (off len : BitVec 8) :
    Words op (.bl mk) (mk f rd off len) (mkWordB op f.bit rd off.toNat len.toNat)
  | blP (mk) (rd : Idx) (off len : BitVec 8) :
    Words op (.blP mk) (mk rd off len) (mkWordB op 0 rd off.toNat len.toNat)
  | bs (mk) (f : FieldSel) (rd : Idx) (off : BitVec 8) :
    Words op (.bs mk) (mk f rd off) (mkWordB op f.bit rd off.toNat 0)
  | bsP (mk) (rd : Idx) (off : BitVec 8) : Words op (.bsP mk) (mk rd off) (mkWordB op 0 rd off.toNat 0)
  | ldc (f : FieldSel) (rd : Idx) (cid : ConstId) (h : cid.allows f = true) :
    Words op .ldc (.ldc f rd cid) (mkWord op f.bit rd 0 0 cid.cid)
  | pldc (d : Idx) (cid : PointConstId) : Words op .pldc (.pldc d cid) (mkWord op 0 d 0 0 cid.cid)

/-- The encoder follows the list: what a row words is well formed, and its word is that row's. -/
theorem encode_of_words {i : Instr} {w : Word} :
    ∀ r ∈ formatTable, r.2.Words r.1 i w → i.wellFormed = true ∧ encode i = w := by
  simp only [formatTable, List.forall_mem_cons, List.not_mem_nil, IsEmpty.forall_iff]
  and_intros
  all_goals rintro ⟨⟩; simp [encode, Instr.wellFormed, *]

/-- The list leaves out no command. -/
theorem words_encode {i : Instr} (hwf : i.wellFormed = true) :
    ∃ r ∈ formatTable, r.2.Words r.1 i (encode i) := by
  cases i with
  | nop | zeroize => exact ⟨(_, .z _), by simp [formatTable], .z _⟩
  | mov _ _ | pmov _ _ | pdbl _ _ | pneg _ _ => exact ⟨(_, .r2P _), by simp [formatTable], .r2P ..⟩
  | ldc f rd cid => exact ⟨(_, .ldc), by simp [formatTable], .ldc f rd cid hwf⟩
  | pldc d cid => exact ⟨(_, .pldc), by simp [formatTable], .pldc ..⟩
  | fadd f rd ra rb | fsub f rd ra rb | fmul f rd ra rb | fdiv f rd ra rb | fdivz f rd ra rb
  | fpow f rd ra rb => exact ⟨(_, .r3 _), by simp [formatTable], .r3 ..⟩
  | fneg f rd ra | fsqr f rd ra | finv f rd ra | finvz f rd ra | fleg f rd ra | fsqrt f rd ra =>
    exact ⟨(_, .r2 _), by simp [formatTable], .r2 ..⟩
  | fsum f rd ra n | fprod f rd ra n => exact ⟨(_, .v1 _), by simp [formatTable], .v1 ..⟩
  | fdot f rd ra na rb nb => exact ⟨(_, .v2 _), by simp [formatTable], .v2 ..⟩
  | ffromb f rd off len | fent f rd off len => exact ⟨(_, .bl _), by simp [formatTable], .bl ..⟩
  | ftob f rs off => exact ⟨(_, .bs _), by simp [formatTable], .bs ..⟩
  | pfromb d off len => exact ⟨(_, .blP _), by simp [formatTable], .blP ..⟩
  | ptob src off => exact ⟨(_, .bsP _), by simp [formatTable], .bsP ..⟩
  | padd d a b | smul d a b | smulvt d a b => exact ⟨(_, .r3P _), by simp [formatTable], .r3P ..⟩
  | ponc a | pinsg a => exact ⟨(_, .r1 _), by simp [formatTable], .r1 ..⟩

/-- A row's word decodes to the row's command. -/
theorem decode_of_words {i : Instr} {w : Word} :
    ∀ r ∈ formatTable, r.2.Words r.1 i w → decode w = .ok i := by
  rintro ⟨op, fmt⟩ hr h
  have hop : op < 256 := formatTable_op_lt _ hr
  have row (w : Word) : decodeOp w op = fmt.decode w := decodeOp_of_mem w _ hr
  have reg (f : FieldSel) (rd ra rb : Idx) {imm : Nat} (himm : imm < 256) :
      decode (mkWord op f.bit rd ra rb imm) = fmt.decode (mkWord op f.bit rd ra rb imm) :=
    (decode_mkWord (regFields hop f rd ra rb himm)).trans (row _)
  have buf (f : FieldSel) (rd : Idx) (off len : BitVec 8) :
      decode (mkWordB op f.bit rd off.toNat len.toNat) =
        fmt.decode (mkWordB op f.bit rd off.toNat len.toNat) :=
    (decode_mkWordB (bufFields hop f rd off len)).trans (row _)
  cases h with
  | z i => exact (reg .bf 0 0 0 (by decide)).trans (fmtZ_mkWord hop i)
  | r3 mk f rd ra rb => exact (reg f rd ra rb (by decide)).trans (fmtR3_mkWord hop f rd ra rb mk)
  | r3P mk rd ra rb => exact (reg .bf rd ra rb (by decide)).trans (fmtR3P_mkWord hop rd ra rb mk)
  | r2 mk f rd ra => exact (reg f rd ra 0 (by decide)).trans (fmtR2_mkWord hop f rd ra mk)
  | r2P mk rd ra => exact (reg .bf rd ra 0 (by decide)).trans (fmtR2P_mkWord hop rd ra mk)
  | r1 mk ra => exact (reg .bf 0 ra 0 (by decide)).trans (fmtR1_mkWord hop ra mk)
  | v1 mk f rd ra n => exact (reg f rd ra 0 (by omega)).trans (fmtV1_mkWord hop f rd ra n mk)
  | v2 mk f rd ra na rb nb =>
    exact (reg f rd ra rb (by omega)).trans (fmtV2_mkWord hop f rd ra rb na nb mk)
  | bl mk f rd off len => exact (buf f rd off len).trans (fmtBL_mkWordB hop f rd off len mk)
  | blP mk rd off len => exact (buf .bf rd off len).trans (fmtBLP_mkWordB hop rd off len mk)
  | bs mk f rd off => exact (buf f rd off 0).trans (fmtBS_mkWordB hop f rd off mk)
  | bsP mk rd off => exact (buf .bf rd off 0).trans (fmtBSP_mkWordB hop rd off mk)
  | ldc f rd cid h =>
    obtain rfl : op = 0x06 := (formatTable_cid_rows _ hr).1.2 rfl
    exact (reg f rd 0 0 cid.cid_lt).trans (fmtLdc_mkWord f rd cid h)
  | pldc d cid =>
    obtain rfl : op = 0x07 := (formatTable_cid_rows _ hr).2.2 rfl
    exact (reg .bf d 0 0 cid.cid_lt).trans (fmtPldc_mkWord d cid)

theorem WordFormat.Words.of_eq {op : Nat} {fmt : WordFormat} {i : Instr} {v w : Word}
    (h : fmt.Words op i v) (hv : v = w) : fmt.Words op i w := hv ▸ h

/-- R81, R82: a word whose unused fields are 0 is the word of the command made of its other fields. -/
theorem WordFormat.words_of_build {fmt : WordFormat} {w : Word} {i : Instr} (hrsv : rsvOf w = 0)
    (hzero : ∀ z ∈ fmt.zeroFields, bits w z.1 z.2 = 0) (hbuild : fmt.build w = some i) :
    fmt.Words (opOf w) i w := by
  have reg := mkWord_fields w hrsv
  have buf := mkWordB_fields w hrsv
  have hf : fBitOf w = bits w 23 1 := rfl
  have himm : imm8Of w = bits w 0 8 := rfl
  cases fmt <;> simp [zeroFields, bits_low12, bits_low20, bits_mid8] at hzero
  case ldc =>
    obtain ⟨cid, hcid, hite⟩ := Option.bind_eq_some_iff.1 hbuild
    obtain ⟨hallows, hi⟩ := Option.ite_none_right_eq_some.1 hite
    obtain rfl := Option.some.inj hi
    exact (Words.ldc _ (rdOf w) cid hallows).of_eq
      (by simpa [constOfCid_eq_some hcid, himm, hzero] using reg)
  case pldc =>
    obtain ⟨cid, hcid, rfl⟩ := Option.map_eq_some_iff.1 hbuild
    exact (Words.pldc (rdOf w) cid).of_eq
      (by simpa [pointConstOfCid_eq_some hcid, himm, hzero, hf] using reg)
  all_goals obtain rfl := Option.some.inj hbuild
  case z => exact (Words.z _).of_eq (by simpa [hzero, hf] using reg)
  case r3 mk => exact (Words.r3 mk ..).of_eq (by simpa [hzero] using reg)
  case r3P mk => exact (Words.r3P mk ..).of_eq (by simpa [hzero, hf] using reg)
  case r2 mk => exact (Words.r2 mk ..).of_eq (by simpa [hzero] using reg)
  case r2P mk => exact (Words.r2P mk ..).of_eq (by simpa [hzero, hf] using reg)
  case r1 mk => exact (Words.r1 mk _).of_eq (by simpa [hzero, hf] using reg)
  case v1 mk => exact (Words.v1 mk ..).of_eq (by simpa [hzero, bits_low8] using reg)
  case v2 mk => exact (Words.v2 mk ..).of_eq (by simpa [bits_low8] using reg)
  case bl mk => exact (Words.bl mk ..).of_eq (by simpa using buf)
  case blP mk => exact (Words.blP mk ..).of_eq (by simpa [hzero, hf] using buf)
  case bs mk => exact (Words.bs mk ..).of_eq (by simpa [hzero] using buf)
  case bsP mk => exact (Words.bsP mk ..).of_eq (by simpa [hzero, hf] using buf)

/-- Settles O1: a well-formed command has a row, and the row's word decodes. -/
theorem decodeOfEncode : Obligations.DecodeOfEncode := by
  unfold Obligations.DecodeOfEncode
  intro i hwf
  obtain ⟨r, hr, hwords⟩ := words_encode hwf
  exact decode_of_words r hr hwords

/-- Settles O2: a word that decodes is the word of a row, and the encoder follows the rows. -/
theorem encodeOfDecode : Obligations.EncodeOfDecode := by
  unfold Obligations.EncodeOfDecode
  intro w i h
  obtain ⟨hrsv, fmt, hr, hfmt⟩ := decode_eq_ok_iff_format.1 h
  obtain ⟨hzero, hbuild⟩ := WordFormat.decode_eq_ok_iff.1 hfmt
  exact encode_of_words _ hr (WordFormat.words_of_build hrsv hzero hbuild)

/-- Settles O3: each word is the word of the command beside it. -/
theorem decodeExampleWords : Obligations.DecodeExampleWords := by
  unfold Obligations.DecodeExampleWords
  exact ⟨decodeOfEncode (.fadd .bf 3 1 2) rfl, decodeOfEncode (.fadd .sf 3 1 2) rfl,
    decodeOfEncode (.fsqrt .bf 5 4) rfl, decodeOfEncode (.fdot .bf 9 0 3 4 3) rfl,
    decodeOfEncode (.ffromb .bf 1 0x10 2) rfl, decodeOfEncode (.ftob .sf 7 0x20) rfl,
    decodeOfEncode (.smul 4 2 0) rfl, decodeOfEncode (.pldc 2 .base) rfl, decodeOfEncode .zeroize rfl⟩

/-! ### Masked comparison (R89): `w & mask = match` compares fields -/

/-- The word with ones in the field of lowest bit `z.1` and length `z.2`. -/
def fieldMask (z : Nat × Nat) : Word := BitVec.ofNat 32 ((2 ^ z.2 - 1) <<< z.1)

/-- The mask of several fields. -/
def maskOf (zs : List (Nat × Nat)) : Word := zs.foldr (fun z m => fieldMask z ||| m) 0

theorem toNat_and_fieldMask (w : Word) {z : Nat × Nat} (hz : z.1 + z.2 ≤ 32) :
    (w &&& fieldMask z).toNat = bits w z.1 z.2 * 2 ^ z.1 := by
  have hlt : (2 ^ z.2 - 1) <<< z.1 < 2 ^ 32 := by
    rw [Nat.shiftLeft_eq]
    calc (2 ^ z.2 - 1) * 2 ^ z.1 < 2 ^ z.2 * 2 ^ z.1 :=
          Nat.mul_lt_mul_of_pos_right (Nat.sub_lt (Nat.two_pow_pos _) Nat.one_pos) (Nat.two_pow_pos _)
      _ = 2 ^ (z.1 + z.2) := by rw [← Nat.pow_add, Nat.add_comm]
      _ ≤ 2 ^ 32 := Nat.pow_le_pow_right (by decide) hz
  rw [BitVec.toNat_and, fieldMask, BitVec.toNat_ofNat, Nat.mod_eq_of_lt hlt, bits, ← Nat.shiftLeft_eq]
  apply Nat.eq_of_testBit_eq
  intro i
  simp only [Nat.testBit_and, Nat.testBit_shiftLeft, Nat.testBit_two_pow_sub_one,
    Nat.testBit_mod_two_pow, Nat.testBit_div_two_pow]
  by_cases hi : z.1 ≤ i
  · simp [hi, Bool.and_comm]
  · simp [hi]

theorem and_fieldMask_eq_iff {w v : Word} {z : Nat × Nat} (hz : z.1 + z.2 ≤ 32) :
    w &&& fieldMask z = v &&& fieldMask z ↔ bits w z.1 z.2 = bits v z.1 z.2 := by
  rw [← BitVec.toNat_inj, toNat_and_fieldMask w hz, toNat_and_fieldMask v hz,
    Nat.mul_left_inj (Nat.two_pow_pos _).ne']

theorem and_or_eq_iff {w v a b : Word} :
    w &&& (a ||| b) = v &&& (a ||| b) ↔ w &&& a = v &&& a ∧ w &&& b = v &&& b := by
  simp only [BitVec.eq_of_getElem_eq_iff, BitVec.getElem_and, BitVec.getElem_or]
  rw [← forall_and]
  refine forall_congr' fun i => ?_
  rw [← forall_and]
  refine forall_congr' fun hi => ?_
  cases a[i] <;> cases b[i] <;> simp

/-- Two words agree under a mask of fields exactly when they agree in each of the fields. -/
theorem and_maskOf_eq_iff {w v : Word} {zs : List (Nat × Nat)} (hzs : ∀ z ∈ zs, z.1 + z.2 ≤ 32) :
    w &&& maskOf zs = v &&& maskOf zs ↔ ∀ z ∈ zs, bits w z.1 z.2 = bits v z.1 z.2 := by
  induction zs with
  | nil => simp [maskOf]
  | cons z zs ih =>
    obtain ⟨hz, hzs⟩ := List.forall_mem_cons.1 hzs
    rw [List.forall_mem_cons, ← ih hzs, ← and_fieldMask_eq_iff hz]
    exact and_or_eq_iff

/-! ### The opcode table is the list (R89) -/

/-- The fields that a row of the opcode table compares: `OP`, `RSV` and those its format asks to be 0. -/
def tableFields (fmt : WordFormat) : List (Nat × Nat) := (24, 8) :: (20, 3) :: fmt.zeroFields

/-- The word with an opcode and all other fields 0. -/
def opWord (op : Nat) : Word := mkWord op 0 0 0 0 0

theorem opcodeTable_eq : opcodeTable = formatTable.map fun r => (maskOf (tableFields r.2), opWord r.1) := by
  decide

/-- The `match` value of a row is 0 outside the mask, and in it outside `OP`. -/
theorem opWord_fields : ∀ r ∈ formatTable,
    opWord r.1 &&& maskOf (tableFields r.2) = opWord r.1 ∧
    opOf (opWord r.1) = r.1 ∧ rsvOf (opWord r.1) = 0 ∧
    ∀ z ∈ r.2.zeroFields, z.1 + z.2 ≤ 32 ∧ bits (opWord r.1) z.1 z.2 = 0 := by
  decide

theorem and_row_eq_iff {w : Word} {r : Nat × WordFormat} (hr : r ∈ formatTable) :
    w &&& maskOf (tableFields r.2) = opWord r.1 ↔
      opOf w = r.1 ∧ rsvOf w = 0 ∧ ∀ z ∈ r.2.zeroFields, bits w z.1 z.2 = 0 := by
  obtain ⟨hself, hop, hrsv, hzero⟩ := opWord_fields r hr
  have hfits : ∀ z ∈ tableFields r.2, z.1 + z.2 ≤ 32 := by
    simpa [tableFields] using fun a b hz => (hzero (a, b) hz).1
  have hzeros : (∀ z ∈ r.2.zeroFields, bits w z.1 z.2 = bits (opWord r.1) z.1 z.2) ↔
      ∀ z ∈ r.2.zeroFields, bits w z.1 z.2 = 0 :=
    forall₂_congr fun z hz => by rw [(hzero z hz).2]
  calc w &&& maskOf (tableFields r.2) = opWord r.1
      ↔ w &&& maskOf (tableFields r.2) = opWord r.1 &&& maskOf (tableFields r.2) := by rw [hself]
    _ ↔ opOf w = opOf (opWord r.1) ∧ rsvOf w = rsvOf (opWord r.1) ∧
          ∀ z ∈ r.2.zeroFields, bits w z.1 z.2 = bits (opWord r.1) z.1 z.2 := by
        rw [and_maskOf_eq_iff hfits, tableFields, List.forall_mem_cons, List.forall_mem_cons]; rfl
    _ ↔ _ := by rw [hop, hrsv, hzeros]

/-- R89: a word selects a row of the opcode table exactly when its `OP` is in the list and the fields that
its format does not use are 0. -/
theorem selects_row_iff {w : Word} :
    (∃ row ∈ opcodeTable, w &&& row.1 = row.2) ↔
      rsvOf w = 0 ∧ ∃ fmt, (opOf w, fmt) ∈ formatTable ∧ ∀ z ∈ fmt.zeroFields, bits w z.1 z.2 = 0 := by
  rw [opcodeTable_eq]
  simp only [List.mem_map, exists_exists_and_eq_and]
  constructor
  · rintro ⟨⟨op, fmt⟩, hr, hw⟩
    obtain ⟨rfl, hrsv, hzero⟩ := (and_row_eq_iff hr).1 hw
    exact ⟨hrsv, fmt, hr, hzero⟩
  · rintro ⟨hrsv, fmt, hr, hzero⟩
    exact ⟨_, hr, (and_row_eq_iff hr).2 ⟨rfl, hrsv, hzero⟩⟩

/-! ### The `CID` check (R90, 44_system.md R204, R205) -/

theorem extractLsb'_toNat_eq_bits (w : Word) (lo len : Nat) :
    (w.extractLsb' lo len).toNat = bits w lo len := by
  rw [BitVec.extractLsb'_toNat, Nat.shiftRight_eq_div_pow, bits]

theorem getLsbD_23_iff (w : Word) : w.getLsbD 23 = true ↔ fieldOf w = .sf := by
  have hbit : w.getLsbD 23 = decide (fBitOf w = 1) := Nat.testBit_eq_decide_div_mod_eq
  have hlt : fBitOf w < 2 := Nat.mod_lt _ (by decide)
  rw [hbit, decide_eq_true_iff, fieldOf]
  split
  · next h0 => simp [h0]
  · next h0 => simp only [iff_true]; omega

theorem cidOk_iff {w : Word} : cidOk w ↔
    (opOf w = 0x06 → imm8Of w ≤ 6 ∧ (fieldOf w = .sf → imm8Of w ≤ 2)) ∧
    (opOf w = 0x07 → imm8Of w ≤ 2) := by
  simp only [cidOk, ← BitVec.toNat_inj, BitVec.le_def, extractLsb'_toNat_eq_bits, getLsbD_23_iff]
  rfl

theorem ConstId.cid_le (c : ConstId) : c.cid ≤ 6 := by cases c <;> decide

theorem ConstId.allows_iff {c : ConstId} {f : FieldSel} : c.allows f = true ↔ (f = .sf → c.cid ≤ 2) := by
  cases f <;> cases c <;> decide

theorem ConstId.exists_cid {n : Nat} (h : n ≤ 6) : ∃ c : ConstId, c.cid = n := by
  interval_cases n
  exacts [⟨.zero, rfl⟩, ⟨.one, rfl⟩, ⟨.nonres, rfl⟩, ⟨.curveA, rfl⟩, ⟨.curveD, rfl⟩, ⟨.subOrder, rfl⟩,
    ⟨.cofactor, rfl⟩]

theorem PointConstId.cid_le (c : PointConstId) : c.cid ≤ 2 := by cases c <;> decide

theorem PointConstId.exists_cid {n : Nat} (h : n ≤ 2) : ∃ c : PointConstId, c.cid = n := by
  interval_cases n
  exacts [⟨.neutral, rfl⟩, ⟨.gen, rfl⟩, ⟨.base, rfl⟩]

theorem constOfCid_allows_iff {n : Nat} {f : FieldSel} :
    (∃ cid, constOfCid n = some cid ∧ cid.allows f = true) ↔ n ≤ 6 ∧ (f = .sf → n ≤ 2) := by
  constructor
  · rintro ⟨cid, hcid, hallows⟩
    obtain rfl := constOfCid_eq_some hcid
    exact ⟨ConstId.cid_le cid, ConstId.allows_iff.1 hallows⟩
  · rintro ⟨hn, hf⟩
    obtain ⟨cid, rfl⟩ := ConstId.exists_cid hn
    exact ⟨cid, constOfCid_cid cid, ConstId.allows_iff.2 hf⟩

theorem pointConstOfCid_isSome_iff {n : Nat} : (∃ cid, pointConstOfCid n = some cid) ↔ n ≤ 2 := by
  constructor
  · rintro ⟨cid, hcid⟩
    obtain rfl := pointConstOfCid_eq_some hcid
    exact PointConstId.cid_le cid
  · intro hn
    obtain ⟨cid, rfl⟩ := PointConstId.exists_cid hn
    exact ⟨cid, pointConstOfCid_cid cid⟩

/-- Under a row of the list the `CID` check is exactly what the format needs to make a command. -/
theorem build_iff_cidOk {w : Word} {fmt : WordFormat} (hr : (opOf w, fmt) ∈ formatTable) :
    (∃ i, fmt.build w = some i) ↔ cidOk w := by
  obtain ⟨hldc, hpldc⟩ := formatTable_cid_rows _ hr
  rw [cidOk_iff]
  cases fmt with
  | ldc =>
    have hop : opOf w = 0x06 := hldc.2 rfl
    simp only [hop, WordFormat.build, ← constOfCid_allows_iff]
    simp [Option.bind_eq_some_iff, exists_comm (α := Instr)]
  | pldc =>
    have hop : opOf w = 0x07 := hpldc.2 rfl
    simp [hop, WordFormat.build, ← pointConstOfCid_isSome_iff]
  | _ =>
    have h6 : opOf w ≠ 0x06 := fun h => nomatch hldc.1 h
    have h7 : opOf w ≠ 0x07 := fun h => nomatch hpldc.1 h
    simp [h6, h7, WordFormat.build]

/-- Settles O4: each side asks for a row whose must-be-zero fields are 0, and there the `CID` check is
what the row needs to make a command. -/
theorem decodeAgreesWithOpcodeTable : Obligations.DecodeAgreesWithOpcodeTable := by
  unfold Obligations.DecodeAgreesWithOpcodeTable
  intro w
  rw [LegalWord, selects_row_iff]
  simp only [decode_eq_ok_iff_format, WordFormat.decode_eq_ok_iff]
  constructor
  · rintro ⟨i, hrsv, fmt, hr, hzero, hbuild⟩
    exact ⟨⟨hrsv, fmt, hr, hzero⟩, (build_iff_cidOk hr).1 ⟨i, hbuild⟩⟩
  · rintro ⟨⟨hrsv, fmt, hr, hzero⟩, hcid⟩
    obtain ⟨i, hbuild⟩ := (build_iff_cidOk hr).2 hcid
    exact ⟨i, hrsv, fmt, hr, hzero, hbuild⟩

end Sys2Proof.Machine
end

section
/-! PROOF. The engine step (30_encoding.md R84): whose turn a step is, the illegal word, and what every
command ends with. -/

namespace Sys2Proof.Machine

/-! ### Whose turn it is, and what the engine does (R84, 20_memory.md R67) -/

theorem step_of_engineTurn {s : State} (h : EngineTurn s) : step s = engineStep s := by
  obtain ⟨hb, hi | ⟨a, rest, hi, ha⟩⟩ := h
  · simp [step, hi, hb]
  · simp [step, hi, hb, ha]

theorem step_of_hostTurn {s : State} {a : Arrival} {rest : List Arrival} (hi : s.inbox = a :: rest)
    (h : s.busy = false ∨ a.early = true) :
    step s = .next (hostAct { s with inbox := rest } a.act) := by
  rcases h with h | h <;> simp [step, hi, h]

theorem step_idle {s : State} (hi : s.inbox = []) (hb : s.busy = false) : step s = .next s := by
  simp [step, hi, hb]

theorem engineStep_of_decode_ok {s : State} {i : Instr} (h : decode s.cmd = .ok i) :
    engineStep s = exec i s := by
  simp [engineStep, h]

theorem engineStep_of_not_legal {s : State} (h : ¬ LegalWord s.cmd) :
    engineStep s = .next (raiseError .illegal s) := by
  cases hd : decode s.cmd with
  | error e => simp [engineStep, hd]
  | ok i => exact absurd ((decodeAgreesWithOpcodeTable s.cmd).1 ⟨i, hd⟩) h

/-- Settles O5: a word that is not legal does not decode, and the error entry touches nothing else. -/
theorem illegalWordRaisesIllegal : Obligations.IllegalWordRaisesIllegal := by
  unfold Obligations.IllegalWordRaisesIllegal
  intro s hturn hillegal
  exact ⟨raiseError .illegal s, (step_of_engineTurn hturn).trans (engineStep_of_not_legal hillegal),
    raiseError_raised .illegal s⟩

/-- Settles O6: the three turns. -/
theorem stepRunsDecodedCommand : Obligations.StepRunsDecodedCommand := by
  unfold Obligations.StepRunsDecodedCommand
  intro s
  exact ⟨fun i hturn hd => (step_of_engineTurn hturn).trans (engineStep_of_decode_ok hd),
    fun a rest hi h => step_of_hostTurn hi h, step_idle⟩

/-! ### The end of a command (R84 step 7, 60_exceptions.md R221) -/

/-- R84 step 7: a commit that answers has completed, with the error latch as it was. -/
theorem commit_completes {s t : State} {ef : Effect} (h : commit s ef = .next t) :
    Completes s t t.absent t.boolRes := by
  rcases commit_next s t ef h with ⟨-, rfl⟩ | ⟨_, _, -, -, rfl⟩ | ⟨_, _, -, -, -, rfl⟩ |
    ⟨_, _, -, rfl⟩ | ⟨_, -, rfl⟩ | ⟨-, rfl⟩ | ⟨-, rfl⟩ <;>
  exact ⟨⟨rfl, rfl, rfl, rfl⟩, rfl, rfl, rfl, rfl, rfl, rfl⟩

/-- Settles O7: `exec_next` names the errors, and both an error entry and a commit end the command. -/
theorem everyCommandCompletesOrRaises : Obligations.EveryCommandCompletesOrRaises := by
  unfold Obligations.EveryCommandCompletesOrRaises
  intro i s t h
  rcases exec_next h with ⟨e, he, rfl⟩ | ⟨ef, -, hc⟩
  · have hr := raiseError_raised e s
    exact ⟨hr.frame, hr.busy, hr.done, .inr ⟨e, he, hr⟩⟩
  · have hd := commit_completes hc
    exact ⟨hd.frame, hd.busy, hd.done, .inl ⟨hd.err, hd.errCode⟩⟩

end Sys2Proof.Machine
end

section
/-! PROOF. The field functions (40_field_arith.md R111 to R133) as arithmetic in `ZMod p`: a canonical value
is its class modulo `p`, so the inverse engine, the power scan and Tonelli-Shanks are followed there and
read back as naturals at the end. -/

namespace Sys2Proof.Machine

/-! ### The laws of R111 in `ZMod p` -/

section cast
variable (p a b : Nat)

@[simp] theorem natCast_fadd : (fadd p a b : ZMod p) = a + b := by simp [fadd]

@[simp] theorem natCast_fmul : (fmul p a b : ZMod p) = a * b := by simp [fmul]

@[simp] theorem natCast_fsqr : (fsqr p a : ZMod p) = a ^ 2 := by simp [fsqr, sq]

end cast

theorem natCast_fneg {p a : Nat} (ha : a ≤ p) : (fneg p a : ZMod p) = -a := by
  simp [fneg, Nat.cast_sub ha]

@[simp] theorem fmul_zero_right (p a : Nat) : fmul p a 0 = 0 := by simp [fmul]

/-- R110: a canonical value is determined by its class. -/
theorem natCast_inj_of_lt {p u v : Nat} (hu : u < p) (hv : v < p) : (u : ZMod p) = v ↔ u = v := by
  rw [ZMod.natCast_eq_natCast_iff', Nat.mod_eq_of_lt hu, Nat.mod_eq_of_lt hv]

theorem mod_eq_iff_natCast {p u v : Nat} (hv : v < p) : u % p = v ↔ (u : ZMod p) = v := by
  rw [ZMod.natCast_eq_natCast_iff', Nat.mod_eq_of_lt hv]

theorem natCast_eq_zero_of_lt {p u : Nat} (hu : u < p) : (u : ZMod p) = 0 ↔ u = 0 := by
  simpa using natCast_inj_of_lt hu (Nat.zero_lt_of_lt hu)

theorem natCast_eq_one_of_lt {p u : Nat} (hp : 1 < p) (hu : u < p) : (u : ZMod p) = 1 ↔ u = 1 := by
  simpa using natCast_inj_of_lt hu hp

theorem natCast_eq_neg_one_of_lt {p u : Nat} (hp : 0 < p) (hu : u < p) :
    (u : ZMod p) = -1 ↔ u = p - 1 := by
  have hcast : ((p - 1 : Nat) : ZMod p) = -1 := by simp [Nat.cast_sub (Nat.one_le_of_lt hp)]
  rw [← hcast, natCast_inj_of_lt hu (Nat.sub_lt hp one_pos)]

/-! ### The inverse engine (R117) -/

/-- One round of Euclid with a nonzero `r1` passes on the remainder. -/
theorem euclid_succ (fuel r0 r1 : Nat) (t0 t1 : Int) (h : r1 ≠ 0) :
    euclid (fuel + 1) r0 r1 t0 t1 = euclid fuel r1 (r0 % r1) t1 (t0 - (r0 / r1 : Nat) * t1) := by
  rw [euclid, if_neg h, Nat.mod_eq_sub_div_mul]

/-- R117: since the remainder falls, `r1 + 1` rounds end with the gcd. -/
theorem euclid_gcd (fuel r0 r1 : Nat) (t0 t1 : Int) (h : r1 < fuel) :
    (euclid fuel r0 r1 t0 t1).1 = r0.gcd r1 := by
  induction fuel generalizing r0 r1 t0 t1 with
  | zero => omega
  | succ fuel ih =>
    by_cases hr : r1 = 0
    · simp [euclid, hr]
    · have hlt : r0 % r1 < r1 := Nat.mod_lt _ (Nat.pos_of_ne_zero hr)
      rw [euclid_succ _ _ _ _ _ hr, ih _ _ _ _ (by omega), Nat.gcd_comm r1, ← Nat.gcd_rec, Nat.gcd_comm]

/-- R117: every coefficient times `a` is its remainder modulo `p`, and so is the last one. -/
theorem euclid_coefficient {p a : Nat} (fuel r0 r1 : Nat) (t0 t1 : Int) (h0 : (t0 * a : ZMod p) = r0)
    (h1 : (t1 * a : ZMod p) = r1) :
    ((euclid fuel r0 r1 t0 t1).2 * a : ZMod p) = (euclid fuel r0 r1 t0 t1).1 := by
  induction fuel generalizing r0 r1 t0 t1 with
  | zero => exact h0
  | succ fuel ih =>
    by_cases hr : r1 = 0
    · simpa [euclid, hr] using h0
    · rw [euclid_succ _ _ _ _ _ hr]
      refine ih _ _ _ _ h1 ?_
      have hdiv : (r0 : ZMod p) = r1 * (r0 / r1 : Nat) + (r0 % r1 : Nat) := by
        exact_mod_cast congrArg Nat.cast (Nat.div_add_mod r0 r1).symm
      rw [Int.cast_sub, Int.cast_mul, Int.cast_natCast]
      linear_combination h0 - ((r0 / r1 : Nat) : ZMod p) * h1 + hdiv

/-- R117: for a prime modulus the engine's value is an inverse of every nonzero canonical `a`. -/
theorem mul_invValue {p a : Nat} (hp : p.Prime) (ha : 0 < a) (hap : a < p) :
    (a * invValue p a : ZMod p) = 1 := by
  have hgcd : (euclid (a + 1) p a 0 1).1 = 1 := by
    rw [euclid_gcd _ _ _ _ _ (Nat.lt_succ_self a)]
    exact Nat.coprime_of_lt_prime ha.ne' hap hp
  have hcoeff := euclid_coefficient (p := p) (a := a) (a + 1) p a 0 1 (by simp) (by simp)
  have hval : (invValue p a : ZMod p) = (euclid (a + 1) p a 0 1).2 := by
    have hnonneg := Int.emod_nonneg (euclid (a + 1) p a 0 1).2 (Int.natCast_ne_zero.2 hp.ne_zero)
    rw [invValue, if_pos hgcd, ← Int.cast_natCast, Int.toNat_of_nonneg hnonneg, ZMod.intCast_mod]
  rw [hval, mul_comm, hcoeff, hgcd, Nat.cast_one]

theorem mul_invValue_mod {p a : Nat} (hp : p.Prime) (ha : 0 < a) (hap : a < p) :
    a * invValue p a % p = 1 := by
  rw [mod_eq_iff_natCast hp.one_lt]
  simpa using mul_invValue hp ha hap

/-- R120: the quotient times the divisor is the dividend. -/
theorem mul_fmul_invValue_mod {p a b : Nat} (hp : p.Prime) (ha : a < p) (hb : 0 < b) (hbp : b < p) :
    b * fmul p a (invValue p b) % p = a := by
  rw [mod_eq_iff_natCast ha, Nat.cast_mul, natCast_fmul]
  linear_combination (a : ZMod p) * mul_invValue hp hb hbp

theorem finv_of_pos {p a : Nat} (ha : 0 < a) : finv p a = .ok (invValue p a) := if_neg ha.ne'

theorem finvz_of_pos {p a : Nat} (ha : 0 < a) : finvz p a = invValue p a := if_neg ha.ne'

@[simp] theorem finv_zero (p : Nat) : finv p 0 = .error .divZero := rfl

@[simp] theorem finvz_zero (p : Nat) : finvz p 0 = 0 := rfl

/-- Settles O23: Euclid ends with gcd 1 and an inverse, and modulo `p` there is only one. -/
theorem inverseIsTheInverse : Obligations.InverseIsTheInverse := by
  unfold Obligations.InverseIsTheInverse
  intro p hp
  refine ⟨finv_zero p, finvz_zero p, fun a ha hap => ?_⟩
  refine ⟨invValue p a, finv_of_pos ha, finvz_of_pos ha, invValue_lt hp.pos a,
    mul_invValue_mod hp ha hap, fun u hu hau => ?_⟩
  have hau' : (a * u : ZMod p) = 1 := by simpa using (mod_eq_iff_natCast hp.one_lt).1 hau
  have hinv := mul_invValue hp ha hap
  rw [← natCast_inj_of_lt hu (invValue_lt hp.pos a)]
  linear_combination (invValue p a : ZMod p) * hau' - (u : ZMod p) * hinv

/-! ### The power scan (R122) -/

/-- The scan's invariant: before bit `i - 1` the accumulator is `b` to the bits already read. -/
theorem natCast_powScan {p : Nat} (b e i acc : Nat) (h : (acc : ZMod p) = b ^ (e / 2 ^ i)) :
    (powScan p b e i acc : ZMod p) = b ^ e := by
  induction i generalizing acc with
  | zero => simpa [powScan] using h
  | succ i ih =>
    refine ih _ ?_
    have hbits : e / 2 ^ i = 2 * (e / 2 ^ (i + 1)) + (e.testBit i).toNat := by
      rw [Nat.toNat_testBit, Nat.pow_succ, ← Nat.div_div_eq_div_mul, Nat.div_add_mod]
    rw [hbits, pow_add, pow_mul', ← h]
    cases e.testBit i <;> simp

theorem natCast_fpow (p b e : Nat) : (fpow p b e : ZMod p) = b ^ e :=
  natCast_powScan b e _ 1 (by simp [Nat.div_eq_of_lt (lt_two_pow_bitlen e)])

theorem fpow_eq {p : Nat} (hp : 1 < p) (b e : Nat) : fpow p b e = b ^ e % p := by
  rw [eq_comm, mod_eq_iff_natCast (fpow_lt hp b e), natCast_fpow, Nat.cast_pow]

/-- Settles O24, by the invariant of the scan. -/
theorem powerScanIsPower : Obligations.PowerScanIsPower := by
  unfold Obligations.PowerScanIsPower
  exact fun p b e hp => fpow_eq hp b e

/-! ### The Legendre symbol (R124) -/

theorem FieldOk.half_eq {f : FieldCfg} (h : FieldOk f) : (f.p - 1) / 2 = f.p / 2 := by
  have := h.prime.eq_two_or_odd
  have := h.odd
  omega

theorem natCast_fleg {f : FieldCfg} (h : FieldOk f) (x : Nat) : (fleg f.p x : ZMod f.p) = x ^ (f.p / 2) := by
  rw [fleg, natCast_fpow, h.half_eq]

section legendre
variable {f : FieldCfg} (h : FieldOk f) {x : Nat}
include h

theorem fleg_zero : fleg f.p 0 = 0 := by
  have hhalf : f.p / 2 ≠ 0 := by have := h.two_lt; omega
  rw [← natCast_eq_zero_of_lt (fleg_lt h.prime.one_lt 0), natCast_fleg h]
  simp [hhalf]

/-- R124: the symbol of a nonzero element is 1 or `p - 1`. -/
theorem fleg_of_ne_zero (hx : (x : ZMod f.p) ≠ 0) : fleg f.p x = 1 ∨ fleg f.p x = f.p - 1 := by
  have : Fact f.p.Prime := ⟨h.prime⟩
  have hlt := fleg_lt h.prime.one_lt x
  rw [← natCast_eq_one_of_lt h.prime.one_lt hlt, ← natCast_eq_neg_one_of_lt h.prime.pos hlt,
    natCast_fleg h]
  exact ZMod.pow_div_two_eq_neg_one_or_one f.p hx

/-- R124: the symbol is 0 for 0 only. -/
theorem fleg_eq_zero_iff (hxp : x < f.p) : fleg f.p x = 0 ↔ x = 0 := by
  have := h.two_lt
  refine ⟨fun h0 => ?_, fun hx => hx ▸ fleg_zero h⟩
  by_contra hx
  rcases fleg_of_ne_zero h (mt (natCast_eq_zero_of_lt hxp).1 hx) with he | he <;> omega

/-- R124: the three values of the symbol. -/
theorem fleg_values (hxp : x < f.p) : fleg f.p x = 0 ∨ fleg f.p x = 1 ∨ fleg f.p x = f.p - 1 := by
  by_cases hx : x = 0
  · exact .inl ((fleg_eq_zero_iff h hxp).2 hx)
  · exact .inr (fleg_of_ne_zero h (mt (natCast_eq_zero_of_lt hxp).1 hx))

/-- R124: Euler's criterion, the value 1. -/
theorem fleg_eq_one_iff (hx : (x : ZMod f.p) ≠ 0) : fleg f.p x = 1 ↔ IsSquare (x : ZMod f.p) := by
  have : Fact f.p.Prime := ⟨h.prime⟩
  rw [← natCast_eq_one_of_lt h.prime.one_lt (fleg_lt h.prime.one_lt x), natCast_fleg h,
    ZMod.euler_criterion f.p hx]

/-- R124: Euler's criterion, the value `p - 1`; 0 is a square. -/
theorem fleg_eq_neg_one_iff (hxp : x < f.p) : fleg f.p x = f.p - 1 ↔ ¬ IsSquare (x : ZMod f.p) := by
  have := h.two_lt
  by_cases hx : (x : ZMod f.p) = 0
  · obtain rfl := (natCast_eq_zero_of_lt hxp).1 hx
    have hsq : IsSquare ((0 : Nat) : ZMod f.p) := by simp
    rw [fleg_zero h]
    exact ⟨fun _ => by omega, fun hn => absurd hsq hn⟩
  · rw [← fleg_eq_one_iff h hx]
    rcases fleg_of_ne_zero h hx with he | he <;> omega

end legendre

/-! ### Tonelli-Shanks (R126) -/

theorem fpow_eq_one_iff {p : Nat} (hp : 1 < p) (b e : Nat) : fpow p b e = 1 ↔ (b : ZMod p) ^ e = 1 := by
  rw [← natCast_eq_one_of_lt hp (fpow_lt hp b e), natCast_fpow]

/-- R126: the search finds an `i` where the squarings of `t` reach 1; since `i` is the least one, the square
before is the other root of 1. -/
theorem leastOrder_eq_some {p t m : Nat} (hp : p.Prime) (ht : t < p) (ht1 : t ≠ 1)
    (hm : (t : ZMod p) ^ 2 ^ (m - 1) = 1) :
    ∃ i, leastOrder p t m = some i ∧ 1 ≤ i ∧ i < m ∧ (t : ZMod p) ^ 2 ^ (i - 1) = -1 := by
  have : Fact p.Prime := ⟨hp⟩
  have ht1' : (t : ZMod p) ≠ 1 := mt (natCast_eq_one_of_lt hp.one_lt ht).1 ht1
  have hm1 : m - 1 ≠ 0 := fun h0 => ht1' (by simpa [h0] using hm)
  cases hfind : leastOrder p t m with
  | none =>
    have hnone := List.find?_eq_none.1 hfind (m - 1) (by simp only [List.mem_range'_1]; omega)
    exact absurd hm (by simpa [fpow_eq_one_iff hp.one_lt] using hnone)
  | some i =>
    obtain ⟨hi, hmem, hleast⟩ := List.find?_range'_eq_some.1 hfind
    simp only [List.mem_range'_1] at hmem
    have hi' : (t : ZMod p) ^ 2 ^ i = 1 := (fpow_eq_one_iff hp.one_lt _ _).1 (by simpa using hi)
    have hne : (t : ZMod p) ^ 2 ^ (i - 1) ≠ 1 := by
      by_cases h1 : i = 1
      · simpa [h1] using ht1'
      · have hbefore := hleast (i - 1) (by omega) (by omega)
        exact mt (fpow_eq_one_iff hp.one_lt _ _).2 (by simpa using hbefore)
    have hsq : ((t : ZMod p) ^ 2 ^ (i - 1)) ^ 2 = 1 := by
      rw [← pow_mul, ← pow_succ, Nat.sub_add_cancel hmem.1, hi']
    exact ⟨i, rfl, hmem.1, by omega, (mul_self_eq_one_iff.1 (by rwa [← sq])).resolve_left hne⟩

/-- What the loop of R126 keeps, for a root of `x`: `r` is a root up to the factor `t`, the order of `t`
divides `2^(m-1)`, and that of `c` is `2^m`. -/
structure TonelliInv (p x m c t r : Nat) : Prop where
  one_le : 1 ≤ m
  t_lt : t < p
  root : (r : ZMod p) ^ 2 = t * x
  t_order : (t : ZMod p) ^ 2 ^ (m - 1) = 1
  c_order : (c : ZMod p) ^ 2 ^ (m - 1) = -1

theorem TonelliInv.t_ne_zero {p x m c t r : Nat} (hp : p.Prime) (h : TonelliInv p x m c t r) : t ≠ 0 := by
  have : Fact p.Prime := ⟨hp⟩
  rintro rfl
  simpa using h.t_order

/-- One round of the loop: the new `c` brings `t` from order `2^i` down to a divisor of `2^(i-1)`. -/
theorem TonelliInv.round {p x m c t r i b : Nat} (hp : 0 < p) (h : TonelliInv p x m c t r) (hi : 1 ≤ i)
    (him : i < m) (ht : (t : ZMod p) ^ 2 ^ (i - 1) = -1) (hb : (b : ZMod p) = c ^ 2 ^ (m - i - 1)) :
    TonelliInv p x i (fsqr p b) (fmul p t (fsqr p b)) (fmul p r b) := by
  have hexp : 2 ^ (m - i - 1) * (2 * 2 ^ (i - 1)) = 2 ^ (m - 1) := by
    rw [← pow_succ', ← pow_add]
    congr 1
    omega
  have hc : (fsqr p b : ZMod p) ^ 2 ^ (i - 1) = -1 := by
    rw [natCast_fsqr, hb, ← pow_mul, ← pow_mul, hexp, h.c_order]
  refine ⟨hi, fmul_lt hp _ _, ?_, ?_, hc⟩
  · simp only [natCast_fmul, natCast_fsqr]
    linear_combination (b : ZMod p) ^ 2 * h.root
  · rw [natCast_fmul, mul_pow, ht, hc]
    ring

/-- R126, R127: from the invariant the loop ends with a root, since `m` falls and the search always finds. -/
theorem TonelliInv.loop {p x fuel m c t r : Nat} (hp : p.Prime) (h : TonelliInv p x m c t r)
    (hfuel : m < fuel) : ∃ v, tonelliLoop p fuel m c t r = .ok v ∧ (v : ZMod p) ^ 2 = x := by
  induction fuel generalizing m c t r with
  | zero => omega
  | succ fuel ih =>
    rw [tonelliLoop, if_neg (h.t_ne_zero hp)]
    by_cases ht1 : t = 1
    · exact ⟨r, if_pos ht1, by simpa [ht1] using h.root⟩
    · obtain ⟨i, hfind, hi, him, hti⟩ := leastOrder_eq_some hp h.t_lt ht1 h.t_order
      rw [if_neg ht1, hfind]
      exact ih (h.round hp.pos hi him hti (natCast_fpow p c _)) (by omega)

namespace FieldOk
variable {f : FieldCfg} (h : FieldOk f)
include h

theorem two_pow_mul_cof : 2 ^ f.k * f.cof = f.p - 1 := Nat.mul_div_cancel' h.dvd

/-- Clause 2 of R7: `k` is the exact 2-adicity, so the cofactor is odd. -/
theorem cof_odd : Odd f.cof := by
  rw [← Nat.not_even_iff_odd, even_iff_two_dvd]
  rintro ⟨n, hn⟩
  exact h.exact ⟨n, by rw [← h.two_pow_mul_cof, hn]; ring⟩

theorem half_eq_cof_mul : f.p / 2 = f.cof * 2 ^ (f.k - 1) := by
  have hk : 2 ^ f.k = 2 * 2 ^ (f.k - 1) := (mul_pow_sub_one (Nat.ne_zero_of_lt h.one_le_k) 2).symm
  rw [← h.half_eq, ← h.two_pow_mul_cof, hk, Nat.mul_assoc, Nat.mul_div_cancel_left _ two_pos, Nat.mul_comm]

/-- Clause 3 of R7 in `ZMod p`. -/
theorem nr_pow_half : (f.nr : ZMod f.p) ^ (f.p / 2) = -1 := by
  have hlt : f.p - 1 < f.p := Nat.sub_lt h.prime.pos one_pos
  rw [← h.half_eq, ← Nat.cast_pow, (mod_eq_iff_natCast hlt).1 h.nonresidue,
    natCast_eq_neg_one_of_lt h.prime.pos hlt]

/-- The loop of R126 starts inside its invariant when `x` is a nonzero square. -/
theorem tonelliInv {x : Nat} (hx : (x : ZMod f.p) ^ (f.p / 2) = 1) :
    TonelliInv f.p x f.k (fpow f.p f.nr f.cof) (fpow f.p x f.cof) (fpow f.p x ((f.cof + 1) / 2)) where
  one_le := h.one_le_k
  t_lt := fpow_lt h.prime.one_lt _ _
  root := by
    have hodd : (f.cof + 1) / 2 * 2 = f.cof + 1 := Nat.div_mul_cancel h.cof_odd.add_one.two_dvd
    rw [natCast_fpow, natCast_fpow, ← pow_mul, hodd, pow_succ]
  t_order := by rw [natCast_fpow, ← pow_mul, ← h.half_eq_cof_mul, hx]
  c_order := by rw [natCast_fpow, ← pow_mul, ← h.half_eq_cof_mul, h.nr_pow_half]

end FieldOk

/-! ### The square root (R125, R127, R128) -/

theorem mul_self_mod_eq_iff {p x : Nat} (hx : x < p) (y : Nat) : y * y % p = x ↔ (y : ZMod p) ^ 2 = x := by
  rw [mod_eq_iff_natCast hx, Nat.cast_mul, sq]

theorem fsqrt_lt {f : FieldCfg} (hp : 1 < f.p) {x v : Nat} (hv : fsqrt f x = .ok (some v)) : v < f.p := by
  rcases fsqrt_cases hp x with ⟨w, hw, hlt⟩ | habsent | herror
  · obtain rfl : v = w := by simpa [hv] using hw
    exact hlt
  · simp [hv] at habsent
  · simp [hv] at herror

section sqrt
variable {f : FieldCfg} (h : FieldOk f) {x : Nat} (hxp : x < f.p)
include h

theorem tonelliShanks_eq_ok (hx : (x : ZMod f.p) ≠ 0) (hsq : IsSquare (x : ZMod f.p)) :
    ∃ v, tonelliShanks f x = .ok v ∧ (v : ZMod f.p) ^ 2 = x := by
  have : Fact f.p.Prime := ⟨h.prime⟩
  exact (h.tonelliInv ((ZMod.euler_criterion f.p hx).1 hsq)).loop h.prime (Nat.lt_succ_self f.k)

theorem fsqrt_zero : fsqrt f 0 = .ok (some 0) := if_pos (fleg_zero h)

include hxp

theorem fsqrt_of_isSquare (hsq : IsSquare (x : ZMod f.p)) :
    ∃ v, fsqrt f x = .ok (some v) ∧ v < f.p ∧ (v : ZMod f.p) ^ 2 = x := by
  by_cases hx : (x : ZMod f.p) = 0
  · obtain rfl := (natCast_eq_zero_of_lt hxp).1 hx
    exact ⟨0, fsqrt_zero h, hxp, by simp⟩
  · obtain ⟨v, hv, hroot⟩ := tonelliShanks_eq_ok h hx hsq
    have hne : 1 ≠ f.p - 1 := by have := h.two_lt; omega
    have hfsqrt : fsqrt f x = .ok (some v) := by
      simp [fsqrt, (fleg_eq_one_iff h hx).2 hsq, hne, hv, Except.map]
    exact ⟨v, hfsqrt, fsqrt_lt h.prime.one_lt hfsqrt, hroot⟩

theorem fsqrt_of_not_isSquare (hsq : ¬ IsSquare (x : ZMod f.p)) : fsqrt f x = .ok none := by
  have hne : f.p - 1 ≠ 0 := by have := h.two_lt; omega
  simp [fsqrt, (fleg_eq_neg_one_iff h hxp).2 hsq, hne]

theorem isSquare_natCast_iff : IsSquare (x : ZMod f.p) ↔ ∃ y, y * y % f.p = x := by
  have : NeZero f.p := ⟨h.prime.ne_zero⟩
  rw [isSquare_iff_exists_sq]
  constructor
  · rintro ⟨z, hz⟩
    exact ⟨z.val, (mul_self_mod_eq_iff hxp _).2 (by simpa using hz.symm)⟩
  · rintro ⟨y, hy⟩
    exact ⟨y, ((mul_self_mod_eq_iff hxp y).1 hy).symm⟩

end sqrt

/-- Settles O25: Euler's criterion decides, and on a square Tonelli-Shanks keeps its invariant to a root. -/
theorem squareRootIsCorrect : Obligations.SquareRootIsCorrect := by
  unfold Obligations.SquareRootIsCorrect
  intro f x h hxp
  refine ⟨fun hroot => ?_, fun hnone => ?_⟩
  · have hsq := (isSquare_natCast_iff h hxp).2 hroot
    obtain ⟨v, hv, hlt, hvx⟩ := fsqrt_of_isSquare h hxp hsq
    exact ⟨fun he => (fleg_eq_neg_one_iff h hxp).1 he hsq, v, hv, hlt, (mul_self_mod_eq_iff hxp v).2 hvx⟩
  · have hsq : ¬ IsSquare (x : ZMod f.p) := by
      rw [isSquare_natCast_iff h hxp]
      exact not_exists.2 hnone
    exact ⟨(fleg_eq_neg_one_iff h hxp).2 hsq, fsqrt_of_not_isSquare h hxp hsq⟩

/-! ### The testable properties (R133) -/

theorem fadd_fadd_fneg {p a b : Nat} (ha : a < p) (hb : b < p) : fadd p (fadd p a b) (fneg p b) = a := by
  rw [← natCast_inj_of_lt (fadd_lt (Nat.zero_lt_of_lt ha) _ _) ha, natCast_fadd, natCast_fadd,
    natCast_fneg hb.le]
  ring

/-- R133: `a` squared has the roots `a` and its negation only. -/
theorem fsqrt_fsqr {f : FieldCfg} (h : FieldOk f) {a : Nat} (ha : a < f.p) :
    fsqrt f (fsqr f.p a) = .ok (some a) ∨ fsqrt f (fsqr f.p a) = .ok (some (fneg f.p a)) := by
  have : Fact f.p.Prime := ⟨h.prime⟩
  have hsq : IsSquare (fsqr f.p a : ZMod f.p) := ⟨a, by rw [natCast_fsqr, sq]⟩
  obtain ⟨v, hv, hlt, hva⟩ := fsqrt_of_isSquare h (fsqr_lt h.prime.pos a) hsq
  rw [natCast_fsqr] at hva
  rw [hv]
  rcases sq_eq_sq_iff_eq_or_eq_neg.1 hva with he | he
  · obtain rfl := (natCast_inj_of_lt hlt ha).1 he
    exact .inl rfl
  · rw [← natCast_fneg ha.le, natCast_inj_of_lt hlt (fneg_lt h.prime.pos a)] at he
    exact .inr (by rw [he])

theorem fsqrt_eq_none_iff {f : FieldCfg} (h : FieldOk f) {a : Nat} (ha : a < f.p) :
    fsqrt f a = .ok none ↔ fleg f.p a = f.p - 1 := by
  rw [fleg_eq_neg_one_iff h ha]
  refine ⟨fun hnone hsq => ?_, fsqrt_of_not_isSquare h ha⟩
  obtain ⟨v, hv, -⟩ := fsqrt_of_isSquare h ha hsq
  simp [hnone] at hv

/-- Settles O26, clause by clause. -/
theorem fieldProperties : Obligations.FieldProperties := by
  unfold Obligations.FieldProperties
  intro f h a ha
  refine ⟨fun b hb => ⟨fadd_lt h.prime.pos a b, fadd_fadd_fneg ha hb⟩, fun ha0 => ?_, finvz_zero f.p,
    fmul_zero_right f.p a, fsqrt_fsqr h ha, fsqrt_eq_none_iff h ha⟩
  have hpos := Nat.pos_of_ne_zero ha0
  exact ⟨invValue f.p a, finv_of_pos hpos, mul_invValue_mod h.prime hpos ha⟩

end Sys2Proof.Machine
end

section
/-! PROOF. The prime-field arithmetic commands (40_field_arith.md R112 to R132). A command with canonical
operands ends in the commit of one value, which is canonical and so fits its register under `CfgOK`; the
decoding clauses are the round trip of 30_encoding.md R80. -/

namespace Sys2Proof.Machine

/-! ### The completion of a command, by the operands that it reads (R110, R129) -/

section writes
variable {s : State} (hc : CfgOk s.cfg) {f : FieldSel} {rd ra rb n : Idx} {v : Nat}
include hc

/-- A canonical value is written. -/
theorem conclude_reg_writes (hv : v < s.modulus f) :
    ∃ t, conclude s (.ok (.reg rd v)) = .next t ∧ WritesReg s t rd v :=
  commit_reg_writes s rd v (hc.fits f hv)

/-- A command of one element whose answer is the canonical `v` writes it. -/
theorem conclude_elem_writes (hv : v < s.modulus f) {k : Nat → Except ErrKind Effect}
    (ha : s.reg ra < s.modulus f) (hk : k (s.reg ra) = .ok (.reg rd v)) :
    ∃ t, conclude s (elem s f ra >>= k) = .next t ∧ WritesReg s t rd v := by
  rw [conclude_elem_of_lt s f ra k ha, hk]
  exact conclude_reg_writes hc hv

/-- A command of two elements whose answer is the canonical `v` writes it. -/
theorem conclude_elems_writes (hv : v < s.modulus f) {k : Nat → Nat → Except ErrKind Effect}
    (hab : s.reg ra < s.modulus f ∧ s.reg rb < s.modulus f)
    (hk : k (s.reg ra) (s.reg rb) = .ok (.reg rd v)) :
    ∃ t, conclude s (elem s f ra >>= fun a => elem s f rb >>= k a) = .next t ∧ WritesReg s t rd v := by
  rw [conclude_elems_of_lt s f ra rb k hab, hk]
  exact conclude_reg_writes hc hv

/-- A command of one run whose answer is the canonical `v` writes it. -/
theorem conclude_run_writes (hv : v < s.modulus f) {k : List Nat → Except ErrKind Effect}
    (hn : ra.val + n.val ≤ 16) (hrun : RunCanonical s f ra n) (hk : k (rawRun s ra n) = .ok (.reg rd v)) :
    ∃ t, conclude s (needRun ra n >>= fun _ => elemRun s f ra n >>= k) = .next t ∧ WritesReg s t rd v := by
  rw [needRun_of_le ra n hn, bind_ok, elemRun_of_canonical s f ra n hrun, bind_ok, hk]
  exact conclude_reg_writes hc hv

end writes

section raises
variable (s : State) (f : FieldSel) (ra rb n : Idx)

/-- A command of two elements that raises after its reads raises that error. -/
theorem conclude_elems_raises {k : Nat → Nat → Except ErrKind Effect} {e : ErrKind}
    (hab : s.reg ra < s.modulus f ∧ s.reg rb < s.modulus f) (hk : k (s.reg ra) (s.reg rb) = .error e) :
    ∃ t, conclude s (elem s f ra >>= fun a => elem s f rb >>= k a) = .next t ∧ Raised s t e := by
  rw [conclude_elems_of_lt s f ra rb k hab, hk]
  exact conclude_error_raised s e

theorem conclude_elem_raises {k : Nat → Except ErrKind Effect} {e : ErrKind}
    (ha : s.reg ra < s.modulus f) (hk : k (s.reg ra) = .error e) :
    ∃ t, conclude s (elem s f ra >>= k) = .next t ∧ Raised s t e := by
  rw [conclude_elem_of_lt s f ra k ha, hk]
  exact conclude_error_raised s e

theorem conclude_run_bounds (k : List Nat → Except ErrKind Effect) (hn : ¬ ra.val + n.val ≤ 16) :
    ∃ t, conclude s (needRun ra n >>= fun _ => elemRun s f ra n >>= k) = .next t ∧ Raised s t .bounds := by
  rw [needRun_of_gt ra n hn, bind_error]
  exact conclude_error_raised s .bounds

theorem conclude_run_range (k : List Nat → Except ErrKind Effect) (hn : ra.val + n.val ≤ 16)
    (hrun : ¬ RunCanonical s f ra n) :
    ∃ t, conclude s (needRun ra n >>= fun _ => elemRun s f ra n >>= k) = .next t ∧ Raised s t .range := by
  rw [needRun_of_le ra n hn, bind_ok, elemRun_of_not s f ra n hrun, bind_error]
  exact conclude_error_raised s .range

end raises

/-! ### The adder and the multiplier (R112 to R116) -/

/-- Settles O37: the adder's one correction is the reduction of the sum. -/
theorem faddAddsModP : Obligations.FaddAddsModP := by
  unfold Obligations.FaddAddsModP
  intro f rd ra rb s
  refine ⟨decodeOfEncode (.fadd f rd ra rb) rfl, fun hc hab => ?_, conclude_elems_of_ge s f ra rb _⟩
  rw [← addOnce_eq hab.1 hab.2]
  exact conclude_elems_writes hc (addOnce_lt hab.1 hab.2) hab rfl

/-- Settles O38: the subtractor's one correction is the non-negative remainder. -/
theorem fsubSubtractsModP : Obligations.FsubSubtractsModP := by
  unfold Obligations.FsubSubtractsModP
  intro f rd ra rb s
  refine ⟨decodeOfEncode (.fsub f rd ra rb) rfl, fun hc hab => ?_, conclude_elems_of_ge s f ra rb _⟩
  rw [← subOnce_eq hab.1 hab.2]
  exact conclude_elems_writes hc (subOnce_lt hab.1 hab.2) hab rfl

/-- Settles O39: the negation keeps 0 and reduces nothing else. -/
theorem fnegNegatesModP : Obligations.FnegNegatesModP := by
  unfold Obligations.FnegNegatesModP
  intro f rd ra s
  refine ⟨decodeOfEncode (.fneg f rd ra) rfl, fun hc ha => ?_, conclude_elem_of_ge s f ra _⟩
  rw [← negOnce_eq ha]
  exact conclude_elem_writes hc (negOnce_lt ha) ha rfl

/-- Settles O40: both commands commit the reduced product of what they read. -/
theorem fmulAndFsqrMultiplyModP : Obligations.FmulAndFsqrMultiplyModP := by
  unfold Obligations.FmulAndFsqrMultiplyModP
  intro f rd ra rb s
  exact ⟨decodeOfEncode (.fmul f rd ra rb) rfl, decodeOfEncode (.fsqr f rd ra) rfl,
    fun hc hab => conclude_elems_writes hc (fmul_lt (hc.modulus_pos f) _ _) hab rfl,
    conclude_elems_of_ge s f ra rb _,
    fun hc ha => conclude_elem_writes hc (fsqr_lt (hc.modulus_pos f) _) ha rfl,
    conclude_elem_of_ge s f ra _⟩

/-! ### Inverse and division (R118 to R121) -/

/-- Settles O41: away from 0 the two commands commit one inverse, and only on 0 do they part. -/
theorem finvAndFinvzInvert : Obligations.FinvAndFinvzInvert := by
  unfold Obligations.FinvAndFinvzInvert
  intro f rd ra s
  refine ⟨decodeOfEncode (.finv f rd ra) rfl, decodeOfEncode (.finvz f rd ra) rfl, fun hc ha => ?_,
    fun hc h0 => ?_, fun ha => ⟨conclude_elem_of_ge s f ra _ ha, conclude_elem_of_ge s f ra _ ha⟩⟩
  · have hlt : invValue (s.modulus f) (s.reg ra) < s.modulus f := invValue_lt (hc.modulus_pos f) _
    refine ⟨_, hlt, mul_invValue_mod (hc.fieldOk f).prime ha.1 ha.2, ?finv, ?finvz⟩
    case finv => exact conclude_elem_writes hc hlt ha.2 (by rw [finv_of_pos ha.1]; rfl)
    case finvz => exact conclude_elem_writes hc hlt ha.2 (by rw [finvz_of_pos ha.1]; rfl)
  · have hpos := hc.modulus_pos f
    have ha : s.reg ra < s.modulus f := h0 ▸ hpos
    exact ⟨conclude_elem_raises s f ra ha (by rw [h0]; rfl),
      conclude_elem_writes hc hpos ha (by rw [h0]; rfl)⟩

/-- Settles O42: as for the inverse, with the quotient `a * b⁻¹`. -/
theorem fdivAndFdivzDivide : Obligations.FdivAndFdivzDivide := by
  unfold Obligations.FdivAndFdivzDivide
  intro f rd ra rb s
  refine ⟨decodeOfEncode (.fdiv f rd ra rb) rfl, decodeOfEncode (.fdivz f rd ra rb) rfl, fun hc hab => ?_,
    fun hc h0 => ?_,
    fun hab => ⟨conclude_elems_of_ge s f ra rb _ hab, conclude_elems_of_ge s f ra rb _ hab⟩⟩
  · obtain ⟨ha, hb0, hb⟩ := hab
    have hlt := fmul_lt (hc.modulus_pos f) (s.reg ra) (invValue (s.modulus f) (s.reg rb))
    refine ⟨_, hlt, mul_fmul_invValue_mod (hc.fieldOk f).prime ha hb0 hb, ?fdiv, ?fdivz⟩
    case fdiv => exact conclude_elems_writes hc hlt ⟨ha, hb⟩ (by rw [finv_of_pos hb0]; rfl)
    case fdivz => exact conclude_elems_writes hc hlt ⟨ha, hb⟩ (by rw [finvz_of_pos hb0]; rfl)
  · obtain ⟨ha, h0⟩ := h0
    have hpos := hc.modulus_pos f
    have hb : s.reg rb < s.modulus f := h0 ▸ hpos
    exact ⟨conclude_elems_raises s f ra rb ⟨ha, hb⟩ (by rw [h0]; rfl),
      conclude_elems_writes hc hpos ⟨ha, hb⟩ (by rw [h0, finvz_zero, fmul_zero_right]; rfl)⟩

/-! ### Power, Legendre symbol and square root (R123 to R128) -/

/-- Settles O43: the scan is the power, and Euler's criterion bounds the symbol to its three values. -/
theorem fpowAndFlegRaisePowers : Obligations.FpowAndFlegRaisePowers := by
  unfold Obligations.FpowAndFlegRaisePowers
  intro f rd ra rb s
  refine ⟨decodeOfEncode (.fpow f rd ra rb) rfl, decodeOfEncode (.fleg f rd ra) rfl, fun hc ha => ?_,
    fun ha => ⟨conclude_elem_of_ge s f ra _ ha, conclude_elem_of_ge s f ra _ ha⟩⟩
  have hp := hc.one_lt_modulus f
  refine ⟨?fpow, ?fleg⟩
  case fpow =>
    rw [← fpow_eq hp]
    exact conclude_elem_writes hc (fpow_lt hp _ _) ha rfl
  case fleg =>
    have hf := hc.fieldOk f
    have hwrites : ∃ t, exec (.fleg f rd ra) s = .next t ∧
        WritesReg s t rd (fleg (s.modulus f) (s.reg ra)) :=
      conclude_elem_writes hc (fleg_lt hp _) ha rfl
    obtain ⟨t, ht, hw⟩ := hwrites
    exact ⟨t, _, ht, hw, fpow_eq hp _ _, fleg_values hf ha, fleg_eq_zero_iff hf ha⟩

/-- Settles O44: each answer of `fsqrt_f` has its own end of the command. -/
theorem fsqrtCommitsRootOrAbsent : Obligations.FsqrtCommitsRootOrAbsent := by
  unfold Obligations.FsqrtCommitsRootOrAbsent
  intro f rd ra s
  refine ⟨decodeOfEncode (.fsqrt f rd ra) rfl, fun v hc ha hv => ?root, fun hc h0 => ?zero,
    fun ha habsent => ?absent, fun e ha he => ?error, conclude_elem_of_ge s f ra _⟩
  case root =>
    exact conclude_elem_writes hc (fsqrt_lt (hc.one_lt_modulus f) hv) ha (by rw [hv]; rfl)
  case zero =>
    have hpos := hc.modulus_pos f
    exact conclude_elem_writes hc hpos (h0 ▸ hpos) (by rw [h0, fsqrt_zero (hc.fieldOk f)]; rfl)
  case absent =>
    obtain ⟨t, ht, hends⟩ := commit_absent_ends s
    refine ⟨t, (conclude_elem_of_lt s f ra _ ha).trans ?_, hends⟩
    rw [habsent]
    exact ht
  case error =>
    obtain rfl := fsqrt_error he
    exact ⟨rfl, conclude_elem_raises s f ra ha (by rw [he]; rfl)⟩

/-! ### Reductions of register runs (R129 to R132) -/

section runs
variable (s : State) (ra rb n : Idx)

theorem sum_rawRun : (rawRun s ra n).sum = ∑ j ∈ Finset.range n.val, s.reg (ra.val + j) := by
  rw [← List.toFinset_range, List.sum_toFinset _ List.nodup_range, rawRun]

theorem prod_rawRun : (rawRun s ra n).prod = ∏ j ∈ Finset.range n.val, s.reg (ra.val + j) := by
  rw [← List.toFinset_range, List.prod_toFinset _ List.nodup_range, rawRun]

theorem fdot_rawRun {p : Nat} (hp : 0 < p) : fdot p (rawRun s ra n) (rawRun s rb n) =
    (∑ j ∈ Finset.range n.val, s.reg (ra.val + j) * s.reg (rb.val + j)) % p := by
  rw [fdot_eq hp, ← List.toFinset_range, List.sum_toFinset _ List.nodup_range, rawRun, rawRun,
    List.zip_map', List.map_map]
  rfl

end runs

/-- Settles O45: the folds are the reduced sum and product of the run. -/
theorem fsumAndFprodFoldRuns : Obligations.FsumAndFprodFoldRuns := by
  unfold Obligations.FsumAndFprodFoldRuns
  intro f rd ra n s
  refine ⟨decodeOfEncode (.fsum f rd ra n) rfl, decodeOfEncode (.fprod f rd ra n) rfl,
    fun hc hn hrun => ⟨?fsum, ?fprod⟩,
    fun hn hrun => ⟨conclude_run_range s f ra n _ hn hrun, conclude_run_range s f ra n _ hn hrun⟩,
    fun hn => ⟨conclude_run_bounds s f ra n _ hn, conclude_run_bounds s f ra n _ hn⟩⟩
  case fsum =>
    have hp := hc.modulus_pos f
    rw [← sum_rawRun, ← fsum_eq hp]
    exact conclude_run_writes hc (fsum_lt hp _) hn hrun rfl
  case fprod =>
    have hp := hc.one_lt_modulus f
    rw [← prod_rawRun, ← fprod_eq hp]
    exact conclude_run_writes hc (fprod_lt hp _) hn hrun rfl

/-- R132: past the length and bounds checks `FDOT` reads both runs. -/
theorem exec_fdot_of_le {s : State} {f : FieldSel} {rd ra rb n : Idx}
    (hn : ra.val + n.val ≤ 16 ∧ rb.val + n.val ≤ 16) :
    exec (.fdot f rd ra n rb n) s = conclude s (elemRun s f ra n >>= fun u => elemRun s f rb n >>= fun v =>
      .ok (.reg rd (fdot (s.modulus f) u v))) := by
  obtain ⟨ha, hb⟩ := hn
  rw [exec, execFdot, needSameLength_self, bind_ok, needRun_of_le ra n ha, bind_ok, needRun_of_le rb n hb,
    bind_ok]
  rfl

/-- R132: the length is checked first. -/
theorem exec_fdot_raises_length {s : State} {f : FieldSel} {rd ra rb na nb : Idx} (hne : na ≠ nb) :
    ∃ t, exec (.fdot f rd ra na rb nb) s = .next t ∧ Raised s t .length := by
  rw [exec, execFdot, needSameLength_of_ne na nb hne, bind_error]
  exact conclude_error_raised s .length

/-- R132: then the bounds of either run. -/
theorem exec_fdot_raises_bounds {s : State} {f : FieldSel} {rd ra rb n : Idx}
    (hn : ¬ (ra.val + n.val ≤ 16 ∧ rb.val + n.val ≤ 16)) :
    ∃ t, exec (.fdot f rd ra n rb n) s = .next t ∧ Raised s t .bounds := by
  rw [exec, execFdot, needSameLength_self, bind_ok]
  by_cases ha : ra.val + n.val ≤ 16
  · have hb : ¬ rb.val + n.val ≤ 16 := fun hb => hn ⟨ha, hb⟩
    rw [needRun_of_le ra n ha, bind_ok, needRun_of_gt rb n hb, bind_error]
    exact conclude_error_raised s .bounds
  · rw [needRun_of_gt ra n ha, bind_error]
    exact conclude_error_raised s .bounds

/-- R132: then the range of either run. -/
theorem exec_fdot_raises_range {s : State} {f : FieldSel} {rd ra rb n : Idx}
    (hn : ra.val + n.val ≤ 16 ∧ rb.val + n.val ≤ 16)
    (hrun : ¬ (RunCanonical s f ra n ∧ RunCanonical s f rb n)) :
    ∃ t, exec (.fdot f rd ra n rb n) s = .next t ∧ Raised s t .range := by
  rw [exec_fdot_of_le hn]
  by_cases ha : RunCanonical s f ra n
  · have hb : ¬ RunCanonical s f rb n := fun hb => hrun ⟨ha, hb⟩
    rw [elemRun_of_canonical s f ra n ha, bind_ok, elemRun_of_not s f rb n hb, bind_error]
    exact conclude_error_raised s .range
  · rw [elemRun_of_not s f ra n ha, bind_error]
    exact conclude_error_raised s .range

/-- R132: the completion. -/
theorem exec_fdot_writes {s : State} {f : FieldSel} {rd ra rb n : Idx} (hc : CfgOk s.cfg)
    (hn : ra.val + n.val ≤ 16 ∧ rb.val + n.val ≤ 16)
    (hrun : RunCanonical s f ra n ∧ RunCanonical s f rb n) :
    ∃ t, exec (.fdot f rd ra n rb n) s = .next t ∧
      WritesReg s t rd (fdot (s.modulus f) (rawRun s ra n) (rawRun s rb n)) := by
  obtain ⟨ha, hb⟩ := hrun
  rw [exec_fdot_of_le hn, elemRun_of_canonical s f ra n ha, bind_ok, elemRun_of_canonical s f rb n hb, bind_ok]
  exact conclude_reg_writes hc (fdot_lt (hc.modulus_pos f) _ _)

/-- Settles O46: the three checks in their order, then the fold is the reduced sum of the products. -/
theorem fdotMultipliesRuns : Obligations.FdotMultipliesRuns := by
  unfold Obligations.FdotMultipliesRuns
  intro f rd ra na rb nb s
  refine ⟨decodeOfEncode (.fdot f rd ra na rb nb) rfl, exec_fdot_raises_length, ?bounds, ?range, ?writes⟩
  case bounds =>
    rintro rfl hn
    exact exec_fdot_raises_bounds hn
  case range =>
    rintro rfl hn hrun
    exact exec_fdot_raises_range hn fun h => hrun fun j hj => ⟨h.1 j hj, h.2 j hj⟩
  case writes =>
    rintro hc rfl hn hrun
    rw [← fdot_rawRun s ra rb na (hc.modulus_pos f)]
    exact exec_fdot_writes hc hn ⟨fun j hj => (hrun j hj).1, fun j hj => (hrun j hj).2⟩

end Sys2Proof.Machine
end

section
/-! PROOF. The field codec commands (41_field_codec.md R150 to R154). Past the bounds check a load commits
the little-endian number of its operand and a store commits `le_bytes` of its source; the laws of byte
strings of 00_scope.md R13 say what those are, and that they undo each other. -/

namespace Sys2Proof.Machine

/-! ### Commands that check one buffer operand first (30_encoding.md R87.4) -/

section bufferOperand
variable (s : State) {off n : Nat} (k : Unit → Except ErrKind Effect)

theorem conclude_bytes_of_le (h : off + n ≤ 256) :
    conclude s (needBytes off n >>= k) = conclude s (k ()) := by
  rw [needBytes_of_le off n h, bind_ok]

theorem conclude_bytes_bounds (h : ¬ off + n ≤ 256) :
    ∃ t, conclude s (needBytes off n >>= k) = .next t ∧ Raised s t .bounds := by
  rw [needBytes_of_gt off n h, bind_error]
  exact conclude_error_raised s .bounds

end bufferOperand

/-- A byte string just committed is read back whole. -/
theorem readBytes_of_commit_bytes {s t : State} {off : Nat} {bs : List Byte} (hm : s.buf.wf)
    (h : commit s (.bytes off bs) = .next t) : t.buf.readBytes off bs.length = bs := by
  obtain rfl : finish { s with buf := s.buf.writeBytes off bs } false false = t := by simpa [commit] using h
  exact Memory.readBytes_writeBytes s.buf hm.1 off bs

/-! ### `FFROMB` (R151) -/

section fromBytes
variable {s : State} {f : FieldSel} {rd : Idx}

theorem fromBytesEffect_of_canonical {off len : Nat} (hlen : len = (s.cfg.field f).byteLen)
    (hv : leInt (s.buf.readBytes off len) < s.modulus f) :
    fromBytesEffect s f rd off len = .reg rd (leInt (s.buf.readBytes off len)) := by
  subst hlen
  simp [fromBytesEffect, hv]

theorem fromBytesEffect_of_not_canonical {off len : Nat}
    (h : ¬ (len = (s.cfg.field f).byteLen ∧ leInt (s.buf.readBytes off len) < s.modulus f)) :
    fromBytesEffect s f rd off len = .absent := by
  by_cases hlen : len = (s.cfg.field f).byteLen
  · have hv : ¬ leInt (s.buf.readBytes off len) < s.modulus f := fun hv => h ⟨hlen, hv⟩
    subst hlen
    simp [fromBytesEffect, hv]
  · simp [fromBytesEffect, hlen]

variable {off len : BitVec 8} (hle : off.toNat + len.toNat ≤ 256)
include hle

theorem exec_ffromb_writes (hc : CfgOk s.cfg) (hlen : len.toNat = (s.cfg.field f).byteLen)
    (hv : leInt (s.buf.readBytes off.toNat len.toNat) < s.modulus f) :
    ∃ t, exec (.ffromb f rd off len) s = .next t ∧
      WritesReg s t rd (leInt (s.buf.readBytes off.toNat len.toNat)) := by
  rw [exec, execFfromb, conclude_bytes_of_le s _ hle, fromBytesEffect_of_canonical hlen hv]
  exact conclude_reg_writes hc hv

theorem exec_ffromb_absent (h : ¬ (len.toNat = (s.cfg.field f).byteLen ∧
      leInt (s.buf.readBytes off.toNat len.toNat) < s.modulus f)) :
    ∃ t, exec (.ffromb f rd off len) s = .next t ∧ EndsAbsent s t := by
  rw [exec, execFfromb, conclude_bytes_of_le s _ hle, fromBytesEffect_of_not_canonical h]
  exact commit_absent_ends s

end fromBytes

/-- Settles O47: the number that the sum of R13 names is `le_int` of the operand, and the decoder's two
checks on it part the completions. -/
theorem ffrombDecodes : Obligations.FfrombDecodes := by
  unfold Obligations.FfrombDecodes
  intro f rd off len s
  simp only [← leInt_readBytes]
  exact ⟨decodeOfEncode (.ffromb f rd off len) rfl, conclude_bytes_bounds s _, exec_ffromb_absent,
    fun hc hle => exec_ffromb_writes hle hc⟩

/-! ### `FTOB` (R152) -/

section toBytes
variable {s : State} {f : FieldSel} {rs : Idx} {off : BitVec 8}
  (hle : off.toNat + (s.cfg.field f).byteLen ≤ 256)
include hle

/-- Past its two checks `FTOB` commits the encoding of its source. -/
theorem exec_ftob_of_canonical (hv : s.reg rs < s.modulus f) :
    exec (.ftob f rs off) s =
      commit s (.bytes off.toNat (leBytes (s.reg rs) (s.cfg.field f).byteLen)) := by
  rw [exec, execFtob, conclude_bytes_of_le s _ hle, conclude_elem_of_lt s f rs _ hv]
  rfl

theorem exec_ftob_raises_range (hv : ¬ s.reg rs < s.modulus f) :
    ∃ t, exec (.ftob f rs off) s = .next t ∧ Raised s t .range := by
  rw [exec, execFtob, conclude_bytes_of_le s _ hle]
  exact conclude_elem_of_ge s f rs _ hv

/-- R152, last property: the bytes stored are those of the source, which fits in `BL` bytes. -/
theorem leInt_readBytes_of_exec_ftob {t : State} (hm : s.buf.wf) (hv : s.reg rs < s.modulus f)
    (h : exec (.ftob f rs off) s = .next t) :
    leInt (t.buf.readBytes off.toNat (s.cfg.field f).byteLen) = s.reg rs := by
  rw [exec_ftob_of_canonical hle hv] at h
  have hbytes := readBytes_of_commit_bytes hm h
  rw [length_leBytes] at hbytes
  rw [hbytes, leInt_leBytes _ _ (hv.trans (FieldCfg.p_lt _))]

end toBytes

/-- Settles O48: what is committed is `le_bytes` of the source, of length `BL`, whose byte `j` is the digit
that R13 names. -/
theorem ftobEncodes : Obligations.FtobEncodes := by
  unfold Obligations.FtobEncodes
  intro f rs off s hs
  refine ⟨decodeOfEncode (.ftob f rs off) rfl, conclude_bytes_bounds s _, exec_ftob_raises_range,
    fun hle hv => ?_⟩
  obtain ⟨t, ht, hcompletes, hregs, hbuf, hbytes⟩ := commit_bytes_completes s hs.buf_wf off.toNat
    (leBytes (s.reg rs) (s.cfg.field f).byteLen)
  rw [length_leBytes] at hbuf hbytes
  refine ⟨t, (exec_ftob_of_canonical hle hv).trans ht, hcompletes, hregs, hbuf, fun j hj => ?_⟩
  rw [hbytes j hj, getElem?_leBytes _ _ _ hj, Option.getD_some, BitVec.toNat_ofNat]

/-! ### `FENT` (R153) -/

/-- Settles O49: no length is refused, and the reduction makes every number canonical. -/
theorem fentReduces : Obligations.FentReduces := by
  unfold Obligations.FentReduces
  intro f rd off len s
  refine ⟨decodeOfEncode (.fent f rd off len) rfl, fun hc hle => ?_, conclude_bytes_bounds s _⟩
  rw [← leInt_readBytes, exec, execFent, conclude_bytes_of_le s _ hle]
  exact conclude_reg_writes hc (Nat.mod_lt _ (hc.modulus_pos f))

/-! ### The round trip (R151, R152) -/

/-- Settles O50: the store leaves the build as it was and `le_int` of the bytes it wrote is its source, so
the load passes both of its checks. -/
theorem fieldCodecRoundTrip : Obligations.FieldCodecRoundTrip := by
  unfold Obligations.FieldCodecRoundTrip
  intro f rs rd off len s t hc hs hv hlen hle hstore
  have hcfg : t.cfg = s.cfg := (exec_frame hstore).cfg
  have hread : leInt (t.buf.readBytes off.toNat len.toNat) = s.reg rs := by
    rw [hlen] at hle ⊢
    exact leInt_readBytes_of_exec_ftob hle hs.buf_wf hv hstore
  have hcanonical : leInt (t.buf.readBytes off.toNat len.toNat) < t.modulus f := by
    rw [hread, State.modulus, hcfg]
    exact hv
  rw [← hread]
  exact exec_ffromb_writes hle (hcfg ▸ hc) (hcfg ▸ hlen) hcanonical

end Sys2Proof.Machine
end

section
/-! PROOF. The curve functions (42_curve.md R161 to R175): the addition law as equations in `ZMod p`, which
one canonical pair solves, and the two ladders step by step from `Neutral`, which the law makes neutral. -/

namespace Sys2Proof.Machine

/-! ### The curve equation (R161) -/

theorem natCast_fsub {p b : Nat} (a : Nat) (hb : b ≤ p) : (fsub p a b : ZMod p) = a - b := by
  simp [fsub, Nat.cast_sub hb, sub_eq_add_neg]

theorem oncurve_iff {c : Cfg} (hp : 0 < c.bf.p) (P : Point) :
    oncurve c P = true ↔
      (c.curveA * P.x ^ 2 + P.y ^ 2 : ZMod c.bf.p) = 1 + c.curveD * P.x ^ 2 * P.y ^ 2 := by
  rw [oncurve, beq_iff_eq, ← natCast_inj_of_lt (fadd_lt hp _ _) (fadd_lt hp _ _)]
  simp only [natCast_fadd, natCast_fmul, natCast_fsqr, Nat.cast_one, mul_assoc]

/-- R161 read as naturals. -/
theorem oncurve_eq_decide {c : Cfg} (hp : 0 < c.bf.p) (P : Point) :
    oncurve c P = decide ((c.curveA * P.x ^ 2 + P.y ^ 2) % c.bf.p =
      (1 + c.curveD * P.x ^ 2 * P.y ^ 2) % c.bf.p) := by
  rw [Bool.eq_iff_iff, decide_eq_true_iff, oncurve_iff hp, ← Nat.ModEq, ← ZMod.natCast_eq_natCast_iff]
  push_cast
  rfl

/-! ### The terms of the addition law (R166), as `padd` computes them -/

theorem fmul_comm (p a b : Nat) : fmul p a b = fmul p b a := by rw [fmul, fmul, Nat.mul_comm]

section terms
variable (c : Cfg) (P Q : Point)

/-- `D * x1 * x2 * y1 * y2`. -/
def lawTerm : Nat := fmul c.bf.p c.curveD (fmul c.bf.p (fmul c.bf.p P.x Q.x) (fmul c.bf.p P.y Q.y))

/-- The denominator of `x3`. -/
def lawDx : Nat := fadd c.bf.p 1 (lawTerm c P Q)

/-- The denominator of `y3`. -/
def lawDy : Nat := fsub c.bf.p 1 (lawTerm c P Q)

/-- The numerator of `x3`. -/
def lawNx : Nat := fadd c.bf.p (fmul c.bf.p P.x Q.y) (fmul c.bf.p Q.x P.y)

/-- The numerator of `y3`. -/
def lawNy : Nat := fsub c.bf.p (fmul c.bf.p P.y Q.y) (fmul c.bf.p c.curveA (fmul c.bf.p P.x Q.x))

theorem padd_eq_ite : padd c P Q =
    if lawDx c P Q = 0 ∨ lawDy c P Q = 0 then .error .divZero
    else .ok ⟨fmul c.bf.p (lawNx c P Q) (invValue c.bf.p (lawDx c P Q)),
      fmul c.bf.p (lawNy c P Q) (invValue c.bf.p (lawDy c P Q))⟩ := rfl

theorem lawTerm_comm : lawTerm c P Q = lawTerm c Q P := by
  rw [lawTerm, lawTerm, fmul_comm _ P.x, fmul_comm _ P.y]

theorem lawNx_comm : lawNx c P Q = lawNx c Q P := by rw [lawNx, lawNx, fadd, fadd, Nat.add_comm]

theorem lawNy_comm : lawNy c P Q = lawNy c Q P := by
  rw [lawNy, lawNy, fmul_comm _ P.x, fmul_comm _ P.y]

/-- R166: the law is symmetric term by term, raises included. -/
theorem padd_comm : padd c P Q = padd c Q P := by
  rw [padd_eq_ite, padd_eq_ite, lawDx, lawDy, lawTerm_comm, lawNx_comm, lawNy_comm, ← lawDx, ← lawDy]

theorem natCast_lawTerm : (lawTerm c P Q : ZMod c.bf.p) = c.curveD * P.x * Q.x * P.y * Q.y := by
  simp only [lawTerm, natCast_fmul]
  ring

theorem natCast_lawDx : (lawDx c P Q : ZMod c.bf.p) = 1 + c.curveD * P.x * Q.x * P.y * Q.y := by
  rw [lawDx, natCast_fadd, natCast_lawTerm, Nat.cast_one]

theorem natCast_lawNx : (lawNx c P Q : ZMod c.bf.p) = P.x * Q.y + Q.x * P.y := by
  rw [lawNx, natCast_fadd, natCast_fmul, natCast_fmul]

end terms

/-- The law of R166 without its divisions: each coordinate of `R` times its denominator is its numerator. -/
structure LawSum (c : Cfg) (P Q R : Point) : Prop where
  x : (R.x : ZMod c.bf.p) * (1 + c.curveD * P.x * Q.x * P.y * Q.y) = P.x * Q.y + Q.x * P.y
  y : (R.y : ZMod c.bf.p) * (1 - c.curveD * P.x * Q.x * P.y * Q.y) = P.y * Q.y - c.curveA * P.x * Q.x

/-! ### `padd` solves the law (R162, R166) -/

/-- R120, R162: a quotient times its nonzero divisor is the dividend. -/
theorem natCast_quotient_mul {p b : Nat} (hp : p.Prime) (a : Nat) (hb : b ≠ 0) (hbp : b < p) :
    (fmul p a (invValue p b) * b : ZMod p) = a := by
  rw [natCast_fmul]
  linear_combination (a : ZMod p) * mul_invValue hp (Nat.pos_of_ne_zero hb) hbp

section denominators
variable {c : Cfg} (hp : 0 < c.bf.p) (P Q : Point)
include hp

theorem lawDx_lt : lawDx c P Q < c.bf.p := fadd_lt hp _ _

theorem lawDy_lt : lawDy c P Q < c.bf.p := fsub_lt hp _ _

theorem natCast_lawDy : (lawDy c P Q : ZMod c.bf.p) = 1 - c.curveD * P.x * Q.x * P.y * Q.y := by
  have hlt : lawTerm c P Q < c.bf.p := fmul_lt hp _ _
  rw [lawDy, natCast_fsub _ hlt.le, natCast_lawTerm, Nat.cast_one]

theorem natCast_lawNy : (lawNy c P Q : ZMod c.bf.p) = P.y * Q.y - c.curveA * P.x * Q.x := by
  rw [lawNy, natCast_fsub _ (fmul_lt hp _ _).le]
  simp only [natCast_fmul, mul_assoc]

/-- For the modulus 1, which no `CfgOK` build has, both sides hold because `ZMod 1` is trivial. -/
theorem denominatorZero_iff_natCast : DenominatorZero c P Q ↔
    (1 + c.curveD * P.x * Q.x * P.y * Q.y : ZMod c.bf.p) = 0 ∨
      (1 - c.curveD * P.x * Q.x * P.y * Q.y : ZMod c.bf.p) = 0 := by
  rcases Nat.eq_or_lt_of_le hp with hone | hlt
  · have : Subsingleton (ZMod c.bf.p) := hone ▸ inferInstanceAs (Subsingleton (ZMod 1))
    have hmod : (1 + c.curveD * P.x * Q.x * P.y * Q.y) % c.bf.p = 0 := by rw [← hone, Nat.mod_one]
    exact iff_of_true (.inl hmod) (.inl (Subsingleton.elim _ _))
  · rw [DenominatorZero, mod_eq_iff_natCast hp, mod_eq_iff_natCast hlt, sub_eq_zero,
      eq_comm (a := (1 : ZMod c.bf.p))]
    push_cast
    rfl

/-- R162: the two denominators that `padd` tests are those of the law. -/
theorem denominatorZero_iff : DenominatorZero c P Q ↔ lawDx c P Q = 0 ∨ lawDy c P Q = 0 := by
  rw [denominatorZero_iff_natCast hp, ← natCast_lawDx, ← natCast_lawDy hp,
    natCast_eq_zero_of_lt (lawDx_lt hp P Q), natCast_eq_zero_of_lt (lawDy_lt hp P Q)]

variable {P Q}

theorem padd_of_denominatorZero (h : DenominatorZero c P Q) : padd c P Q = .error .divZero := by
  rw [padd_eq_ite, if_pos ((denominatorZero_iff hp P Q).1 h)]

theorem not_denominatorZero_of_padd {R : Point} (h : padd c P Q = .ok R) : ¬ DenominatorZero c P Q := by
  intro hden
  simp [padd_of_denominatorZero hp hden] at h

end denominators

section law
variable {c : Cfg} (hp : c.bf.p.Prime) {P Q R : Point}
include hp

theorem padd_of_not_denominatorZero (h : ¬ DenominatorZero c P Q) :
    ∃ R, padd c P Q = .ok R ∧ CanonPoint c R ∧ LawSum c P Q R := by
  rw [denominatorZero_iff hp.pos] at h
  rw [padd_eq_ite, if_neg h]
  obtain ⟨hx, hy⟩ := not_or.1 h
  refine ⟨_, rfl, ⟨fmul_lt hp.pos _ _, fmul_lt hp.pos _ _⟩, ?x, ?y⟩
  case x =>
    rw [← natCast_lawDx, ← natCast_lawNx]
    exact natCast_quotient_mul hp _ hx (lawDx_lt hp.pos P Q)
  case y =>
    rw [← natCast_lawDy hp.pos, ← natCast_lawNy hp.pos]
    exact natCast_quotient_mul hp _ hy (lawDy_lt hp.pos P Q)

/-- Nonzero denominators cancel, so the law has one canonical solution. -/
theorem LawSum.unique {R' : Point} (hR : LawSum c P Q R) (hR' : LawSum c P Q R') (h : CanonPoint c R)
    (h' : CanonPoint c R') (hden : ¬ DenominatorZero c P Q) : R = R' := by
  have : Fact c.bf.p.Prime := ⟨hp⟩
  rw [denominatorZero_iff_natCast hp.pos, not_or] at hden
  obtain ⟨hdx, hdy⟩ := hden
  have hx : R.x = R'.x := (natCast_inj_of_lt h.1 h'.1).1 (mul_right_cancel₀ hdx (hR.x.trans hR'.x.symm))
  have hy : R.y = R'.y := (natCast_inj_of_lt h.2 h'.2).1 (mul_right_cancel₀ hdy (hR.y.trans hR'.y.symm))
  exact congrArg₂ Point.mk hx hy

theorem LawSum.padd_eq (hR : LawSum c P Q R) (h : CanonPoint c R) (hden : ¬ DenominatorZero c P Q) :
    padd c P Q = .ok R := by
  obtain ⟨R', hadd, h', hR'⟩ := padd_of_not_denominatorZero hp hden
  rw [hadd, hR.unique hp hR' h h' hden]

/-- R166: `Neutral` has `x = 0`, so both denominators are 1 and `Q` solves the law. -/
theorem padd_neutral (hQ : CanonPoint c Q) : padd c neutral Q = .ok Q := by
  have : Fact c.bf.p.Prime := ⟨hp⟩
  refine LawSum.padd_eq hp ⟨?x, ?y⟩ hQ ?den
  case x => simp [neutral]
  case y => simp [neutral]
  case den => simp [denominatorZero_iff_natCast hp.pos, neutral]

end law

/-- Settles O27: `padd` solves the law, and what the law says of `Neutral` follows. -/
theorem additionLaw : Obligations.AdditionLaw := by
  unfold Obligations.AdditionLaw
  intro c P Q hc _ _ hQx hQy
  have hp := hc.bfOk.prime
  have hneutral := padd_neutral hp (Q := Q) ⟨hQx, hQy⟩
  refine ⟨padd_comm c P Q, hneutral, padd_comm c Q neutral ▸ hneutral, padd_of_denominatorZero hp.pos,
    fun hden => ?_⟩
  obtain ⟨R, hadd, ⟨hRx, hRy⟩, hlaw⟩ := padd_of_not_denominatorZero hp hden
  exact ⟨R, hadd, hRx, hRy, hlaw.x, hlaw.y⟩

/-! ### `(x, -y)` (R170) -/

/-- R170: by the curve equation `(0, -1)` solves the law for `(x, y)` and `(x, -y)`. -/
theorem lawSum_pneg {c : Cfg} {P : Point} (hp : 0 < c.bf.p) (hy : P.y < c.bf.p)
    (hcurve : oncurve c P = true) : LawSum c P (pneg c P) ⟨0, c.bf.p - 1⟩ := by
  rw [oncurve_iff hp] at hcurve
  have hneg : ((pneg c P).y : ZMod c.bf.p) = -P.y := natCast_fneg hy.le
  have hone : ((c.bf.p - 1 : Nat) : ZMod c.bf.p) = -1 :=
    (natCast_eq_neg_one_of_lt hp (Nat.sub_lt hp one_pos)).2 rfl
  have hx : (pneg c P).x = P.x := rfl
  refine ⟨?x, ?y⟩
  case x =>
    rw [hneg, hx, Nat.cast_zero]
    ring
  case y =>
    rw [hneg, hx, hone]
    linear_combination hcurve

/-- Settles O28: a sum exists only with nonzero denominators, and then the law has one solution. -/
theorem negationIsNotTheGroupInverse : Obligations.NegationIsNotTheGroupInverse := by
  unfold Obligations.NegationIsNotTheGroupInverse
  intro c P R hc _ hy hcurve hR
  have hp := hc.bfOk.prime
  have hsum := (lawSum_pneg hp.pos hy hcurve).padd_eq hp ⟨hp.pos, Nat.sub_lt hp.pos one_pos⟩
    (not_denominatorZero_of_padd hp.pos hR)
  exact Except.ok.inj (hR.symm.trans hsum)

/-! ### The ladders (R171 to R175) -/

theorem bitlen_le {k n : Nat} (h : k < 2 ^ n) : bitlen k ≤ n := by
  unfold bitlen
  split
  · exact n.zero_le
  · exact (Nat.log2_lt ‹_›).2 h

section ladder
variable {c : Cfg} {P : Point}

/-- R171: with a zero bit a step from `Neutral` doubles it to itself and discards the sum `P`. -/
theorem ladderCtFrom_neutral_of_bit_zero (hp : c.bf.p.Prime) (hP : CanonPoint c P) {k i : Nat}
    (h : k.testBit i = false) : ladderCtFrom c P k (i + 1) neutral = ladderCtFrom c P k i neutral := by
  rw [ladderCtFrom_succ hp.one_lt (padd_neutral hp (neutral_canon hp.one_lt)) (padd_neutral hp hP), h]
  rfl

/-- R171: the bits above the bit length are zero, so any number of leading steps changes nothing. -/
theorem ladderCtFrom_leading_zeros (hp : c.bf.p.Prime) (hP : CanonPoint c P) (k n : Nat) :
    ladderCtFrom c P k (bitlen k + n) neutral = ladderCtFrom c P k (bitlen k) neutral := by
  induction n with
  | zero => rfl
  | succ n ih =>
    have hbit : k.testBit (bitlen k + n) = false := Nat.testBit_lt_two_pow
      ((lt_two_pow_bitlen k).trans_le (Nat.pow_le_pow_right two_pos (Nat.le_add_right _ n)))
    rw [← Nat.add_assoc, ladderCtFrom_neutral_of_bit_zero hp hP hbit, ih]

theorem ladderCt_eq_bitlen (hp : c.bf.p.Prime) (hP : CanonPoint c P) {k : Nat} (hk : k < 2 ^ c.regw) :
    ladderCt c P k = ladderCtFrom c P k (bitlen k) neutral := by
  rw [← ladderCtFrom_leading_zeros hp hP k (c.regw - bitlen k), Nat.add_sub_cancel' (bitlen_le hk), ladderCt]

/-- R175: where the constant-time steps answer, the variable-time steps compute no sum that those did not. -/
theorem ladderVtFrom_of_ladderCtFrom (hp : 1 < c.bf.p) {R : Point} {k : Nat} (i : Nat) (acc : Point)
    (h : ladderCtFrom c P k i acc = .ok R) : ladderVtFrom c P k i acc = .ok R := by
  induction i generalizing acc with
  | zero => exact h
  | succ i ih =>
    obtain ⟨dbl, sum, hdbl, hsum, hrest⟩ := ladderCtFrom_succ_ok hp h
    rw [ladderVtFrom, pdbl, hdbl]
    cases hbit : k.testBit i with
    | false => simpa [hbit] using ih _ hrest
    | true => simpa [hbit, hsum] using ih _ hrest

theorem ladderVt_of_ladderCt (hp : c.bf.p.Prime) (hP : CanonPoint c P) {R : Point} {k : Nat}
    (hk : k < 2 ^ c.regw) (h : ladderCt c P k = .ok R) : ladderVt c P k = .ok R := by
  rw [ladderCt_eq_bitlen hp hP hk] at h
  exact ladderVtFrom_of_ladderCtFrom hp.one_lt _ _ h

variable (hc : CfgOk c) (hP : CanonPoint c P)
include hc hP

/-- R172: the scalar 0 has no bits to scan. -/
theorem ladderCt_zero : ladderCt c P 0 = .ok neutral :=
  ladderCt_eq_bitlen hc.bfOk.prime hP (Nat.two_pow_pos _)

/-- R172: the one bit of the scalar 1 selects the sum of `Neutral` and `P`. -/
theorem ladderCt_one : ladderCt c P 1 = .ok P := by
  have hp := hc.bfOk.prime
  have hstep := ladderCtFrom_succ (k := 1) (i := 0) hp.one_lt
    (padd_neutral hp (neutral_canon hp.one_lt)) (padd_neutral hp hP)
  exact (ladderCt_eq_bitlen hp hP (hc.fits .bf hp.one_lt)).trans hstep

theorem ladderVt_zero : ladderVt c P 0 = .ok neutral :=
  ladderVt_of_ladderCt hc.bfOk.prime hP (Nat.two_pow_pos _) (ladderCt_zero hc hP)

theorem ladderVt_one : ladderVt c P 1 = .ok P :=
  ladderVt_of_ladderCt hc.bfOk.prime hP (hc.fits .bf hc.bfOk.prime.one_lt) (ladderCt_one hc hP)

end ladder

/-- Settles O29: the steps above the bit length are the leading ones. -/
theorem ladderLeadingZerosChangeNothing : Obligations.LadderLeadingZerosChangeNothing := by
  unfold Obligations.LadderLeadingZerosChangeNothing
  exact fun c P k hc hx hy hk => ladderCt_eq_bitlen hc.bfOk.prime ⟨hx, hy⟩ hk

/-- Settles O30: past the leading zeros the ladders take the same steps; R172's off-curve pair `(4, 5)` with
`k = 2` fails in a sum that only the constant-time ladder computes. -/
theorem laddersAgree : Obligations.LaddersAgree := by
  unfold Obligations.LaddersAgree
  refine ⟨fun c P R k hc hx hy hk h => ladderVt_of_ladderCt hc.bfOk.prime ⟨hx, hy⟩ hk h,
    ⟨4, 5⟩, ⟨60, 352⟩, 2, by decide, by decide, by decide, ?vt, ?ct⟩
  case vt => decide +kernel
  case ct => decide +kernel

end Sys2Proof.Machine
end

section
/-! PROOF. The curve commands (42_curve.md R163 to R176). A command past its bounds and range checks
concludes what the pure function of its rule answers: a canonical point, which fits its registers under
`CfgOK`, a Boolean, or `E_DIVZERO`. -/

namespace Sys2Proof.Machine

/-! ### The checks of point operands (30_encoding.md R87.2, R160) -/

section checks
variable (s : State) {d a : Idx}

theorem conclude_points_of_le (k : Unit → Except ErrKind Effect) (h : d.val ≤ 14 ∧ a.val ≤ 14) :
    conclude s (needPoint d >>= fun _ => needPoint a >>= k) = conclude s (k ()) := by
  rw [needPoint_of_le d h.1, bind_ok, needPoint_of_le a h.2, bind_ok]

theorem conclude_point_bounds (k : Unit → Except ErrKind Effect) (h : ¬ a.val ≤ 14) :
    ∃ t, conclude s (needPoint a >>= k) = .next t ∧ Raised s t .bounds := by
  rw [needPoint_of_gt a h, bind_error]
  exact conclude_error_raised s .bounds

theorem conclude_points_bounds (k : Unit → Except ErrKind Effect) (h : ¬ (d.val ≤ 14 ∧ a.val ≤ 14)) :
    ∃ t, conclude s (needPoint d >>= fun _ => needPoint a >>= k) = .next t ∧ Raised s t .bounds := by
  by_cases hd : d.val ≤ 14
  · rw [needPoint_of_le d hd, bind_ok]
    exact conclude_point_bounds s k fun ha => h ⟨hd, ha⟩
  · exact conclude_point_bounds s _ hd

theorem conclude_canonPoint_of_canon (k : Point → Except ErrKind Effect)
    (h : CanonPoint s.cfg (rawPoint s a)) :
    conclude s (canonPoint s a >>= k) = conclude s (k (rawPoint s a)) := by
  rw [canonPoint_of_lt s a h, bind_ok]
  rfl

theorem conclude_canonPoint_range (k : Point → Except ErrKind Effect)
    (h : ¬ CanonPoint s.cfg (rawPoint s a)) :
    ∃ t, conclude s (canonPoint s a >>= k) = .next t ∧ Raised s t .range := by
  rw [canonPoint_of_ge s a h, bind_error]
  exact conclude_error_raised s .range

end checks

/-! ### The two ends of a command whose result is a point -/

section result
variable {s : State} {d : Idx} {r : Except ErrKind Point}

theorem conclude_result_writes {R : Point} (hc : CfgOk s.cfg) (hd : d.val ≤ 14) (hr : r = .ok R)
    (hR : CanonPoint s.cfg R) :
    ∃ t, conclude s (r >>= fun R => .ok (.point d R)) = .next t ∧ WritesPoint s t d R := by
  rw [hr, bind_ok]
  exact commit_point_writes s d R hd (hc.fits .bf hR.1) (hc.fits .bf hR.2)

theorem conclude_result_raises {e : ErrKind} (hr : r = .error e) :
    ∃ t, conclude s (r >>= fun R => .ok (.point d R)) = .next t ∧ Raised s t e := by
  rw [hr, bind_error]
  exact conclude_error_raised s e

end result

/-! ### Commands from one point to another (R168 to R174) -/

/-- What `PDBL`, `PNEG`, `SMUL` and `SMULVT` have in common: both indices are checked, `P(a)` is read, and
`P(d)` takes the answer of `r`. -/
def concludePointMap (d a : Idx) (r : Point → Except ErrKind Point) (s : State) :
    Host.Outcome State Fault Refusal :=
  conclude s (needPoint d >>= fun _ => needPoint a >>= fun _ => canonPoint s a >>= fun P =>
    r P >>= fun R => .ok (.point d R))

section pointMap
variable (d a rb : Idx) (s : State)

theorem exec_pdbl : exec (.pdbl d a) s = concludePointMap d a (pdbl s.cfg) s := rfl

theorem exec_pneg : exec (.pneg d a) s = concludePointMap d a (fun P => .ok (pneg s.cfg P)) s := rfl

theorem exec_smul :
    exec (.smul d a rb) s = concludePointMap d a (fun P => ladderCt s.cfg P (s.reg rb)) s := rfl

theorem exec_smulvt :
    exec (.smulvt d a rb) s = concludePointMap d a (fun P => ladderVt s.cfg P (s.reg rb)) s := rfl

variable {d a s} {r : Point → Except ErrKind Point}

theorem concludePointMap_bounds (h : ¬ (d.val ≤ 14 ∧ a.val ≤ 14)) :
    ∃ t, concludePointMap d a r s = .next t ∧ Raised s t .bounds :=
  conclude_points_bounds s _ h

variable (hda : d.val ≤ 14 ∧ a.val ≤ 14)
include hda

theorem concludePointMap_range (hP : ¬ CanonPoint s.cfg (rawPoint s a)) :
    ∃ t, concludePointMap d a r s = .next t ∧ Raised s t .range := by
  rw [concludePointMap, conclude_points_of_le s _ hda]
  exact conclude_canonPoint_range s _ hP

variable (hP : CanonPoint s.cfg (rawPoint s a))
include hP

theorem concludePointMap_of_canon :
    concludePointMap d a r s = conclude s (r (rawPoint s a) >>= fun R => .ok (.point d R)) := by
  rw [concludePointMap, conclude_points_of_le s _ hda, conclude_canonPoint_of_canon s _ hP]

theorem concludePointMap_writes {R : Point} (hc : CfgOk s.cfg) (hr : r (rawPoint s a) = .ok R)
    (hR : CanonPoint s.cfg R) :
    ∃ t, concludePointMap d a r s = .next t ∧ WritesPoint s t d R := by
  rw [concludePointMap_of_canon hda hP]
  exact conclude_result_writes hc hda.1 hr hR

theorem concludePointMap_raises {e : ErrKind} (hr : r (rawPoint s a) = .error e) :
    ∃ t, concludePointMap d a r s = .next t ∧ Raised s t e := by
  rw [concludePointMap_of_canon hda hP]
  exact conclude_result_raises hr

end pointMap

/-! ### `PADD`, `PDBL` and `PNEG` (R167 to R170) -/

section padd
variable {d a b : Idx} {s : State}

theorem exec_padd_bounds (h : ¬ (d.val ≤ 14 ∧ a.val ≤ 14 ∧ b.val ≤ 14)) :
    ∃ t, exec (.padd d a b) s = .next t ∧ Raised s t .bounds := by
  rw [exec, execPadd]
  by_cases hda : d.val ≤ 14 ∧ a.val ≤ 14
  · rw [conclude_points_of_le s _ hda]
    exact conclude_point_bounds s _ fun hb => h ⟨hda.1, hda.2, hb⟩
  · exact conclude_points_bounds s _ hda

variable (h : d.val ≤ 14 ∧ a.val ≤ 14 ∧ b.val ≤ 14)
include h

/-- R167: past the bounds checks `PADD` reads both points. -/
theorem exec_padd_of_le : exec (.padd d a b) s = conclude s (canonPoint s a >>= fun P =>
    canonPoint s b >>= fun Q => padd s.cfg P Q >>= fun R => .ok (.point d R)) := by
  obtain ⟨hd, ha, hb⟩ := h
  rw [exec, execPadd, conclude_points_of_le s _ ⟨hd, ha⟩, needPoint_of_le b hb, bind_ok]
  rfl

theorem exec_padd_range (hPQ : ¬ (CanonPoint s.cfg (rawPoint s a) ∧ CanonPoint s.cfg (rawPoint s b))) :
    ∃ t, exec (.padd d a b) s = .next t ∧ Raised s t .range := by
  rw [exec_padd_of_le h]
  by_cases hP : CanonPoint s.cfg (rawPoint s a)
  · rw [conclude_canonPoint_of_canon s _ hP]
    exact conclude_canonPoint_range s _ fun hQ => hPQ ⟨hP, hQ⟩
  · exact conclude_canonPoint_range s _ hP

theorem exec_padd_of_canon (hP : CanonPoint s.cfg (rawPoint s a)) (hQ : CanonPoint s.cfg (rawPoint s b)) :
    exec (.padd d a b) s =
      conclude s (padd s.cfg (rawPoint s a) (rawPoint s b) >>= fun R => .ok (.point d R)) := by
  rw [exec_padd_of_le h, conclude_canonPoint_of_canon s _ hP, conclude_canonPoint_of_canon s _ hQ]

end padd

/-- Settles O54: the checks in their order, then each answer of `padd` has its own end of the command. -/
theorem paddAddsPoints : Obligations.PaddAddsPoints := by
  unfold Obligations.PaddAddsPoints
  intro d a b s
  refine ⟨decodeOfEncode (.padd d a b) rfl, exec_padd_bounds, fun h hPQ => ?range,
    fun h ⟨hPx, hPy, hQx, hQy⟩ => ?canon⟩
  case range =>
    exact exec_padd_range h fun ⟨hP, hQ⟩ => hPQ ⟨hP.1, hP.2, hQ.1, hQ.2⟩
  case canon =>
    rw [exec_padd_of_canon h ⟨hPx, hPy⟩ ⟨hQx, hQy⟩]
    refine ⟨fun hc hden => ?_, fun hden => ?_⟩
    · obtain ⟨R, hadd, hR, -⟩ := padd_of_not_denominatorZero hc.bfOk.prime hden
      obtain ⟨t, ht⟩ := conclude_result_writes hc h.1 hadd hR
      exact ⟨R, t, hadd, ht⟩
    · exact conclude_result_raises (padd_of_denominatorZero (Nat.zero_lt_of_lt hPx) hden)

/-- Settles O55: as for the sum, with both operands equal. -/
theorem pdblDoublesPoint : Obligations.PdblDoublesPoint := by
  unfold Obligations.PdblDoublesPoint
  intro d a s
  rw [exec_pdbl]
  refine ⟨decodeOfEncode (.pdbl d a) rfl, concludePointMap_bounds, concludePointMap_range,
    fun hda hP => ⟨fun hc hden => ?_, fun hden => ?_⟩⟩
  · obtain ⟨R, hadd, hR, -⟩ := padd_of_not_denominatorZero hc.bfOk.prime hden
    obtain ⟨t, ht⟩ := concludePointMap_writes (r := pdbl s.cfg) hda hP hc hadd hR
    exact ⟨R, t, hadd, ht⟩
  · exact concludePointMap_raises hda hP (padd_of_denominatorZero (Nat.zero_lt_of_lt hP.1) hden)

/-- Settles O56: the negated coordinate is canonical. -/
theorem pnegNegatesY : Obligations.PnegNegatesY := by
  unfold Obligations.PnegNegatesY
  intro d a s
  rw [exec_pneg]
  exact ⟨decodeOfEncode (.pneg d a) rfl, concludePointMap_bounds, concludePointMap_range,
    fun hc hda hP => concludePointMap_writes hda hP hc rfl (pneg_canon (P := rawPoint s a) hP)⟩

/-! ### `SMUL` and `SMULVT` (R172, R174) -/

/-- What both ladders of a build answer: `Neutral` and `P` outright for the scalars 0 and 1, a canonical pair
for any other that they answer, and `E_DIVZERO` otherwise. -/
structure IsLadder (c : Cfg) (ladder : Point → Nat → Except ErrKind Point) : Prop where
  zero : ∀ {P}, CfgOk c → CanonPoint c P → ladder P 0 = .ok neutral
  one : ∀ {P}, CfgOk c → CanonPoint c P → ladder P 1 = .ok P
  canon : ∀ {P k R}, CfgOk c → ladder P k = .ok R → CanonPoint c R
  error : ∀ {P k e}, ladder P k = .error e → e = .divZero

theorem ladderCt_isLadder (c : Cfg) : IsLadder c (ladderCt c) where
  zero := ladderCt_zero
  one := ladderCt_one
  canon := fun hc => ladderCt_canon hc.bfOk.prime.one_lt
  error := ladderCt_error

theorem ladderVt_isLadder (c : Cfg) : IsLadder c (ladderVt c) where
  zero := ladderVt_zero
  one := ladderVt_one
  canon := fun hc => ladderVt_canon hc.bfOk.prime.one_lt
  error := ladderVt_error

/-- R172, R174: past the checks, each answer of the ladder has its own end of the command. -/
theorem IsLadder.conclude_ends {s : State} {ladder : Point → Nat → Except ErrKind Point}
    (hl : IsLadder s.cfg ladder) {d a : Idx} (hda : d.val ≤ 14 ∧ a.val ≤ 14)
    (hP : CanonPoint s.cfg (rawPoint s a)) (k : Nat) :
    (CfgOk s.cfg → k = 0 →
      ∃ t, concludePointMap d a (ladder · k) s = .next t ∧ WritesPoint s t d neutral) ∧
    (CfgOk s.cfg → k = 1 →
      ∃ t, concludePointMap d a (ladder · k) s = .next t ∧ WritesPoint s t d (rawPoint s a)) ∧
    (∀ R, CfgOk s.cfg → ladder (rawPoint s a) k = .ok R →
      ∃ t, concludePointMap d a (ladder · k) s = .next t ∧ WritesPoint s t d R) ∧
    (∀ e, ladder (rawPoint s a) k = .error e →
      e = .divZero ∧ ∃ t, concludePointMap d a (ladder · k) s = .next t ∧ Raised s t .divZero) := by
  refine ⟨?zero, ?one, fun R hc hR => ?answer, fun e he => ?error⟩
  case zero =>
    rintro hc rfl
    exact concludePointMap_writes hda hP hc (hl.zero hc hP) (neutral_canon hc.bfOk.prime.one_lt)
  case one =>
    rintro hc rfl
    exact concludePointMap_writes hda hP hc (hl.one hc hP) hP
  case answer => exact concludePointMap_writes hda hP hc hR (hl.canon hc hR)
  case error =>
    obtain rfl := hl.error he
    exact ⟨rfl, concludePointMap_raises hda hP he⟩

/-- Settles O59: the constant-time ladder is a ladder. -/
theorem smulRunsConstantTimeLadder : Obligations.SmulRunsConstantTimeLadder := by
  unfold Obligations.SmulRunsConstantTimeLadder
  intro d a rb s
  rw [exec_smul]
  exact ⟨decodeOfEncode (.smul d a rb) rfl, concludePointMap_bounds, concludePointMap_range,
    fun hda hP => (ladderCt_isLadder s.cfg).conclude_ends hda hP (s.reg rb)⟩

/-- Settles O60: the variable-time ladder is a ladder. -/
theorem smulvtRunsVariableTimeLadder : Obligations.SmulvtRunsVariableTimeLadder := by
  unfold Obligations.SmulvtRunsVariableTimeLadder
  intro d a rb s
  rw [exec_smulvt]
  exact ⟨decodeOfEncode (.smulvt d a rb) rfl, concludePointMap_bounds, concludePointMap_range,
    fun hda hP => (ladderVt_isLadder s.cfg).conclude_ends hda hP (s.reg rb)⟩

/-! ### `PONC` and `PINSG` (R163, R176) -/

/-- What the two have in common: the index is checked, `P(a)` is read, and `BOOL` takes the answer of `r`. -/
def concludePointTest (a : Idx) (r : Point → Except ErrKind Bool) (s : State) :
    Host.Outcome State Fault Refusal :=
  conclude s (needPoint a >>= fun _ => canonPoint s a >>= fun P => r P >>= fun b => .ok (.bool b))

section pointTest
variable (a : Idx) (s : State)

theorem exec_ponc : exec (.ponc a) s = concludePointTest a (fun P => .ok (oncurve s.cfg P)) s := rfl

theorem exec_pinsg : exec (.pinsg a) s = concludePointTest a (inSubgroup s.cfg) s := rfl

variable {a s} {r : Point → Except ErrKind Bool}

theorem concludePointTest_bounds (h : ¬ a.val ≤ 14) :
    ∃ t, concludePointTest a r s = .next t ∧ Raised s t .bounds :=
  conclude_point_bounds s _ h

variable (ha : a.val ≤ 14)
include ha

theorem concludePointTest_range (hP : ¬ CanonPoint s.cfg (rawPoint s a)) :
    ∃ t, concludePointTest a r s = .next t ∧ Raised s t .range := by
  rw [concludePointTest, needPoint_of_le a ha, bind_ok]
  exact conclude_canonPoint_range s _ hP

variable (hP : CanonPoint s.cfg (rawPoint s a))
include hP

theorem concludePointTest_of_canon :
    concludePointTest a r s = conclude s (r (rawPoint s a) >>= fun b => .ok (.bool b)) := by
  rw [concludePointTest, needPoint_of_le a ha, bind_ok, conclude_canonPoint_of_canon s _ hP]

theorem concludePointTest_writes {b : Bool} (hr : r (rawPoint s a) = .ok b) :
    ∃ t, concludePointTest a r s = .next t ∧ WritesBool s t b := by
  rw [concludePointTest_of_canon ha hP, hr, bind_ok]
  exact commit_bool_writes s b

theorem concludePointTest_raises {e : ErrKind} (hr : r (rawPoint s a) = .error e) :
    ∃ t, concludePointTest a r s = .next t ∧ Raised s t e := by
  rw [concludePointTest_of_canon ha hP, hr, bind_error]
  exact conclude_error_raised s e

end pointTest

/-- R176: off the curve the ladder is not run. -/
theorem inSubgroup_of_not_oncurve {c : Cfg} {P : Point} (h : oncurve c P = false) :
    inSubgroup c P = .ok false := by
  simp [inSubgroup, h]

/-- R176: on the curve the ladder decides. -/
theorem inSubgroup_of_ladderCt_ok {c : Cfg} {P Q : Point} (h : oncurve c P = true)
    (hQ : ladderCt c P c.subOrder = .ok Q) : inSubgroup c P = .ok (decide (Q = neutral)) := by
  rw [inSubgroup, if_pos h, hQ]
  rfl

theorem inSubgroup_of_ladderCt_error {c : Cfg} {P : Point} {e : ErrKind} (h : oncurve c P = true)
    (he : ladderCt c P c.subOrder = .error e) : inSubgroup c P = .error e := by
  rw [inSubgroup, if_pos h, he]
  rfl

/-- Settles O57: the test is the curve equation read as naturals. -/
theorem poncTestsCurveEquation : Obligations.PoncTestsCurveEquation := by
  unfold Obligations.PoncTestsCurveEquation
  intro a s
  rw [exec_ponc]
  refine ⟨decodeOfEncode (.ponc a) rfl, concludePointTest_bounds, concludePointTest_range, fun ha hP => ?_⟩
  have htest := oncurve_eq_decide (Nat.zero_lt_of_lt hP.1) (rawPoint s a)
  exact concludePointTest_writes ha hP (congrArg Except.ok htest)

/-- Settles O58: each of the three ways `isInSubgroup` can end has its own end of the command. -/
theorem pinsgTestsSubgroup : Obligations.PinsgTestsSubgroup := by
  unfold Obligations.PinsgTestsSubgroup
  intro a s
  rw [exec_pinsg]
  refine ⟨decodeOfEncode (.pinsg a) rfl, concludePointTest_bounds, concludePointTest_range,
    fun ha hP => ⟨fun hoff => ?off, fun hon => ⟨fun Q hQ => ?answer, fun e he => ?error⟩⟩⟩
  case off => exact concludePointTest_writes ha hP (inSubgroup_of_not_oncurve hoff)
  case answer => exact concludePointTest_writes ha hP (inSubgroup_of_ladderCt_ok hon hQ)
  case error =>
    obtain rfl := ladderCt_error he
    exact ⟨rfl, concludePointTest_raises ha hP (inSubgroup_of_ladderCt_error hon he)⟩

end Sys2Proof.Machine
end

section
/-! PROOF. The point codec commands (43_curve_codec.md R190 to R193). Past the bounds checks a load commits
the pair that its operand names, if that is a canonical pair on the curve, and a store commits the `PL` bytes
of its source, which the load reads back. -/

namespace Sys2Proof.Machine

/-! ### The byte layout of a point (20_memory.md R54) -/

/-- The encoding of a pair: `x` then `y`, each `BL` bytes (R190). -/
def pointBytes (c : Cfg) (P : Point) : List Byte := leBytes P.x c.bf.byteLen ++ leBytes P.y c.bf.byteLen

/-- The pair whose coordinates are the two halves of the operand at `off` (R191). -/
def bytesPoint (s : State) (off : Nat) : Point where
  x := leInt (s.buf.readBytes off s.cfg.bf.byteLen)
  y := leInt (s.buf.readBytes (off + s.cfg.bf.byteLen) s.cfg.bf.byteLen)

section layout
variable {c : Cfg} {P : Point} {j : Nat}

@[simp] theorem length_pointBytes : (pointBytes c P).length = c.pointLen := by
  simp [pointBytes, Cfg.pointLen, Nat.two_mul]

theorem getElem?_pointBytes_x (hj : j < c.bf.byteLen) :
    (pointBytes c P)[j]? = some (BitVec.ofNat 8 (P.x / 256 ^ j)) := by
  rw [pointBytes, List.getElem?_append_left (by simpa using hj), getElem?_leBytes _ _ _ hj]

theorem getElem?_pointBytes_y (hj : j < c.bf.byteLen) :
    (pointBytes c P)[c.bf.byteLen + j]? = some (BitVec.ofNat 8 (P.y / 256 ^ j)) := by
  rw [pointBytes, List.getElem?_append_right (by simp), length_leBytes, Nat.add_sub_cancel_left,
    getElem?_leBytes _ _ _ hj]

end layout

theorem Memory.readBytes_add (m : Memory) (a n k : Nat) :
    m.readBytes a (n + k) = m.readBytes a n ++ m.readBytes (a + n) k := by
  simp [Memory.readBytes, List.range_add, Nat.add_assoc]

/-- Where the buffer holds the encoding of a canonical pair, the decoder finds that pair: each coordinate
fits in its `BL` bytes. -/
theorem bytesPoint_of_readBytes {s : State} {off : Nat} {P : Point} (hP : CanonPoint s.cfg P)
    (h : s.buf.readBytes off s.cfg.pointLen = pointBytes s.cfg P) : bytesPoint s off = P := by
  rw [Cfg.pointLen, Nat.two_mul, Memory.readBytes_add, pointBytes] at h
  obtain ⟨hx, hy⟩ := List.append_inj h (by simp)
  rw [bytesPoint, hx, hy, leInt_leBytes _ _ (hP.1.trans (FieldCfg.p_lt _)),
    leInt_leBytes _ _ (hP.2.trans (FieldCfg.p_lt _))]

/-! ### Commands with a point operand and a buffer operand (30_encoding.md R87.2, R87.4) -/

section operands
variable (s : State) {i : Idx} {off n : Nat} (k : Unit → Except ErrKind Effect)

theorem conclude_pointBytes_of_le (hi : i.val ≤ 14) (hle : off + n ≤ 256) :
    conclude s (needPoint i >>= fun _ => needBytes off n >>= k) = conclude s (k ()) := by
  rw [needPoint_of_le i hi, bind_ok, conclude_bytes_of_le s k hle]

theorem conclude_pointBytes_bounds (h : ¬ (i.val ≤ 14 ∧ off + n ≤ 256)) :
    ∃ t, conclude s (needPoint i >>= fun _ => needBytes off n >>= k) = .next t ∧ Raised s t .bounds := by
  by_cases hi : i.val ≤ 14
  · rw [needPoint_of_le i hi, bind_ok]
    exact conclude_bytes_bounds s k fun hle => h ⟨hi, hle⟩
  · exact conclude_point_bounds s _ hi

end operands

/-! ### `PFROMB` (R191) -/

/-- The operand is the encoding of a point: the length, the range of both coordinates, the curve. -/
def EncodesPoint (s : State) (off len : Nat) : Prop :=
  len = s.cfg.pointLen ∧ (bytesPoint s off).x < s.cfg.bf.p ∧ (bytesPoint s off).y < s.cfg.bf.p ∧
    oncurve s.cfg (bytesPoint s off) = true

section pointFromBytes
variable {s : State} {d : Idx}

theorem pointFromBytesEffect_of_encodes {off len : Nat} (h : EncodesPoint s off len) :
    pointFromBytesEffect s d off len = .point d (bytesPoint s off) := by
  obtain ⟨rfl, hx, hy, hcurve⟩ := h
  have hrange : ¬ (s.cfg.bf.p ≤ (bytesPoint s off).x ∨ s.cfg.bf.p ≤ (bytesPoint s off).y) := by omega
  rw [pointFromBytesEffect, if_neg (by simp)]
  exact (if_neg hrange).trans (if_pos hcurve)

/-- The three data tests have one outcome (R191). -/
theorem pointFromBytesEffect_of_not_encodes {off len : Nat} (h : ¬ EncodesPoint s off len) :
    pointFromBytesEffect s d off len = .absent := by
  by_cases hlen : len = s.cfg.pointLen
  · rw [pointFromBytesEffect, if_neg (by simpa using hlen)]
    by_cases hrange : s.cfg.bf.p ≤ (bytesPoint s off).x ∨ s.cfg.bf.p ≤ (bytesPoint s off).y
    · exact if_pos hrange
    · have hcurve : ¬ oncurve s.cfg (bytesPoint s off) = true := fun hcurve =>
        h ⟨hlen, by omega, by omega, hcurve⟩
      exact (if_neg hrange).trans (if_neg hcurve)
  · exact if_pos hlen

variable {off len : BitVec 8}

theorem exec_pfromb_bounds (h : ¬ (d.val ≤ 14 ∧ off.toNat + len.toNat ≤ 256)) :
    ∃ t, exec (.pfromb d off len) s = .next t ∧ Raised s t .bounds :=
  conclude_pointBytes_bounds s _ h

variable (hd : d.val ≤ 14) (hle : off.toNat + len.toNat ≤ 256)
include hd hle

theorem exec_pfromb_of_le :
    exec (.pfromb d off len) s = commit s (pointFromBytesEffect s d off.toNat len.toNat) :=
  conclude_pointBytes_of_le s _ hd hle

theorem exec_pfromb_absent (h : ¬ EncodesPoint s off.toNat len.toNat) :
    ∃ t, exec (.pfromb d off len) s = .next t ∧ EndsAbsent s t := by
  rw [exec_pfromb_of_le hd hle, pointFromBytesEffect_of_not_encodes h]
  exact commit_absent_ends s

theorem exec_pfromb_writes (hc : CfgOk s.cfg) (h : EncodesPoint s off.toNat len.toNat) :
    ∃ t, exec (.pfromb d off len) s = .next t ∧ WritesPoint s t d (bytesPoint s off.toNat) := by
  rw [exec_pfromb_of_le hd hle, pointFromBytesEffect_of_encodes h]
  obtain ⟨-, hx, hy, -⟩ := h
  exact commit_point_writes s d _ hd (hc.fits .bf hx) (hc.fits .bf hy)

end pointFromBytes

/-- Settles O51: the two sums are the coordinates of the decoded pair, and whether the operand encodes a point
parts the completions. -/
theorem pfrombDecodes : Obligations.PfrombDecodes := by
  unfold Obligations.PfrombDecodes
  intro d off len s x y hx hy
  rw [← leInt_readBytes] at hx hy
  subst hx hy
  exact ⟨decodeOfEncode (.pfromb d off len) rfl, exec_pfromb_bounds, exec_pfromb_absent,
    fun hc hd hle hlen hx hy hcurve => exec_pfromb_writes hd hle hc ⟨hlen, hx, hy, hcurve⟩⟩

/-! ### `PTOB` (R192) -/

section pointToBytes
variable {s : State} {src : Idx} {off : BitVec 8}

theorem exec_ptob_bounds (h : ¬ (src.val ≤ 14 ∧ off.toNat + s.cfg.pointLen ≤ 256)) :
    ∃ t, exec (.ptob src off) s = .next t ∧ Raised s t .bounds :=
  conclude_pointBytes_bounds s _ h

variable (hsrc : src.val ≤ 14) (hle : off.toNat + s.cfg.pointLen ≤ 256)
include hsrc hle

theorem exec_ptob_range (h : ¬ CanonPoint s.cfg (rawPoint s src)) :
    ∃ t, exec (.ptob src off) s = .next t ∧ Raised s t .range := by
  rw [exec, execPtob, conclude_pointBytes_of_le s _ hsrc hle]
  exact conclude_canonPoint_range s _ h

variable (hP : CanonPoint s.cfg (rawPoint s src))
include hP

/-- Past its checks `PTOB` commits the encoding of its source. -/
theorem exec_ptob_of_canon :
    exec (.ptob src off) s = commit s (.bytes off.toNat (pointBytes s.cfg (rawPoint s src))) := by
  rw [exec, execPtob, conclude_pointBytes_of_le s _ hsrc hle, conclude_canonPoint_of_canon s _ hP]
  rfl

/-- R193: the operand that `PTOB` leaves in the buffer decodes to its source. -/
theorem bytesPoint_of_exec_ptob {t : State} (hm : s.buf.wf) (h : exec (.ptob src off) s = .next t) :
    bytesPoint t off.toNat = rawPoint s src := by
  have hcfg : t.cfg = s.cfg := (exec_frame h).cfg
  rw [exec_ptob_of_canon hsrc hle hP] at h
  have hread := readBytes_of_commit_bytes hm h
  rw [length_pointBytes, ← hcfg] at hread
  exact bytesPoint_of_readBytes (hcfg ▸ hP) hread

end pointToBytes

/-- Settles O52: the string committed has length `PL`; its byte `j` is the digit that R13 names of `x`,
its byte `BL + j` that of `y`. -/
theorem ptobEncodes : Obligations.PtobEncodes := by
  unfold Obligations.PtobEncodes
  intro src off s hs
  refine ⟨decodeOfEncode (.ptob src off) rfl, exec_ptob_bounds, exec_ptob_range,
    fun hsrc hle hP => ?_⟩
  obtain ⟨t, ht, hcompletes, hregs, hbuf, hbytes⟩ :=
    commit_bytes_completes s hs.buf_wf off.toNat (pointBytes s.cfg (rawPoint s src))
  rw [length_pointBytes] at hbuf hbytes
  refine ⟨t, (exec_ptob_of_canon hsrc hle hP).trans ht, hcompletes, hregs, hbuf, fun j hj => ⟨?x, ?y⟩⟩
  case x =>
    rw [hbytes j (by rw [Cfg.pointLen]; omega), getElem?_pointBytes_x hj, Option.getD_some,
      BitVec.toNat_ofNat]
    rfl
  case y =>
    rw [Nat.add_assoc, hbytes _ (by rw [Cfg.pointLen]; omega), getElem?_pointBytes_y hj,
      Option.getD_some, BitVec.toNat_ofNat]
    rfl

/-! ### The round trip (R193) -/

/-- Settles O53: the store keeps the build and leaves the encoding of a point on the curve, which is what the
load asks for; a string of any other length encodes none. -/
theorem pointCodecRoundTrip : Obligations.PointCodecRoundTrip := by
  unfold Obligations.PointCodecRoundTrip
  refine ⟨?roundTrip, ?otherLength⟩
  case roundTrip =>
    intro src d off len s t hc hs hsrc hd hx hy hcurve hlen hle hstore
    have hcfg : t.cfg = s.cfg := (exec_frame hstore).cfg
    have hread : bytesPoint t off.toNat = rawPoint s src :=
      bytesPoint_of_exec_ptob hsrc (hlen ▸ hle) ⟨hx, hy⟩ hs.buf_wf hstore
    have hencodes : EncodesPoint t off.toNat len.toNat := by
      rw [EncodesPoint, hread, hcfg]
      exact ⟨hlen, hx, hy, hcurve⟩
    have hload := exec_pfromb_writes hd hle (hcfg ▸ hc) hencodes
    rwa [hread] at hload
  case otherLength =>
    intro d off len s hlen hd
    by_cases hle : off.toNat + len.toNat ≤ 256
    · obtain ⟨t, ht, habsent⟩ := exec_pfromb_absent hd hle fun h => hlen h.1
      exact ⟨t, ht, fun _ => habsent, fun hgt => absurd hle hgt⟩
    · obtain ⟨t, ht, hraised⟩ := exec_pfromb_bounds (d := d) fun h => hle h.2
      exact ⟨t, ht, fun h => absurd h hle, fun _ => hraised⟩

end Sys2Proof.Machine
end

section
/-! PROOF. The system and data-movement commands (44_system.md R200 to R205). None of them checks a value that
it reads: past the bounds check of a point operand each commits raw registers, which fit by the invariant, or
constants of the build, which fit under `CfgOK`. -/

namespace Sys2Proof.Machine

/-! ### Words that do not decode (30_encoding.md R90) -/

theorem decode_error_of_forall_ne {w : Word} (h : ∀ i, decode w ≠ .ok i) : ∃ e, decode w = .error e := by
  cases hd : decode w with
  | error e => exact ⟨e, rfl⟩
  | ok i => exact absurd hd (h i)

theorem decode_error_of_not_cidOk {w : Word} (h : ¬ cidOk w) : ∃ e, decode w = .error e :=
  decode_error_of_forall_ne fun i hd => h ((decodeAgreesWithOpcodeTable w).1 ⟨i, hd⟩).2

/-- R89: `NOP` is the one row of its opcode, and its format makes no other command. -/
theorem eq_nop_of_decode {w : Word} {i : Instr} (hop : opOf w = 0x01) (h : decode w = .ok i) : i = .nop := by
  obtain ⟨-, fmt, hr, hfmt⟩ := decode_eq_ok_iff_format.1 h
  obtain rfl : fmt = .z .nop := by simpa [hop, formatTable] using hr
  obtain ⟨-, hbuild⟩ := WordFormat.decode_eq_ok_iff.1 hfmt
  exact (Option.some.inj hbuild).symm

/-! ### `PMOV` and `PLDC` (R203, R205) -/

section points
variable {s : State} {d a : Idx}

theorem exec_pmov_bounds (h : ¬ (d.val ≤ 14 ∧ a.val ≤ 14)) :
    ∃ t, exec (.pmov d a) s = .next t ∧ Raised s t .bounds :=
  conclude_points_bounds s _ h

/-- R203: the pair committed is read from the state before the write, so overlap does not matter. -/
theorem exec_pmov_of_le (h : d.val ≤ 14 ∧ a.val ≤ 14) :
    exec (.pmov d a) s = commit s (.point d (rawPoint s a)) :=
  conclude_points_of_le s _ h

variable {cid : PointConstId}

theorem exec_pldc_bounds (h : ¬ d.val ≤ 14) :
    ∃ t, exec (.pldc d cid) s = .next t ∧ Raised s t .bounds :=
  conclude_point_bounds s _ h

theorem exec_pldc_of_le (h : d.val ≤ 14) :
    exec (.pldc d cid) s = commit s (.point d (pointConstValue s.cfg cid)) := by
  rw [exec, execPldc, needPoint_of_le d h]
  rfl

end points

/-- Settles O34: the raw pair fits because each of its registers does. -/
theorem pmovCopiesRawPair : Obligations.PmovCopiesRawPair := by
  unfold Obligations.PmovCopiesRawPair
  intro d a s hs
  refine ⟨decodeOfEncode (.pmov d a) rfl, fun h => ?_, exec_pmov_bounds⟩
  obtain ⟨hx, hy⟩ := rawPoint_fits hs d h.2
  rw [exec_pmov_of_le h]
  exact commit_point_writes s d (rawPoint s a) h.1 hx hy

/-- Settles O36: the `CID` check is part of decoding and so comes before the index; under `CfgOK` each of the
three points is canonical. -/
theorem pldcLoadsPoint : Obligations.PldcLoadsPoint := by
  unfold Obligations.PldcLoadsPoint
  refine ⟨fun w hop hcid => ?illegal,
    fun d cid s => ⟨decodeOfEncode (.pldc d cid) rfl, fun hc hd => ?writes, exec_pldc_bounds⟩⟩
  case illegal => exact decode_error_of_not_cidOk fun h => Nat.not_le.2 hcid (h.2 hop)
  case writes =>
    obtain ⟨hx, hy⟩ := hc.point_fits (hc.pointConstValue_canon cid) d
    rw [exec_pldc_of_le hd]
    cases cid <;> exact commit_point_writes s d _ hd hx hy

/-! ### `LDC` (R204) -/

/-- `F = 1` goes with the first three constants only. -/
theorem ConstId.allows_of_bf_or {f : FieldSel} {cid : ConstId}
    (h : f = .bf ∨ cid = .zero ∨ cid = .one ∨ cid = .nonres) : cid.allows f = true := by
  rcases h with rfl | rfl | rfl | rfl
  · rfl
  all_goals cases f <;> rfl

theorem exec_ldc_of_allows {f : FieldSel} {rd : Idx} {cid : ConstId} {s : State} (h : cid.allows f = true) :
    exec (.ldc f rd cid) s = commit s (.reg rd (constValue s.cfg f cid)) := by
  rw [exec, execLdc, if_pos h, conclude_ok]

/-- Settles O35: the illegal words are those that the `CID` check refuses; under `CfgOK` every constant fits
its register. -/
theorem ldcLoadsConstant : Obligations.LdcLoadsConstant := by
  unfold Obligations.LdcLoadsConstant
  refine ⟨fun w hop hcid => ?illegal, fun f rd cid s hc hf => ?writes⟩
  case illegal =>
    refine decode_error_of_not_cidOk fun h => ?_
    obtain ⟨hle, hleSf⟩ := h.1 hop
    rcases hcid with hgt | ⟨hF, hgt⟩
    · exact Nat.not_le.2 hgt hle
    · exact Nat.not_le.2 hgt (hleSf hF)
  case writes =>
    have hallows := ConstId.allows_of_bf_or hf
    refine ⟨decodeOfEncode (.ldc f rd cid) hallows, ?_⟩
    have hfits := hc.constValue_fits f cid
    rw [exec_ldc_of_allows hallows]
    cases cid <;> exact commit_reg_writes s rd _ hfits

/-! ### `NOP`, `ZEROIZE` and `MOV` (R200 to R202) -/

/-- Settles O31: a word of `NOP`'s opcode that decodes is the word of `NOP`. -/
theorem nopChangesNothing : Obligations.NopChangesNothing := by
  unfold Obligations.NopChangesNothing
  refine ⟨decodeOfEncode .nop rfl, fun w hop hne => ?illegal, fun s => ?completes⟩
  case illegal =>
    refine decode_error_of_forall_ne fun i hd => hne ?_
    have hopOf : opOf w = 0x01 := by rw [opOf, ← extractLsb'_toNat_eq_bits, hop]; rfl
    obtain rfl := eq_nop_of_decode hopOf hd
    exact (encodeOfDecode w .nop hd).2.symm
  case completes =>
    exact ⟨finish s false false, rfl, finish_completes s false false, fun _ _ _ => rfl, fun _ => rfl⟩

/-- Settles O32: the commit puts every register and the buffer at the reset value and touches no latch. -/
theorem zeroizeClearsAll : Obligations.ZeroizeClearsAll := by
  unfold Obligations.ZeroizeClearsAll
  refine ⟨decodeOfEncode .zeroize rfl, fun s => ?_⟩
  refine ⟨finish { s with regs := Vector.replicate 16 0, buf := [] } false false, rfl,
    commit_completes (ef := .zeroize) rfl, fun n _ => ?regs, fun a => ?bytes⟩
  case regs => rw [finish_reg, clear_update_reg]
  case bytes => rw [finish_buf, Memory.read_nil]

/-- Settles O33: the raw value fits because its own register holds it. -/
theorem movCopiesRawRegister : Obligations.MovCopiesRawRegister := by
  unfold Obligations.MovCopiesRawRegister
  intro rd ra s hs
  exact ⟨decodeOfEncode (.mov rd ra) rfl, commit_reg_writes s rd (s.reg ra) (rawReg_fits hs rd ra)⟩

end Sys2Proof.Machine
end

section
/-! PROOF. The latched error (60_exceptions.md). A latch tells that the CORE is idle, and so no `CMD` write
is accepted (R58); the latch of a build that fails the construction check is `E_CONSTRUCT` in every state with
the invariant (R234). -/

namespace Sys2Proof.Machine

/-! ### What the invariant says of a latched error -/

namespace StateOk

variable {s : State} (hs : StateOk s)
include hs

/-- R58: a command is pending only if it was accepted, which needs `ERR = 0`. -/
theorem busy_false_of_err (herr : s.err = true) : s.busy = false := by
  cases hb : s.busy with
  | false => rfl
  | true => exact absurd herr (by simp [hs.err_false_of_busy hb])

theorem err_of_errCode_ne_zero (hcode : s.errCode ≠ 0) : s.err = true := by
  simpa using mt hs.err_code.1 hcode

/-- R234: the invariant itself pins the latch of a build that fails the construction check, so no path to
such a state needs to be followed. -/
theorem latched_of_badBuild (hbad : s.cfg.cofactor * s.cfg.subOrder ≠ s.cfg.order) :
    s.busy = false ∧ s.err = true ∧ s.errCode = 0x03 := by
  have hcheck : constructOk s.cfg = false := by simpa using mt (constructOk_iff s.cfg).1 hbad
  have hcode : s.errCode = ErrKind.code .construct := hs.construct_code.2 hcheck
  have herr : s.err = true := hs.err_of_errCode_ne_zero (hcode ▸ ErrKind.code_ne_zero .construct)
  exact ⟨hs.busy_false_of_err herr, herr, hcode⟩

end StateOk

/-- Settles O13: the reset state and every step's next state have the invariant and the same build, and in such a
build the invariant says the rest. -/
theorem badBuildNeverAccepts : Obligations.BadBuildNeverAccepts := by
  unfold Obligations.BadBuildNeverAccepts
  refine ⟨fun c hbad => ?reset, fun s t hs hbad h => ?step⟩
  case reset =>
    have hok := resetOf_stateOk c
    exact ⟨hok, (hok.latched_of_badBuild hbad).2⟩
  case step =>
    obtain ⟨ht, hcfg⟩ := stepKeepsInvariant s t hs h
    exact ⟨ht, hcfg, ht.latched_of_badBuild (hcfg ▸ hbad)⟩

/-! ### A sequence of `CMD` writes while an error is latched (R227) -/

/-- Every action that the host has left is a write to `CMD` (20_memory.md R51). -/
def OnlyCmdWrites (l : List Arrival) : Prop :=
  ∀ a ∈ l, ∃ off data strb, a.act = .write off data strb ∧ off.toNat < 4

theorem OnlyCmdWrites.tail {l : List Arrival} (h : OnlyCmdWrites l) : OnlyCmdWrites l.tail :=
  fun a ha => h a (List.mem_of_mem_tail ha)

/-- R58: a latched error discards a `CMD` write, whatever its strobes. -/
theorem hostWrite_cmd_of_err {s : State} (herr : s.err = true) {off : BitVec 10} (hoff : off.toNat < 4)
    (data : Word) (strb : BitVec 4) : hostWrite s off data strb = s := by
  obtain ⟨-, hlost⟩ := cmdWriteAcceptsOrIsLost s off data strb hoff
  exact hlost (by simp [herr])

/-- One step only takes a write off the inbox, or waits. -/
theorem step_of_latched {s : State} (hb : s.busy = false) (herr : s.err = true)
    (hw : OnlyCmdWrites s.inbox) : step s = .next { s with inbox := s.inbox.tail } := by
  cases hi : s.inbox with
  | nil =>
    rw [List.tail_nil, ← hi]
    exact step_idle hi hb
  | cons a rest =>
    obtain ⟨off, data, strb, hact, hoff⟩ := hw a (by simp [hi])
    rw [step_of_hostTurn hi (.inl hb), hact]
    exact congrArg _ (hostWrite_cmd_of_err (s := { s with inbox := rest }) herr hoff data strb)

/-- The whole run: `n` writes are off the inbox, and nothing else has changed. -/
theorem run_of_latched (n : Nat) {s : State} (hb : s.busy = false) (herr : s.err = true)
    (hw : OnlyCmdWrites s.inbox) :
    Host.Core.run Sys2Proof.core n s = .next { s with inbox := s.inbox.drop n } := by
  induction n generalizing s with
  | zero => rfl
  | succ n ih =>
    rw [core_run_succ (step_of_latched hb herr hw), ← List.drop_tail]
    exact ih (s := { s with inbox := s.inbox.tail }) hb herr hw.tail

/-- Settles O14: a latched error tells an idle CORE, whose run is `run_of_latched`. -/
theorem latchedErrorFailsFast : Obligations.LatchedErrorFailsFast := by
  unfold Obligations.LatchedErrorFailsFast
  intro n s t hs herr hw h
  rw [run_of_latched n (hs.busy_false_of_err herr) herr hw] at h
  cases h
  rfl

end Sys2Proof.Machine
end

section
/-! PROOF. The reset state of a build and the two resets (70_reset_and_hazards.md): hard, and soft in an
idle CORE. Each is a state that `resetCore` answers, and `resetCore_isResetState` says its
values. -/

namespace Sys2Proof.Machine

/-- A reset finds nothing to change in the state that a build starts in. -/
@[simp] theorem resetCore_resetOf (c : Cfg) : resetCore (State.resetOf c) = State.resetOf c := rfl

theorem resetOf_isResetState (c : Cfg) : IsResetState (State.resetOf c) := by
  rw [← resetCore_resetOf]
  exact resetCore_isResetState _

/-- R61, R263: a `CTRL` write with `SRST` and strobe 0 does what a hard reset does, if the CORE is idle. -/
theorem hostWrite_srst {s : State} {off : BitVec 10} {data : Word} {strb : BitVec 4}
    (hoff : off.toNat / 4 = 2) (hb : s.busy = false) (hstrb : strb.getLsbD 0 = true)
    (h0 : data.getLsbD 0 = true) : hostWrite s off data strb = hostAct s .hardReset := by
  rw [hostWrite_ctrl s data strb (hostTarget_ctrl hoff), writeCtrl_srst hb hstrb h0]
  rfl

theorem hardReset_isResetState (s : State) :
    IsResetState (hostAct s .hardReset) ∧ (hostAct s .hardReset).cfg = s.cfg :=
  ⟨resetCore_isResetState s, resetCore_cfg s⟩

/-- Settles O15: the soft reset has the hard reset's values by `hostWrite_srst`. -/
theorem resetsLeaveResetValues : Obligations.ResetsLeaveResetValues := by
  unfold Obligations.ResetsLeaveResetValues
  refine ⟨fun c => ⟨resetOf_isResetState c, resetOf_cfg c⟩, hardReset_isResetState,
    fun s off data strb hoff hb hstrb h0 => ?soft⟩
  case soft =>
    rw [hostWrite_srst hoff hb hstrb h0]
    exact hardReset_isResetState s

end Sys2Proof.Machine
end
